-- ==== Sys2Proof/Word.lean ====
section
/-! DEFINITION. The word types of the CORE (spec/00_scope.md R17: bit 0 is the least significant
bit, values are unsigned unless a rule says signed). -/

namespace Sys2Proof

/-- A byte: a pixel, a luminance, a panel byte. -/
abbrev Byte := BitVec 8

/-- A producer command word or a response data word (30_encoding.md R96, R100). -/
abbrev Word32 := BitVec 32

/-- A panel symbol: bit 8 is the data/command line, bits 7 to 0 the byte (30_encoding.md R103). -/
abbrev Symbol := BitVec 9

end Sys2Proof
end

