-- ==== Sys2Proof/Syntax.lean ====
section
/-! DEFINITION. The operations of the CORE, one constructor per row of spec/opcode_table.json
(00_scope.md R24): ten producer commands (operand fields of 30_encoding.md R97), eleven display
micro-operations (no operand bits, R95) and the two panel transactions (43_display_transport.md
R182, a byte list). -/

namespace Sys2Proof

/-- An operation of the CORE. -/
inductive Instr where
  /-- PXW b, a, d (45_producer_port.md R222): write one pixel. -/
  | pxw (b : BitVec 1) (a : BitVec 19) (d : BitVec 8)
  /-- PXR b, a (R223): read one pixel. -/
  | pxr (b : BitVec 1) (a : BitVec 19)
  /-- PALREQ id (R224): request a palette. -/
  | palreq (id : BitVec 8)
  /-- GAMMA g (R225): set the gamma level. -/
  | gamma (g : BitVec 8)
  /-- PUBLISH vt, ov, fb (R226): publish the next selection triple. -/
  | publish (vt : BitVec 8) (ov : BitVec 8) (fb : BitVec 1)
  /-- OVW s, i, row (R228): write the row of an overlay record. -/
  | ovw (os : BitVec 2) (i : BitVec 10) (row : BitVec 16)
  /-- OVN s, n (R229): set the record count of an overlay set. -/
  | ovn (os : BitVec 2) (n : BitVec 11)
  /-- WIPEW x, raw (R230): write one column's raw offset, `raw` in two's complement. -/
  | wipew (x : BitVec 12) (raw : BitVec 16)
  /-- WIPEMIN m (R231): set the running wipe minimum. -/
  | wipemin (m : BitVec 16)
  /-- RDSTAT (R232): read the status word. -/
  | rdstat
  /-- INIT (43_display_transport.md R183), the `S_INIT` step. -/
  | init
  /-- WAITSYNC (44_scheduler.md R202), the `S_WAITSYNC` step. -/
  | waitsync
  /-- APPLYPAL (40_palette_engine.md R126), the `S_PAL` step (44_scheduler.md R204). -/
  | applypal
  /-- REBUILDOV (41_overlay_wipe.md R146), the `S_OVL` step (44_scheduler.md R205). -/
  | rebuildov
  /-- ADVWIPE (41_overlay_wipe.md R150), the `S_WIPE` step (44_scheduler.md R206). -/
  | advwipe
  /-- ENCODE (42_bitplane_encoder.md R161), the `S_ENCODE` step (44_scheduler.md R207). -/
  | encode
  /-- PARK (43_display_transport.md R185), the `S_PARK` step. -/
  | park
  /-- RUN (43_display_transport.md R186), the `S_RUN` step. -/
  | run
  /-- RELEASE (44_scheduler.md R210), the `S_RELEASE` step. -/
  | release
  /-- PACE (44_scheduler.md R211), the `S_PACE` step. -/
  | pace
  /-- HALT (44_scheduler.md R212), the `S_HALT` state. -/
  | halt
  /-- TXCMD(seq) (43_display_transport.md R182): a panel transaction of command bytes. -/
  | txcmd (seq : List (BitVec 8))
  /-- TXDATA(buf) (43_display_transport.md R182): a panel transaction of data bytes. -/
  | txdata (buf : List (BitVec 8))
deriving DecidableEq, Repr

end Sys2Proof
end

