-- ==== Sys2Proof/WellFormed.lean ====
section
/-! DEFINITION. Which operations have an encoding. The operand fields of the producer commands have
exactly the widths of 30_encoding.md R97, so every one of their values is encodable; a panel
transaction has one or more symbols (R103). Range limits that depend on parameters are no matter of
form: the command is refused when it runs (R99). -/

namespace Sys2Proof

/-- The operation can be written in the encoding of its format. -/
def Instr.wellFormed : Instr → Bool
  | .pxw _ _ _ => true
  | .pxr _ _ => true
  | .palreq _ => true
  | .gamma _ => true
  | .publish _ _ _ => true
  | .ovw _ _ _ => true
  | .ovn _ _ => true
  | .wipew _ _ => true
  | .wipemin _ => true
  | .rdstat => true
  | .init => true
  | .waitsync => true
  | .applypal => true
  | .rebuildov => true
  | .advwipe => true
  | .encode => true
  | .park => true
  | .run => true
  | .release => true
  | .pace => true
  | .halt => true
  | .txcmd seq => !seq.isEmpty
  | .txdata buf => !buf.isEmpty

end Sys2Proof
end

