-- ==== Sys2Proof/Decode.lean ====
section
/-! DEFINITION. Decoding and encoding of the three operation formats (30_encoding.md R95): the 32-bit
producer command by the match and mask of R98, the 4-bit sequencer code of R102, the 9-bit panel
symbols of one transaction of R103. -/

namespace Sys2Proof

/-- The words of one operation, in one of the three formats of 30_encoding.md R95. -/
inductive Encoded where
  /-- P-format: a producer command word. -/
  | command (w : BitVec 32)
  /-- S-format: the code in `SEQ`. -/
  | micro (code : BitVec 4)
  /-- T-format: the symbols between a chip-select assert and the next deassert. -/
  | transaction (symbols : List (BitVec 9))
deriving DecidableEq, Repr

/-- Why words decode to no operation. -/
inductive DecodeError where
  /-- A command word that matches no row of 30_encoding.md R98 (R99). -/
  | illegalCommand
  /-- A sequencer code 0xA to 0xE (30_encoding.md R102). -/
  | reservedCode
  /-- A transaction without a symbol (30_encoding.md R103: one or more). -/
  | emptyTransaction
  /-- A transaction whose symbols differ in bit 8 (30_encoding.md R103). -/
  | mixedTransaction
deriving DecidableEq, Repr

/-! ## S-format: the codes of `SEQ` (30_encoding.md R102) -/

/-- `S_INIT`. -/
def seqInit : BitVec 4 := 0x0#4
/-- `S_WAITSYNC`. -/
def seqWaitsync : BitVec 4 := 0x1#4
/-- `S_PAL`. -/
def seqPal : BitVec 4 := 0x2#4
/-- `S_OVL`. -/
def seqOvl : BitVec 4 := 0x3#4
/-- `S_WIPE`. -/
def seqWipe : BitVec 4 := 0x4#4
/-- `S_ENCODE`. -/
def seqEncode : BitVec 4 := 0x5#4
/-- `S_PARK`. -/
def seqPark : BitVec 4 := 0x6#4
/-- `S_RUN`. -/
def seqRun : BitVec 4 := 0x7#4
/-- `S_RELEASE`. -/
def seqRelease : BitVec 4 := 0x8#4
/-- `S_PACE`. -/
def seqPace : BitVec 4 := 0x9#4
/-- `S_HALT`. -/
def seqHalt : BitVec 4 := 0xF#4

/-- The micro-operation a code of `SEQ` selects (30_encoding.md R102). -/
def decodeMicro (c : BitVec 4) : Except DecodeError Instr :=
  if c = seqInit then .ok .init
  else if c = seqWaitsync then .ok .waitsync
  else if c = seqPal then .ok .applypal
  else if c = seqOvl then .ok .rebuildov
  else if c = seqWipe then .ok .advwipe
  else if c = seqEncode then .ok .encode
  else if c = seqPark then .ok .park
  else if c = seqRun then .ok .run
  else if c = seqRelease then .ok .release
  else if c = seqPace then .ok .pace
  else if c = seqHalt then .ok .halt
  else .error .reservedCode

/-! ## P-format: the producer command word (30_encoding.md R96 to R99) -/

/-- A word is the command of a row exactly when `w & mask = match` (30_encoding.md R98). -/
def fitsRow (w mask bits : BitVec 32) : Bool := w &&& mask == bits

/-- The command a word is, by the rows of 30_encoding.md R98 and the fields of R97. -/
def decodeCommand (w : BitVec 32) : Except DecodeError Instr :=
  if fitsRow w 0xF0000000#32 0x10000000#32 then
    .ok (.pxw (w.extractLsb' 27 1) (w.extractLsb' 8 19) (w.extractLsb' 0 8))
  else if fitsRow w 0xF00000FF#32 0x20000000#32 then
    .ok (.pxr (w.extractLsb' 27 1) (w.extractLsb' 8 19))
  else if fitsRow w 0xFFFFFF00#32 0x30000000#32 then
    .ok (.palreq (w.extractLsb' 0 8))
  else if fitsRow w 0xFFFFFF00#32 0x40000000#32 then
    .ok (.gamma (w.extractLsb' 0 8))
  else if fitsRow w 0xFF0000FE#32 0x50000000#32 then
    .ok (.publish (w.extractLsb' 16 8) (w.extractLsb' 8 8) (w.extractLsb' 0 1))
  else if fitsRow w 0xF0000000#32 0x60000000#32 then
    .ok (.ovw (w.extractLsb' 26 2) (w.extractLsb' 16 10) (w.extractLsb' 0 16))
  else if fitsRow w 0xF3FFF800#32 0x70000000#32 then
    .ok (.ovn (w.extractLsb' 26 2) (w.extractLsb' 0 11))
  else if fitsRow w 0xF0000000#32 0x80000000#32 then
    .ok (.wipew (w.extractLsb' 16 12) (w.extractLsb' 0 16))
  else if fitsRow w 0xFFFF0000#32 0x90000000#32 then
    .ok (.wipemin (w.extractLsb' 0 16))
  else if fitsRow w 0xFFFFFFFF#32 0xA0000000#32 then
    .ok .rdstat
  else .error .illegalCommand

/-! ## T-format: the symbols of a transaction (30_encoding.md R103) -/

/-- Bit 8 of a symbol: the data/command line, false for `CMD`. -/
def symbolIsData (sym : BitVec 9) : Bool := sym.getLsbD 8

/-- Bits 7 to 0 of a symbol: the byte. -/
def symbolByte (sym : BitVec 9) : BitVec 8 := sym.extractLsb' 0 8

/-- The transaction a list of symbols is (30_encoding.md R103). -/
def decodeTransaction (symbols : List (BitVec 9)) : Except DecodeError Instr :=
  if symbols.isEmpty then .error .emptyTransaction
  else if symbols.all (fun sym => !symbolIsData sym) then .ok (.txcmd (symbols.map symbolByte))
  else if symbols.all symbolIsData then .ok (.txdata (symbols.map symbolByte))
  else .error .mixedTransaction

/-! ## The decoder -/

/-- The operation that words of any format stand for, or the reason they stand for none. -/
def decode : Encoded → Except DecodeError Instr
  | .command w => decodeCommand w
  | .micro c => decodeMicro c
  | .transaction symbols => decodeTransaction symbols

/-- The operation in an instruction of `nbits` bits whose bits are `w`: 32 bits are a command word;
4 bits, a byte where bytes are counted, are a sequencer code; 9 bits, two bytes, are one panel symbol
(log 23). A bit above the format's width makes it no instruction. -/
def decodeTableWord (nbits w : Nat) : Option Instr :=
  if nbits = 32 then
    if w < 2 ^ 32 then (decode (.command (BitVec.ofNat 32 w))).toOption else none
  else if nbits = 4 ∨ nbits = 8 then
    if w < 2 ^ 4 then (decode (.micro (BitVec.ofNat 4 w))).toOption else none
  else if nbits = 9 ∨ nbits = 16 then
    if w < 2 ^ 9 then (decode (.transaction [BitVec.ofNat 9 w])).toOption else none
  else none

/-! ## The encoder -/

/-- The symbol of a command byte: bit 8 clear (30_encoding.md R103). -/
def cmdSymbol (b : BitVec 8) : BitVec 9 := 0#1 ++ b

/-- The symbol of a data byte: bit 8 set (30_encoding.md R103). -/
def dataSymbol (b : BitVec 8) : BitVec 9 := 1#1 ++ b

/-- The words of an operation: opcode and fields of 30_encoding.md R97 with the must-be-zero bits
clear, the codes of R102, the symbols of R103. -/
def encode : Instr → Encoded
  | .pxw b a d => .command (0x1#4 ++ b ++ a ++ d)
  | .pxr b a => .command (0x2#4 ++ b ++ a ++ 0#8)
  | .palreq id => .command (0x3#4 ++ 0#20 ++ id)
  | .gamma g => .command (0x4#4 ++ 0#20 ++ g)
  | .publish vt ov fb => .command (0x5#4 ++ 0#4 ++ vt ++ ov ++ 0#7 ++ fb)
  | .ovw os i row => .command (0x6#4 ++ os ++ i ++ row)
  | .ovn os n => .command (0x7#4 ++ os ++ 0#15 ++ n)
  | .wipew x raw => .command (0x8#4 ++ x ++ raw)
  | .wipemin m => .command (0x9#4 ++ 0#12 ++ m)
  | .rdstat => .command (0xA#4 ++ 0#28)
  | .init => .micro seqInit
  | .waitsync => .micro seqWaitsync
  | .applypal => .micro seqPal
  | .rebuildov => .micro seqOvl
  | .advwipe => .micro seqWipe
  | .encode => .micro seqEncode
  | .park => .micro seqPark
  | .run => .micro seqRun
  | .release => .micro seqRelease
  | .pace => .micro seqPace
  | .halt => .micro seqHalt
  | .txcmd seq => .transaction (seq.map cmdSymbol)
  | .txdata buf => .transaction (buf.map dataSymbol)

end Sys2Proof
end

