-- ==== Sys2Proof/Config.lean ====
section
/-! DEFINITION. What an implementation fixes: the parameters of spec/00_scope.md R8 to R15 and the
contents of the resource port (10_state.md R52), one record of plain data that a run never changes
(R16, 20_memory.md R78); the constraints the spec puts on them; the record that `State.reset` carries;
and the free values, opaque constants that nothing can evaluate. See assumption log 1 to 9. -/

namespace Sys2Proof

/-- One fade record `FADE[id]` (30_encoding.md R109): the tint, each component 0..256, and the blend
factor `mul`, 0..65536. -/
structure FadeRecord where
  tintR : Nat
  tintG : Nat
  tintB : Nat
  mul : Nat
deriving DecidableEq, Repr

/-- One patch descriptor `PATCH[k]` of the resource port (30_encoding.md R109). -/
structure Patch where
  /-- Colour depth in bits per pixel. -/
  depth : BitVec 8
  /-- No transparency and no run-length coding. -/
  flat : Bool
  /-- The patch has an embedded shared palette. -/
  hasPal : Bool
  /-- The sixteen palette indices, meaningful only with `hasPal`. -/
  pal : List Byte
deriving DecidableEq, Repr

/-- The parameters and the resource port. A count that is the length of a list is that length:
`NGAMMA` (`gammaTables`), `PAL_N` (`fade`, whose entry `id - 1` is `FADE[id]`), `NUM_SHARED`
(`patches`), `LUMP_LEN` (`lump`). -/
structure Config where
  /-- `SRC_W`, frame-buffer width in pixels (R8). -/
  srcW : Nat
  /-- `SRC_H`, frame-buffer height in pixels (R8). -/
  srcH : Nat
  /-- `SS`, supersampling factor (R8). -/
  ss : Nat
  /-- `LUM_WR`, weight of red (R9). -/
  lumWr : Nat
  /-- `LUM_WG`, weight of green (R9). -/
  lumWg : Nat
  /-- `LUM_WB`, weight of blue (R9). -/
  lumWb : Nat
  /-- `LUM_SHIFT` (R9). -/
  lumShift : Nat
  /-- `GAMMA[g][v]` (R9, R52). -/
  gammaTables : List (List Byte)
  /-- `GAMMA_EN` (R9). -/
  gammaEn : Bool
  /-- `FADE[1..PAL_N]` (R9). -/
  fade : List FadeRecord
  /-- `LUMP[0..LUMP_LEN-1]` (R52). -/
  lump : List Byte
  /-- `PATCH[0..NUM_SHARED-1]` (R52). -/
  patches : List Patch
  /-- `NUM_OV_SETS` (R11). -/
  numOvSets : Nat
  /-- `OV_MAX` (R11). -/
  ovMax : Nat
  /-- `OV_ROWS` (R11). -/
  ovRows : Nat
  /-- `WIPE_COLS` (R12). -/
  wipeCols : Nat
  /-- `WIPE_H` (R12). -/
  wipeH : Nat
  /-- `WIPE_T` (R12). -/
  wipeT : Nat
  /-- `WIPE_STEP_CAP` (R12). -/
  wipeStepCap : Nat
  /-- `INIT_SEQ` (R13). -/
  initSeq : List Byte
  /-- `PARK_SEQ` (R13). -/
  parkSeq : List Byte
  /-- `FIELD_SEQ[0]` (R13). -/
  fieldSeq0 : List Byte
  /-- `FIELD_SEQ[1]` (R13). -/
  fieldSeq1 : List Byte
  /-- `FIELD_SEQ[2]` (R13). -/
  fieldSeq2 : List Byte
  /-- `FIELD_PERIOD`, ticks (R14). -/
  fieldPeriod : Nat
deriving DecidableEq, Repr

/-- The ranges of a fade record's fields (30_encoding.md R109). -/
def FadeRecord.inRange (r : FadeRecord) : Bool :=
  r.tintR ≤ 256 && r.tintG ≤ 256 && r.tintB ≤ 256 && r.mul ≤ 65536

/-- Two fade records have the same tint. -/
def FadeRecord.sameTint (a b : FadeRecord) : Bool :=
  a.tintR == b.tintR && a.tintG == b.tintG && a.tintB == b.tintB

/-- The number of ranges a fade table falls into: a new range starts where the tint changes or where
`mul` does not rise. -/
def fadeRanges : List FadeRecord → Nat
  | [] => 0
  | [_] => 1
  | a :: b :: rest =>
    (if a.sameTint b && a.mul < b.mul then 0 else 1) + fadeRanges (b :: rest)

/-- The constraints of R8 to R14, 30_encoding.md R109 and 40_palette_engine.md R131, the premise of
every claim about the machine (93_implementation_defined.md U14). `WIPE_T + 1` fits the 16 bits of
`WIPE_MIN`, without which the reset value of 10_state.md R35 would not (log 20). -/
def Config.valid (c : Config) : Bool :=
  (1 ≤ c.srcW && 1 ≤ c.srcH && 1 ≤ c.ss && c.srcW % c.ss == 0 && c.srcH % c.ss == 0
    && c.srcW * c.srcH ≤ 2 ^ 19)
  && (1 ≤ c.gammaTables.length && c.gammaTables.length ≤ 256
    && c.gammaTables.all (fun t => t.length == 256))
  && (c.fade.length ≤ 255 && c.fade.all FadeRecord.inRange && fadeRanges c.fade ≤ 3)
  && c.patches.all (fun p => p.pal.length == 16)
  && (1 ≤ c.numOvSets && c.numOvSets ≤ 4 && c.ovMax ≤ 1024 && 1 ≤ c.ovRows && c.ovRows ≤ 65535)
  && (1 ≤ c.wipeCols && c.wipeCols ≤ 4096 && 1 ≤ c.wipeH && c.wipeH ≤ 32767
    && c.wipeT < 65535 && 1 ≤ c.wipeStepCap)
  && 1 ≤ c.fieldPeriod

/-- The default `FADE` table of 40_palette_engine.md R132 (PRESUMED: the spec marks it general
knowledge; log 3). -/
def Config.defaultFade : List FadeRecord :=
  [⟨255, 0, 0, 7281⟩, ⟨255, 0, 0, 14563⟩, ⟨255, 0, 0, 21845⟩, ⟨255, 0, 0, 29127⟩,
   ⟨255, 0, 0, 36408⟩, ⟨255, 0, 0, 43690⟩, ⟨255, 0, 0, 50972⟩, ⟨255, 0, 0, 58254⟩]
  ++ [⟨215, 186, 69, 8192⟩, ⟨215, 186, 69, 16384⟩, ⟨215, 186, 69, 24576⟩, ⟨215, 186, 69, 32768⟩]
  ++ [⟨0, 256, 0, 8192⟩]

/-- The identity gamma table, the default of `GAMMA[0]` (R9). -/
def Config.identityGamma : List Byte := (List.range 256).map (BitVec.ofNat 8)

/-- The palette lump GREY of 95_test_vectors.md section 0: entry `i` is `(i, i, i)`. -/
def Config.greyLump : List Byte :=
  (List.range 768).map (fun k => BitVec.ofNat 8 (k / 3))

/-- The parameters `State.reset` carries: CFG-B and the common values of 95_test_vectors.md section 0,
the panel profile of 43_display_transport.md R190, the lump GREY (DESIGN CHOICE, log 2; the panel
bytes PRESUMED, log 4). -/
def Config.default : Config where
  srcW := 2
  srcH := 8
  ss := 1
  lumWr := 5
  lumWg := 3
  lumWb := 3
  lumShift := 3
  gammaTables := [Config.identityGamma]
  gammaEn := true
  fade := Config.defaultFade
  lump := Config.greyLump
  patches := []
  numOvSets := 2
  ovMax := 8
  ovRows := 4
  wipeCols := 2
  wipeH := 8
  wipeT := 7
  wipeStepCap := 8
  initSeq := [0xD5, 0xF0, 0xA8, 0x07, 0x20, 0x00, 0x81, 0x7F, 0xD9, 0x22, 0xDB, 0x20, 0x21, 0x00,
    0x01, 0x22, 0x00, 0x00, 0xAF]
  parkSeq := [0xA8, 0x00]
  fieldSeq0 := [0x81, 0xFF, 0xA8, 0x08]
  fieldSeq1 := [0x81, 0x7F, 0xA8, 0x08]
  fieldSeq2 := [0x81, 0x3F, 0xA8, 0x08]
  fieldPeriod := 5000

/-- What the coming step of the machine is: a step of one of the three agents of R7, or the reset
input of 70_reset_and_hazards.md R275. -/
inductive Turn where
  /-- The producer: the command on the port goes on, or the next word is presented. -/
  | producer
  /-- The display sequencer: the micro-operation of `SEQ`. -/
  | display
  /-- Time: `NOW` becomes the given value if that is larger (10_state.md R51). -/
  | time (t : BitVec 64)
  /-- The reset input is pulsed (R275). -/
  | reset
deriving DecidableEq, Repr, Inhabited

/-- FREE VALUE (log 8): the agent that takes the `n`-th step whose agent nothing else fixes
(20_memory.md R81, R84: any interleaving). -/
opaque Config.freeTurn : Nat → Turn

/-- FREE VALUE (log 9): the word the producer presents at its `n`-th free choice, or none where it
issues no command. -/
opaque Config.freeCommand : Nat → Option (BitVec 32)

/-- FREE VALUE (log 5): the content of byte `a` of `FB[b]` after the `k`-th reset, until it is
written (10_state.md R57). -/
opaque Config.powerUpByte : Nat → BitVec 1 → Nat → BitVec 8

/-- FREE VALUE (log 6): `OVREC[s][i].row` after the `k`-th reset, until it is written
(10_state.md R59). -/
opaque Config.powerUpRow : Nat → Nat → Nat → BitVec 16

/-- FREE VALUE (log 6): `OVREC[s][i].next` after the `k`-th reset, until it is written
(10_state.md R59). -/
opaque Config.powerUpNext : Nat → Nat → Nat → BitVec 16

end Sys2Proof
end

