-- ==== Sys2Proof/Machine/State.lean ====
section
/-! DEFINITION. The state of the CORE (10_state.md R25 to R60) as plain data, the reasons a step can
stop, and the machine right after reset. Register names follow the spec's. Fields that no rule names
are marked as the model's own. -/

namespace Sys2Proof.Machine

/-- A byte memory: its listed bytes with their addresses, addresses strictly rising, none equal to
what an unlisted address reads as (Machine/Memory.lean says what that is for each memory). -/
abbrev Memory := List Host.Cell

/-- The data/command line of a panel byte transfer (30_encoding.md R103). -/
inductive DataCmd where
  | cmd
  | data
deriving DecidableEq, Repr

/-- One event of the panel stream (10_state.md R53, 43_display_transport.md R181). -/
inductive PanelEvent where
  /-- `CS_ASSERT`. -/
  | csAssert
  /-- `CS_DEASSERT`. -/
  | csDeassert
  /-- A byte transfer `(dc, b)`. -/
  | byte (dc : DataCmd) (b : BitVec 8)
deriving DecidableEq, Repr

/-- An overlay record as far as the CORE holds it (10_state.md R59, 30_encoding.md R108). -/
structure OvRecord where
  /-- The scan-line row the record belongs to. -/
  row : BitVec 16
  /-- The index of the next record of the row, or `NIL`. -/
  next : BitVec 16
deriving DecidableEq, Repr

/-- A response on the producer port (30_encoding.md R100): status 0 `OK`, 1 `REFUSED_OWN`,
2 `REFUSED_ADDR`, 3 `REFUSED_CMD`. -/
structure Response where
  status : BitVec 2
  data : BitVec 32
deriving DecidableEq, Repr

/-- The coming phase of a PUBLISH (45_producer_port.md R226, R227; 10_state.md R55 (b)). -/
inductive PublishPhase where
  | acquire
  | write
  | release
deriving DecidableEq, Repr

/-- The state of the CORE. -/
structure State where
  /-- The parameters and the resource port, written by no step (10_state.md R50; log 1). -/
  cfg : Config
  /-- `SEM` (R26): the semaphore is available. -/
  sem : Bool
  /-- `DISP_HOLDS` (R27): the display sequencer holds the semaphore, a sweep is active. -/
  dispHolds : Bool
  /-- `PROD_HOLDS` (R27): the producer holds the semaphore. -/
  prodHolds : Bool
  /-- `NEXT_VT` (R28). -/
  nextVt : BitVec 8
  /-- `NEXT_FB` (R28). -/
  nextFb : BitVec 1
  /-- `NEXT_OV` (R28). -/
  nextOv : BitVec 8
  /-- `CUR_VT` (R29). -/
  curVt : BitVec 8
  /-- `CUR_FB` (R29). -/
  curFb : BitVec 1
  /-- `CUR_OV` (R29). -/
  curOv : BitVec 8
  /-- `PAL_REQ` (R30). -/
  palReq : BitVec 8
  /-- `PAL_PENDING` (R31). -/
  palPending : Bool
  /-- `GAMMA_LEVEL` (R32). -/
  gammaLevel : BitVec 8
  /-- `SWEEP_PARITY` (R33). -/
  sweepParity : Bool
  /-- `DEADLINE` (R34). -/
  deadline : BitVec 64
  /-- `WIPE_MIN` (R35). -/
  wipeMin : BitVec 16
  /-- `HALT` (R36), which also drives the output pin (R54). -/
  halt : Bool
  /-- `FATAL_CODE` (R36). -/
  fatalCode : BitVec 3
  /-- `ERR_OWN` (R37). -/
  errOwn : Bool
  /-- `ERR_ADDR` (R37). -/
  errAddr : Bool
  /-- `ERR_CMD` (R37). -/
  errCmd : Bool
  /-- `SEQ` (R40), the program counter of the display sequencer. -/
  seq : BitVec 4
  /-- `FI` (R41), the field index. -/
  fi : BitVec 2
  /-- `LUM[0..255]` (R43). -/
  lum : List (BitVec 8)
  /-- `MINI[k][0..15]` (R44). -/
  mini : List (List (BitVec 8))
  /-- `HEAD[0..OV_ROWS-1]` (R45). -/
  head : List (BitVec 16)
  /-- `WIPE_RAW[0..WIPE_COLS-1]` (R46), two's complement. -/
  wipeRaw : List (BitVec 16)
  /-- `WIPE_OFF[0..WIPE_COLS-1]` (R47). -/
  wipeOff : List (BitVec 16)
  /-- `OV_COUNT[0..NUM_OV_SETS-1]` (R48). -/
  ovCount : List (BitVec 11)
  /-- `NOW` (R51), the time input. -/
  now : BitVec 64
  /-- `PANEL` (R53), the panel stream since reset, oldest event first. -/
  panel : List PanelEvent
  /-- `DEBUG_LOG` (R54), the fatal codes logged since reset. -/
  debugLog : List (BitVec 3)
  /-- `FB0` (R57), the bytes written since reset. -/
  fb0 : Memory
  /-- `FB1` (R57), the bytes written since reset. -/
  fb1 : Memory
  /-- `FIELD` (R58). -/
  field : Memory
  /-- `OVREC[s][i]` (R59). -/
  ovrec : List (List OvRecord)
  /-- The command word standing on the producer port, not yet completed (45_producer_port.md R220). -/
  port : Option (BitVec 32)
  /-- The coming phase of the PUBLISH in progress; `acquire` when none has passed its acquire. -/
  pubPhase : PublishPhase
  /-- The response of the command last completed (30_encoding.md R100; log 13). -/
  response : Option Response
  /-- The MODEL's own: the words the producer has yet to present, first one first (log 9). -/
  commands : List (BitVec 32)
  /-- The MODEL's own: the turns to come, first one first (log 8). -/
  turns : List Turn
  /-- The MODEL's own: the symbols of a T-format operation given to the machine as an instruction;
  empty in every run of the CORE (log 14). -/
  transport : List (BitVec 9)
  /-- The MODEL's own: which reset the unspecified memory contents belong to (log 5, log 6). -/
  powerUp : Nat
  /-- The MODEL's own: how many free turns and free commands have been taken (log 8, log 9). -/
  freeCount : Nat
deriving DecidableEq, Repr

/-- Faults: there are none. The spec's three fatal violations are next states of the machine, because
fatal entry is described and the producer port goes on after it (60_exceptions.md R250, R252; log 11).
A closed type without constructors. -/
inductive Fault
deriving DecidableEq, Repr

/-- Why a step has no meaning. Each is safe: nothing can be proved through it. -/
inductive Refusal where
  /-- Raised by `exec` for an instruction that has no meaning yet; no arm answers with it. Safe. -/
  | notModelled (mnemonic : String)
  /-- Raised by APPLYPAL when the palette addressed does not lie inside the lump
  (40_palette_engine.md R128, 93_implementation_defined.md U3: unmodelled). Safe. -/
  | lumpTooShort
  /-- Raised by INIT and PACE when a deadline would pass `2^64 - 1` (43_display_transport.md R183,
  44_scheduler.md R211, 93_implementation_defined.md U4: unmodelled). Safe. -/
  | timeOverflow
  /-- Raised by ENCODE, RUN and PACE when `FI = 3`, which never occurs (10_state.md R41,
  93_implementation_defined.md U16). Safe. -/
  | fieldIndexThree
  /-- Raised by the display sequencer's turn when `SEQ` holds a code 0xA to 0xE, which never occurs
  (30_encoding.md R102, 93_implementation_defined.md U16). Safe. -/
  | reservedCode (code : BitVec 4)
  /-- Raised when the symbols of a T-format operation are no transaction (30_encoding.md R103);
  unreachable in a run of the CORE. Safe. -/
  | malformedTransaction
deriving DecidableEq, Repr

/-- `WIPE_MIN` at reset (10_state.md R35): `WIPE_H`, or `WIPE_T + 1` where `WIPE_T >= WIPE_H`. -/
def resetWipeMin (c : Config) : BitVec 16 :=
  if c.wipeH ≤ c.wipeT then BitVec.ofNat 16 (c.wipeT + 1) else BitVec.ofNat 16 c.wipeH

/-- The overlay records after the `k`-th reset: unspecified (10_state.md R59; log 6). -/
def powerUpRecords (c : Config) (k : Nat) : List (List OvRecord) :=
  (List.range c.numOvSets).map fun os =>
    (List.range c.ovMax).map fun i => ⟨Config.powerUpRow k os i, Config.powerUpNext k os i⟩

/-- The CORE after reset (10_state.md R60) with parameters `c`, the time input at `now`, and the
unspecified memory contents those of the `k`-th reset. -/
def State.resetWith (c : Config) (now : BitVec 64) (k : Nat) : State where
  cfg := c
  sem := true
  dispHolds := false
  prodHolds := false
  nextVt := 0#8
  nextFb := 0#1
  nextOv := 0#8
  curVt := 0#8
  curFb := 0#1
  curOv := 0#8
  palReq := 0#8
  palPending := false
  gammaLevel := 0#8
  sweepParity := false
  deadline := 0#64
  wipeMin := resetWipeMin c
  halt := false
  fatalCode := 0#3
  errOwn := false
  errAddr := false
  errCmd := false
  seq := 0x0#4
  fi := 0#2
  lum := List.replicate 256 0#8
  mini := List.replicate c.patches.length (List.replicate 16 0#8)
  head := List.replicate c.ovRows 0xFFFF#16
  wipeRaw := List.replicate c.wipeCols (BitVec.ofNat 16 c.wipeH)
  wipeOff := List.replicate c.wipeCols (BitVec.ofNat 16 c.wipeH)
  ovCount := List.replicate c.numOvSets 0#11
  now := now
  panel := []
  debugLog := []
  fb0 := []
  fb1 := []
  field := []
  ovrec := powerUpRecords c k
  port := none
  pubPhase := .acquire
  response := none
  commands := []
  turns := []
  transport := []
  powerUp := k
  freeCount := 0

/-- The machine right after reset: `State.resetWith` for the parameters of log 2 and `NOW` at 0
(DESIGN CHOICE, log 7). -/
def State.reset : State := State.resetWith Config.default 0#64 0

end Sys2Proof.Machine
end

