-- ==== Sys2Proof/Machine/Memory.lean ====
section
/-! DEFINITION. The byte memories FB0, FB1 and FIELD (10_state.md R56 to R58): reading and writing
one byte, the only access size (20_memory.md R71), and the canonical form. -/

namespace Sys2Proof.Machine

/-- The byte memories of 10_state.md R56. -/
inductive Space where
  | frame (b : BitVec 1)
  | field
deriving DecidableEq, Repr

/-- What an unlisted address reads as: no byte for a frame buffer, whose content at reset is
unspecified (10_state.md R57; the read then supplies a free value, log 5); 0 for the field buffer
(R58). -/
def Space.unlisted : Space → Option (BitVec 8)
  | .frame _ => none
  | .field => some 0#8

/-- The byte listed at an address. -/
def Memory.lookup : Memory → Nat → Option (BitVec 8)
  | [], _ => none
  | (k, v) :: rest, a => if k = a then some v else Memory.lookup rest a

/-- The byte at an address, where an unlisted one reads as `u`. -/
def Memory.read (u : Option (BitVec 8)) (m : Memory) (a : Nat) : Option (BitVec 8) :=
  match Memory.lookup m a with
  | some v => some v
  | none => u

/-- List byte `v` at address `a`, in order. -/
def Memory.insert : Memory → Nat → BitVec 8 → Memory
  | [], a, v => [(a, v)]
  | (k, w) :: rest, a, v =>
    if a < k then (a, v) :: (k, w) :: rest
    else if a = k then (a, v) :: rest
    else (k, w) :: Memory.insert rest a v

/-- Unlist address `a`. -/
def Memory.erase : Memory → Nat → Memory
  | [], _ => []
  | (k, w) :: rest, a => if k = a then rest else (k, w) :: Memory.erase rest a

/-- Write byte `v` at address `a` of a memory whose unlisted addresses read as `u`. -/
def Memory.write (u : Option (BitVec 8)) (m : Memory) (a : Nat) (v : BitVec 8) : Memory :=
  if u = some v then Memory.erase m a else Memory.insert m a v

/-- The memory whose bytes below `n` are those of `f`, the other addresses unlisted. -/
def Memory.fill (u : Option (BitVec 8)) (n : Nat) (f : Nat → BitVec 8) : Memory :=
  (List.range n).filterMap fun k => if u = some (f k) then none else some (k, f k)

/-- The addresses rise strictly. -/
def Memory.rising : Memory → Bool
  | [] => true
  | [_] => true
  | (k, _) :: (k', w) :: rest => k < k' && Memory.rising ((k', w) :: rest)

/-- The canonical form of a memory of `n` bytes: addresses strictly rising and below `n`, no entry
equal to what an unlisted address reads as. -/
def Memory.wf (u : Option (BitVec 8)) (n : Nat) (m : Memory) : Bool :=
  Memory.rising m && m.all fun c => c.1 < n && u != some c.2

end Sys2Proof.Machine
end

