-- ==== Sys2Proof/Machine/Operands.lean ====
section
/-! DEFINITION. Operand forms: the sizes derived from the parameters (00_scope.md R8 to R12), the
effective addresses of 20_memory.md R80, reading a frame byte and a table entry, the range checks of
20_memory.md R72 and the ownership predicates of R75 and R77. -/

namespace Sys2Proof

/-! ## Derived sizes (00_scope.md R8, R9) -/

/-- `DISP_W = SRC_W / SS`. -/
def Config.dispW (c : Config) : Nat := c.srcW / c.ss
/-- `DISP_H = SRC_H / SS`. -/
def Config.dispH (c : Config) : Nat := c.srcH / c.ss
/-- `PAGES = ceil(DISP_H / 8)`. -/
def Config.pages (c : Config) : Nat := (c.dispH + 7) / 8
/-- `FIELD_LEN = DISP_W * PAGES`. -/
def Config.fieldLen (c : Config) : Nat := c.dispW * c.pages
/-- `FB_LEN = SRC_W * SRC_H`. -/
def Config.fbLen (c : Config) : Nat := c.srcW * c.srcH
/-- `NGAMMA`. -/
def Config.nGamma (c : Config) : Nat := c.gammaTables.length
/-- `PAL_N`. -/
def Config.palN (c : Config) : Nat := c.fade.length
/-- `NUM_SHARED`. -/
def Config.numShared (c : Config) : Nat := c.patches.length
/-- `LUMP_LEN`. -/
def Config.lumpLen (c : Config) : Nat := c.lump.length
/-- `PAL_LUMP_LEN`, the expected fixed size of the palette lump (00_scope.md R9). -/
def palLumpLen : Nat := 768
/-- `VT_SAVING` (00_scope.md R15). -/
def vtSaving : BitVec 8 := 0x01#8
/-- `NIL`, the link that ends a chain (00_scope.md R11). -/
def ovNil : BitVec 16 := 0xFFFF#16

/-- `FIELD_SEQ[f]` (00_scope.md R13); `f` is below 3. -/
def Config.fieldSeq (c : Config) (f : BitVec 2) : List (BitVec 8) :=
  if f = 0#2 then c.fieldSeq0 else if f = 1#2 then c.fieldSeq1 else c.fieldSeq2

namespace Machine

/-! ## Effective addresses (20_memory.md R80) -/

/-- The address of pixel `(x, y)` of a frame buffer, row-major from the top left. -/
def pixelAddr (c : Config) (x y : Nat) : Nat := y * c.srcW + x

/-- The field-buffer byte of panel row `p`, column `x`. -/
def fieldAddr (c : Config) (p x : Nat) : Nat := p / 8 * c.dispW + x

/-- The lump byte of component `comp` (0 red, 1 green, 2 blue) of entry `i` of the palette at byte
offset `off`. -/
def lumpAddr (off i comp : Nat) : Nat := off + 3 * i + comp

/-! ## Reading -/

/-- The bytes of `FB[b]` written since reset (10_state.md R57). -/
def State.frameMem (s : State) (b : BitVec 1) : Memory := if b = 0#1 then s.fb0 else s.fb1

/-- `MemRead(FB[b], a, 1)`: the byte written last, else the free value of the reset content. -/
def State.readFrame (s : State) (b : BitVec 1) (a : Nat) : BitVec 8 :=
  (Memory.read (Space.unlisted (.frame b)) (s.frameMem b) a).getD
    (Config.powerUpByte s.powerUp b a)

/-- `MemRead(FIELD, k, 1)`. -/
def State.readField (s : State) (k : Nat) : BitVec 8 :=
  (Memory.read (Space.unlisted .field) s.field k).getD 0#8

/-- `LUM[i]` (10_state.md R43). -/
def State.readLum (s : State) (i : BitVec 8) : BitVec 8 := s.lum.getD i.toNat 0#8

/-- `GAMMA[g][v]` (00_scope.md R9). -/
def gammaEntry (c : Config) (g v : BitVec 8) : BitVec 8 :=
  (c.gammaTables.getD g.toNat []).getD v.toNat 0#8

/-- `FADE[id]`, `id` from 1 (00_scope.md R9). -/
def fadeEntry (c : Config) (id : Nat) : FadeRecord := c.fade.getD (id - 1) ⟨0, 0, 0, 0⟩

/-- `MemRead(LUMP, a, 1)`. -/
def readLump (c : Config) (a : Nat) : BitVec 8 := c.lump.getD a 0#8

/-- `OV_COUNT[s]` (10_state.md R48). -/
def State.ovCountOf (s : State) (os : Nat) : Nat := (s.ovCount.getD os 0#11).toNat

/-- The records of overlay set `os` (10_state.md R59). -/
def State.ovSet (s : State) (os : Nat) : List OvRecord := s.ovrec.getD os []

/-! ## Range checks (20_memory.md R72, 60_exceptions.md R257, R258) -/

/-- `a >= FB_LEN`. -/
def pixelOutOfRange (c : Config) (a : BitVec 19) : Bool := c.fbLen ≤ a.toNat
/-- `s >= NUM_OV_SETS`. -/
def setOutOfRange (c : Config) (os : BitVec 2) : Bool := c.numOvSets ≤ os.toNat
/-- `i >= OV_MAX`. -/
def recordOutOfRange (c : Config) (i : BitVec 10) : Bool := c.ovMax ≤ i.toNat
/-- `n > OV_MAX`. -/
def countOutOfRange (c : Config) (n : BitVec 11) : Bool := c.ovMax < n.toNat
/-- `x >= WIPE_COLS`. -/
def columnOutOfRange (c : Config) (x : BitVec 12) : Bool := c.wipeCols ≤ x.toNat
/-- `sext(raw) > WIPE_H`. -/
def rawOutOfRange (c : Config) (raw : BitVec 16) : Bool := (c.wipeH : Int) < raw.toInt
/-- `id > PAL_N`. -/
def paletteOutOfRange (c : Config) (id : BitVec 8) : Bool := c.palN < id.toNat
/-- `g >= NGAMMA`. -/
def gammaOutOfRange (c : Config) (g : BitVec 8) : Bool := c.nGamma ≤ g.toNat
/-- `ov >= NUM_OV_SETS`. -/
def publishOutOfRange (c : Config) (ov : BitVec 8) : Bool := c.numOvSets ≤ ov.toNat

/-! ## Ownership (20_memory.md R75, R77) -/

/-- The display sequencer owns `FB[b]`: `DISP_HOLDS = 1` and `b = CUR_FB`. -/
def State.ownsFrame (s : State) (b : BitVec 1) : Bool := s.dispHolds && b == s.curFb

/-- The display sequencer owns overlay set `os`: `DISP_HOLDS = 1` and `s = CUR_OV`. -/
def State.ownsSet (s : State) (os : BitVec 2) : Bool := s.dispHolds && os.toNat == s.curOv.toNat

end Machine

end Sys2Proof
end

