-- ==== Sys2Proof/Machine/Flags.lean ====
section
/-! DEFINITION. The one-bit state a command reports through: the sticky error flags
(10_state.md R37, 60_exceptions.md R255 to R258) and the STATUS word (30_encoding.md R101). No
arithmetic of the CORE sets a flag (10_state.md R49). -/

namespace Sys2Proof.Machine

/-- The three refusals of 60_exceptions.md R256 to R258. -/
inductive ErrKind where
  | own
  | addr
  | cmd
deriving DecidableEq, Repr

/-- The response status of a refusal (30_encoding.md R100). -/
def ErrKind.status : ErrKind → BitVec 2
  | .own => 1#2
  | .addr => 2#2
  | .cmd => 3#2

/-- Set the sticky flag of a refusal (60_exceptions.md R255). -/
def State.setErr (s : State) : ErrKind → State
  | .own => { s with errOwn := true }
  | .addr => { s with errAddr := true }
  | .cmd => { s with errCmd := true }

/-- The `STATUS` word (30_encoding.md R101), highest bits first: zero, `PAL_REQ`, `PAL_PENDING`,
`SWEEP_PARITY`, `FI`, `SEQ`, `SEM`, `ERR_CMD`, `ERR_ADDR`, `ERR_OWN`, `FATAL_CODE`, `HALT`. -/
def State.status (s : State) : BitVec 32 :=
  0#8 ++ s.palReq ++ BitVec.ofBool s.palPending ++ BitVec.ofBool s.sweepParity ++ s.fi ++ s.seq
    ++ BitVec.ofBool s.sem ++ BitVec.ofBool s.errCmd ++ BitVec.ofBool s.errAddr
    ++ BitVec.ofBool s.errOwn ++ s.fatalCode ++ BitVec.ofBool s.halt

/-- The `HALT` output pin equals the `HALT` bit (10_state.md R54, 60_exceptions.md R251). -/
def State.haltPin (s : State) : Bool := s.halt

end Sys2Proof.Machine
end

