-- ==== Sys2Proof/Machine/Ops.lean ====
section
/-! DEFINITION. The operations that instructions share: completing and refusing a command
(30_encoding.md R100, 60_exceptions.md R255), fatal entry (R250), the semaphore (20_memory.md R83),
writing a frame byte, and the panel transactions (43_display_transport.md R181, R182). -/

namespace Sys2Proof.Machine

/-! ## Completing a producer command -/

/-- `respond(status, data)`: the command completes, its response is returned and the port is free for
the next word (45_producer_port.md R220). -/
def State.respond (s : State) (status : BitVec 2) (data : BitVec 32) : State :=
  { s with response := some ⟨status, data⟩, port := none }

/-- `refuse(ERR_x)`: the sticky flag is set, the matching status is returned with data 0, nothing else
changes (60_exceptions.md R255). -/
def State.refuse (s : State) (e : ErrKind) : State := (s.setErr e).respond e.status 0#32

/-! ## Fatal entry, the trap entry of this hardware (60_exceptions.md R246, R250) -/

/-- The fatal causes of 60_exceptions.md R246. -/
inductive FatalCause where
  /-- `F_OVERLAY_ROW`. -/
  | overlayRow
  /-- `F_PATCH`. -/
  | patch
  /-- `F_WIPE_MIN`. -/
  | wipeMin
deriving DecidableEq, Repr

/-- The codes of 30_encoding.md R110. -/
def FatalCause.code : FatalCause → BitVec 3
  | .overlayRow => 1#3
  | .patch => 2#3
  | .wipeMin => 3#3

/-- `SEQ <- c`. -/
def State.setSeq (s : State) (c : BitVec 4) : State := { s with seq := c }

/-- `Fatal(code)` (60_exceptions.md R250): one record in the debug log, the code, `HALT`, and `S_HALT`.
Nothing is saved and nothing returns from it; the way out is reset (R252). -/
def State.fatal (s : State) (f : FatalCause) : State :=
  { s with debugLog := s.debugLog ++ [f.code], fatalCode := f.code, halt := true, seq := seqHalt }

/-- What a micro-operation that can raise a fatal leaves: the state it has written and the fatal it
raised, or no meaning. -/
abbrev MicroResult := Except Refusal (State × Option FatalCause)

/-- The end of a sweep-start step (44_scheduler.md R201, R204 to R206): the successor in `SEQ` unless
a fatal was raised, fatal entry if one was. -/
def finishStep (succ : BitVec 4) : MicroResult → Host.Outcome State Fault Refusal
  | .ok (s, none) => .next (s.setSeq succ)
  | .ok (s, some f) => .next (s.fatal f)
  | .error r => .refused r

/-- A sweep-start step: the micro-operation unless `CUR_VT = VT_SAVING` (44_scheduler.md R204 to
R206). -/
def sweepStartStep (op : State → MicroResult) (succ : BitVec 4) (s : State) :
    Host.Outcome State Fault Refusal :=
  if s.curVt = vtSaving then .next (s.setSeq succ) else finishStep succ (op s)

/-! ## The semaphore (20_memory.md R83) -/

/-- Acquire by the display sequencer: `SEM <- 0`, `DISP_HOLDS <- 1`. -/
def State.acquireDisplay (s : State) : State := { s with sem := false, dispHolds := true }

/-- Release by the display sequencer: `SEM <- 1`, `DISP_HOLDS <- 0`. -/
def State.releaseDisplay (s : State) : State := { s with sem := true, dispHolds := false }

/-- Acquire by the producer: `SEM <- 0`, `PROD_HOLDS <- 1`. -/
def State.acquireProducer (s : State) : State := { s with sem := false, prodHolds := true }

/-- Release by the producer: `SEM <- 1`, `PROD_HOLDS <- 0`. -/
def State.releaseProducer (s : State) : State := { s with sem := true, prodHolds := false }

/-! ## Memory writes -/

/-- `MemWrite(FB[b], a, 1, d)` (20_memory.md R71). -/
def State.writeFrame (s : State) (b : BitVec 1) (a : Nat) (d : BitVec 8) : State :=
  if b = 0#1 then { s with fb0 := Memory.write (Space.unlisted (.frame b)) s.fb0 a d }
  else { s with fb1 := Memory.write (Space.unlisted (.frame b)) s.fb1 a d }

/-- `MemWrite(FIELD, k, 1, f k)` for every `k < FIELD_LEN` (42_bitplane_encoder.md R171). -/
def State.writeField (s : State) (f : Nat → BitVec 8) : State :=
  { s with field := Memory.fill (Space.unlisted .field) s.cfg.fieldLen f }

/-- The whole field buffer in ascending byte index (20_memory.md R71 (c)). -/
def State.fieldBytes (s : State) : List (BitVec 8) :=
  (List.range s.cfg.fieldLen).map s.readField

/-! ## Panel transactions (43_display_transport.md R181, R182) -/

/-- Append events to `PANEL`. -/
def State.emit (s : State) (events : List PanelEvent) : State :=
  { s with panel := s.panel ++ events }

/-- One chip-select frame around byte transfers that all have the data/command line at `dc`
(30_encoding.md R103). -/
def transactionEvents (dc : DataCmd) (bytes : List (BitVec 8)) : List PanelEvent :=
  .csAssert :: (bytes.map (PanelEvent.byte dc) ++ [.csDeassert])

/-- `TXCMD(seq)`: nothing for an empty list, otherwise one frame of command bytes. -/
def State.txCmd (s : State) (seq : List (BitVec 8)) : State :=
  if seq.isEmpty then s else s.emit (transactionEvents .cmd seq)

/-- `TXDATA(buf)`: one frame of data bytes. -/
def State.txData (s : State) (buf : List (BitVec 8)) : State :=
  s.emit (transactionEvents .data buf)

/-! ## Time -/

/-- `t + FIELD_PERIOD` in 64 bits, or nothing where it would pass `2^64 - 1`
(93_implementation_defined.md U4). -/
def addPeriod (c : Config) (t : BitVec 64) : Option (BitVec 64) :=
  if t.toNat + c.fieldPeriod < 2 ^ 64 then some (BitVec.ofNat 64 (t.toNat + c.fieldPeriod)) else none

/-- The time agent's step (10_state.md R51): `NOW` takes a larger value, and never a smaller one. -/
def State.advanceTime (s : State) (t : BitVec 64) : State :=
  if s.now.toNat < t.toNat then { s with now := t } else s

/-- The reset input (70_reset_and_hazards.md R275): every register at its reset value, the unspecified
contents those of a new power-up; the parameters, the time input and what stands outside the CORE stay
(log 16). -/
def State.pulseReset (s : State) : State :=
  { State.resetWith s.cfg s.now (s.powerUp + 1) with
    commands := s.commands, turns := s.turns, freeCount := s.freeCount }

end Sys2Proof.Machine
end

