-- ==== Sys2Proof/Machine/Encoder.lean ====
section
/-! DEFINITION. The field/bitplane encoder (42_bitplane_encoder.md R160 to R174): ENCODE. Each byte of
the new field buffer is gathered from its eight pixels; the pseudocode's scatter loop sets the same
bits (log 18). -/

namespace Sys2Proof.Machine

/-- The luminance of one source pixel: `LUM[MemRead(FB[CUR_FB], y * SRC_W + x, 1)]`
(42_bitplane_encoder.md R162). -/
def State.pixelLum (s : State) (x y : Nat) : Nat :=
  (s.readLum (s.readFrame s.curFb (pixelAddr s.cfg x y))).toNat

/-- `sample(x, y)`: the average luminance of the block of source pixels of an output pixel, rounding
down (42_bitplane_encoder.md R162, R163). -/
def State.sample (s : State) (x y : Nat) : Nat :=
  (((List.range s.cfg.ss).map fun j =>
    ((List.range s.cfg.ss).map fun i =>
      s.pixelLum (x * s.cfg.ss + i) (y * s.cfg.ss + j)).sum).sum) / (s.cfg.ss * s.cfg.ss)

/-- The dither bit of output pixel `(x, y)` (42_bitplane_encoder.md R165). -/
def ditherBit (parity : Bool) (x y : Nat) : Nat := (x + y + parity.toNat) % 2

/-- The level of a luminance with its dither bit (42_bitplane_encoder.md R164, R166). -/
def pixelLevel (l d : Nat) : Nat := min 7 (l / 2 ^ 5 + d)

/-- The field bit: bit `2 - f` of the level (42_bitplane_encoder.md R167). -/
def fieldBit (lvl f : Nat) : Bool := (lvl >>> (2 - f)) % 2 == 1

/-- Output pixel `(x, y)` is on in field `f` (42_bitplane_encoder.md R161). -/
def State.pixelOn (s : State) (f x y : Nat) : Bool :=
  fieldBit (pixelLevel (s.sample x y) (ditherBit s.sweepParity x y)) f

/-- Panel row `p`, column `x` is on: the output row is `DISP_H - 1 - p`, and a row at or beyond
`DISP_H` stands for no pixel (42_bitplane_encoder.md R169, R170). -/
def State.panelOn (s : State) (f p x : Nat) : Bool :=
  decide (p < s.cfg.dispH) && s.pixelOn f x (s.cfg.dispH - 1 - p)

/-- Byte `k` of the new field buffer: bit `j` is panel row `8 * page + j` (42_bitplane_encoder.md
R168, 30_encoding.md R106, R107). -/
def State.bitplaneByte (s : State) (f k : Nat) : BitVec 8 :=
  (List.range 8).foldl
    (fun acc j =>
      acc ||| (if s.panelOn f (8 * (k / s.cfg.dispW) + j) (k % s.cfg.dispW) then 1#8 <<< j else 0#8))
    0#8

/-- ENCODE (42_bitplane_encoder.md R161), the `S_ENCODE` step (44_scheduler.md R207). -/
def execEncode (s : State) : Host.Outcome State Fault Refusal :=
  if s.fi = 3#2 then .refused .fieldIndexThree
  else .next ((s.writeField (s.bitplaneByte s.fi.toNat)).setSeq seqPark)

end Sys2Proof.Machine
end

