-- ==== Sys2Proof/Machine/Overlay.lean ====
section
/-! DEFINITION. The overlay/wipe preprocessor (41_overlay_wipe.md R145 to R155): REBUILDOV and
ADVWIPE. -/

namespace Sys2Proof.Machine

/-! ## REBUILDOV -/

/-- Link record `i` of row `r` at the head of its row's chain (41_overlay_wipe.md R146). -/
def linkRecord (head : List (BitVec 16)) (recs : List OvRecord) (i r : Nat) :
    List (BitVec 16) × List OvRecord :=
  (head.set r (BitVec.ofNat 16 i), recs.modify i (fun rec => { rec with next := head.getD r ovNil }))

/-- The scan of records `n - 1` down to 0, up to the first whose row has no head, which raises
`F_OVERLAY_ROW` (41_overlay_wipe.md R146, R148). -/
def linkDown (rows : Nat) : Nat → List (BitVec 16) → List OvRecord →
    (List (BitVec 16) × List OvRecord) × Option FatalCause
  | 0, head, recs => ((head, recs), none)
  | i + 1, head, recs =>
    let r := (recs.getD i ⟨0#16, ovNil⟩).row.toNat
    if rows ≤ r then ((head, recs), some .overlayRow)
    else linkDown rows i (linkRecord head recs i r).1 (linkRecord head recs i r).2

/-- REBUILDOV (41_overlay_wipe.md R146): the heads are cleared, then the current set is scanned in
reverse order. -/
def rebuildOverlays (s : State) : MicroResult :=
  let set := s.curOv.toNat
  let out := linkDown s.cfg.ovRows (s.ovCountOf set) (List.replicate s.cfg.ovRows ovNil)
    (s.ovSet set)
  .ok ({ s with head := out.1.1, ovrec := s.ovrec.set set out.1.2 }, out.2)

/-- The `S_OVL` step: REBUILDOV unless the video type is saving (44_scheduler.md R205; log 22). -/
def execRebuildov (s : State) : Host.Outcome State Fault Refusal :=
  sweepStartStep rebuildOverlays seqWipe s

/-! ## ADVWIPE -/

/-- `wstep(r)` (41_overlay_wipe.md R151; the law and the default cap are PRESUMED, log 3). -/
def wipeStep (c : Config) (r : Int) : Int := min (r + 1) c.wipeStepCap

/-- One column of ADVWIPE: the new raw offset and the display offset (41_overlay_wipe.md R150). -/
def advanceColumn (c : Config) (parity : Bool) (raw : BitVec 16) : BitVec 16 × BitVec 16 :=
  let r := raw.toInt
  if r < 0 then (BitVec.ofInt 16 (if parity then r else r + 1), 0#16)
  else
    let step := if (c.wipeH : Int) < r + wipeStep c r then c.wipeH - r else wipeStep c r
    (BitVec.ofInt 16 (r + step), BitVec.ofInt 16 (r + step))

/-- The least display offset, from the starting value 0xFFFF (41_overlay_wipe.md R150). -/
def minOffset (offs : List (BitVec 16)) : Nat :=
  offs.foldl (fun m off => min m off.toNat) 0xFFFF

/-- ADVWIPE (41_overlay_wipe.md R150, R152). -/
def advanceWipe (s : State) : MicroResult :=
  if s.cfg.wipeT < s.wipeMin.toNat then .ok (s, none)
  else
    let cols := s.wipeRaw.map (advanceColumn s.cfg s.sweepParity)
    let s1 : State := { s with wipeRaw := cols.map Prod.fst, wipeOff := cols.map Prod.snd }
    let newMin := minOffset s1.wipeOff
    if newMin < s.wipeMin.toNat then .ok (s1, some .wipeMin)
    else .ok ({ s1 with wipeMin := BitVec.ofNat 16 newMin }, none)

/-- The `S_WIPE` step: ADVWIPE unless the video type is saving (44_scheduler.md R206; log 22). -/
def execAdvwipe (s : State) : Host.Outcome State Fault Refusal :=
  sweepStartStep advanceWipe seqEncode s

end Sys2Proof.Machine
end

