-- ==== Sys2Proof/Machine/Palette.lean ====
section
/-! DEFINITION. The palette engine (40_palette_engine.md R125 to R139): APPLYPAL. Arithmetic is on
exact integers and narrowed once, at the store (R138). -/

namespace Sys2Proof.Machine

/-- `gam(v)` (40_palette_engine.md R129). -/
def gam (c : Config) (level v : BitVec 8) : BitVec 8 :=
  if c.gammaEn then gammaEntry c level v else v

/-- `x >>a n`: rounding toward minus infinity (00_scope.md R17). -/
def asr (x : Int) (n : Nat) : Int := x / 2 ^ n

/-- `blend(c, t, mul)` (40_palette_engine.md R130). -/
def blend (c t mul : Int) : Int := c + asr ((t - c) * mul) 16

/-- `lum(r, g, b)` (40_palette_engine.md R133). -/
def luminance (c : Config) (r g b : Int) : BitVec 8 :=
  BitVec.ofInt 8 (min 255 (asr (c.lumWr * r + c.lumWg * g + c.lumWb * b) c.lumShift))

/-- The direct mode is taken (40_palette_engine.md R127). -/
def directMode (c : Config) (id : BitVec 8) : Bool := id == 0#8 || c.lumpLen != palLumpLen

/-- The byte offset of the palette that is read (40_palette_engine.md R128). -/
def paletteOffset (c : Config) (id : BitVec 8) : Nat :=
  if directMode c id then palLumpLen * id.toNat else 0

/-- Component `comp` of entry `i` after the gamma remap (40_palette_engine.md R126, R129). -/
def baseComponent (c : Config) (level id : BitVec 8) (i comp : Nat) : Int :=
  (gam c level (readLump c (lumpAddr (paletteOffset c id) i comp))).toNat

/-- A component after the fade of a special palette, unchanged in direct mode
(40_palette_engine.md R126, R130). -/
def fadedComponent (c : Config) (id : BitVec 8) (base : Int) (tint : FadeRecord → Nat) : Int :=
  if directMode c id then base
  else blend base (tint (fadeEntry c id.toNat)) (fadeEntry c id.toNat).mul

/-- The new `LUM[i]` (40_palette_engine.md R126). -/
def newLum (c : Config) (level id : BitVec 8) (i : Nat) : BitVec 8 :=
  luminance c
    (fadedComponent c id (baseComponent c level id i 0) FadeRecord.tintR)
    (fadedComponent c id (baseComponent c level id i 1) FadeRecord.tintG)
    (fadedComponent c id (baseComponent c level id i 2) FadeRecord.tintB)

/-- A patch is valid (30_encoding.md R109). -/
def patchValid (p : Patch) : Bool := p.depth == 4#8 && p.flat && p.hasPal

/-- One mini-palette: `LUM[PATCH[k].pal[j]]` for `j` from 0 to 15 (40_palette_engine.md R135). -/
def miniOf (s : State) (p : Patch) : List (BitVec 8) :=
  (List.range 16).map fun j => s.readLum (p.pal.getD j 0#8)

/-- The mini-palettes in ascending `k`, up to the first patch that is not valid, which raises
`F_PATCH`; the tables from there on keep their values (40_palette_engine.md R134 to R136). -/
def miniLoop (s : State) : List Patch → List (List (BitVec 8)) →
    List (List (BitVec 8)) × Option FatalCause
  | [], mini => (mini, none)
  | p :: ps, mini =>
    if patchValid p then
      (miniOf s p :: (miniLoop s ps mini.tail).1, (miniLoop s ps mini.tail).2)
    else (mini, some .patch)

/-- APPLYPAL (40_palette_engine.md R126). -/
def applyPalette (s : State) : MicroResult :=
  if s.palPending then
    if s.cfg.lumpLen < paletteOffset s.cfg s.palReq + palLumpLen then .error .lumpTooShort
    else
      let s1 : State := { s with
        palPending := false,
        lum := (List.range 256).map (newLum s.cfg s.gammaLevel s.palReq) }
      .ok ({ s1 with mini := (miniLoop s1 s.cfg.patches s.mini).1 },
        (miniLoop s1 s.cfg.patches s.mini).2)
  else .ok (s, none)

/-- The `S_PAL` step: APPLYPAL unless the video type is saving (44_scheduler.md R204; log 22). -/
def execApplypal (s : State) : Host.Outcome State Fault Refusal :=
  sweepStartStep applyPalette seqOvl s

end Sys2Proof.Machine
end

