-- ==== Sys2Proof/Machine/Producer.lean ====
section
/-! DEFINITION. The ten producer commands (45_producer_port.md R222 to R232). Checks stand in the
order of R221: operand range in the order of the pseudocode, then ownership. -/

namespace Sys2Proof.Machine

/-- PXW b, a, d (45_producer_port.md R222). -/
def execPxw (b : BitVec 1) (a : BitVec 19) (d : BitVec 8) (s : State) :
    Host.Outcome State Fault Refusal :=
  if pixelOutOfRange s.cfg a then .next (s.refuse .addr)
  else if s.ownsFrame b then .next (s.refuse .own)
  else .next ((s.writeFrame b a.toNat d).respond 0#2 0#32)

/-- PXR b, a (45_producer_port.md R223). -/
def execPxr (b : BitVec 1) (a : BitVec 19) (s : State) : Host.Outcome State Fault Refusal :=
  if pixelOutOfRange s.cfg a then .next (s.refuse .addr)
  else if s.ownsFrame b then .next (s.refuse .own)
  else .next (s.respond 0#2 ((s.readFrame b a.toNat).setWidth 32))

/-- PALREQ id (45_producer_port.md R224). -/
def execPalreq (id : BitVec 8) (s : State) : Host.Outcome State Fault Refusal :=
  if paletteOutOfRange s.cfg id then .next (s.refuse .cmd)
  else .next (({ s with palReq := id, palPending := true } : State).respond 0#2 0#32)

/-- GAMMA g (45_producer_port.md R225). -/
def execGamma (g : BitVec 8) (s : State) : Host.Outcome State Fault Refusal :=
  if gammaOutOfRange s.cfg g then .next (s.refuse .cmd)
  else .next (({ s with gammaLevel := g } : State).respond 0#2 0#32)

/-- PUBLISH vt, ov, fb (45_producer_port.md R226, R227): one of its three phases. In phase 1 the
operand is checked before the acquire, and while `SEM = 0` the command is held: it stays on the port
and nothing changes (log 10). -/
def execPublish (vt ov : BitVec 8) (fb : BitVec 1) (s : State) :
    Host.Outcome State Fault Refusal :=
  match s.pubPhase with
  | .acquire =>
    if publishOutOfRange s.cfg ov then .next (s.refuse .cmd)
    else if s.sem then .next { s.acquireProducer with pubPhase := .write }
    else .next s
  | .write => .next { s with nextVt := vt, nextFb := fb, nextOv := ov, pubPhase := .release }
  | .release => .next (({ s.releaseProducer with pubPhase := .acquire } : State).respond 0#2 0#32)

/-- OVW s, i, row (45_producer_port.md R228). -/
def execOvw (os : BitVec 2) (i : BitVec 10) (row : BitVec 16) (s : State) :
    Host.Outcome State Fault Refusal :=
  if setOutOfRange s.cfg os then .next (s.refuse .addr)
  else if recordOutOfRange s.cfg i then .next (s.refuse .addr)
  else if s.ownsSet os then .next (s.refuse .own)
  else
    .next (({ s with
      ovrec := s.ovrec.modify os.toNat (fun recs =>
        recs.modify i.toNat (fun r => { r with row := row })) } : State).respond 0#2 0#32)

/-- OVN s, n (45_producer_port.md R229). -/
def execOvn (os : BitVec 2) (n : BitVec 11) (s : State) : Host.Outcome State Fault Refusal :=
  if setOutOfRange s.cfg os then .next (s.refuse .addr)
  else if countOutOfRange s.cfg n then .next (s.refuse .addr)
  else if s.ownsSet os then .next (s.refuse .own)
  else .next (({ s with ovCount := s.ovCount.set os.toNat n } : State).respond 0#2 0#32)

/-- WIPEW x, raw (45_producer_port.md R230). -/
def execWipew (x : BitVec 12) (raw : BitVec 16) (s : State) : Host.Outcome State Fault Refusal :=
  if columnOutOfRange s.cfg x then .next (s.refuse .addr)
  else if rawOutOfRange s.cfg raw then .next (s.refuse .cmd)
  else .next (({ s with wipeRaw := s.wipeRaw.set x.toNat raw } : State).respond 0#2 0#32)

/-- WIPEMIN m (45_producer_port.md R231). -/
def execWipemin (m : BitVec 16) (s : State) : Host.Outcome State Fault Refusal :=
  .next (({ s with wipeMin := m } : State).respond 0#2 0#32)

/-- RDSTAT (45_producer_port.md R232). -/
def execRdstat (s : State) : Host.Outcome State Fault Refusal :=
  .next (s.respond 0#2 s.status)

end Sys2Proof.Machine
end

