-- ==== Sys2Proof/Machine/Scheduler.lean ====
section
/-! DEFINITION. The synchronization/scheduler (44_scheduler.md R200 to R218): WAITSYNC, RELEASE, PACE
and HALT. A step that is not enabled leaves the state as it is: the agent is held (log 10). -/

namespace Sys2Proof.Machine

/-- WAITSYNC (44_scheduler.md R202, R203): held until `SEM = 1`; the acquire and the snapshot are one
step. -/
def execWaitsync (s : State) : Host.Outcome State Fault Refusal :=
  if s.sem then
    .next (({ s.acquireDisplay with
      curVt := s.nextVt, curFb := s.nextFb, curOv := s.nextOv } : State).setSeq seqPal)
  else .next s

/-- RELEASE (44_scheduler.md R210). -/
def execRelease (s : State) : Host.Outcome State Fault Refusal :=
  .next (({ s.releaseDisplay with sweepParity := !s.sweepParity } : State).setSeq seqPace)

/-- `(FI + 1) mod 3` (44_scheduler.md R211). -/
def nextField (fi : BitVec 2) : BitVec 2 := BitVec.ofNat 2 ((fi.toNat + 1) % 3)

/-- PACE (44_scheduler.md R211): held until `NOW >= DEADLINE`. -/
def execPace (s : State) : Host.Outcome State Fault Refusal :=
  if s.now.toNat < s.deadline.toNat then .next s
  else if s.fi = 3#2 then .refused .fieldIndexThree
  else
    match addPeriod s.cfg s.deadline with
    | none => .refused .timeOverflow
    | some t =>
      .next (({ s with deadline := t, fi := nextField s.fi } : State).setSeq
        (if nextField s.fi = 0#2 then seqWaitsync else seqEncode))

/-- HALT (44_scheduler.md R212): in `S_HALT` the display sequencer has no step and no state is
written (log 11). -/
def execHalt (s : State) : Host.Outcome State Fault Refusal :=
  .next s

end Sys2Proof.Machine
end

