-- ==== Sys2Proof/Machine/Transport.lean ====
section
/-! DEFINITION. The display transport (43_display_transport.md R180 to R191): INIT, PARK, RUN and the
two panel transactions, and the serial form of a panel event. -/

namespace Sys2Proof.Machine

/-- INIT (43_display_transport.md R183), the `S_INIT` step (44_scheduler.md R216). -/
def execInit (s : State) : Host.Outcome State Fault Refusal :=
  match addPeriod s.cfg s.now with
  | none => .refused .timeOverflow
  | some t =>
    .next (({ s.txCmd s.cfg.initSeq with deadline := t, fi := 0#2 } : State).setSeq seqWaitsync)

/-- PARK (43_display_transport.md R185), the `S_PARK` step. -/
def execPark (s : State) : Host.Outcome State Fault Refusal :=
  .next ((s.txCmd s.cfg.parkSeq).setSeq seqRun)

/-- RUN (43_display_transport.md R186), the `S_RUN` step. -/
def execRun (s : State) : Host.Outcome State Fault Refusal :=
  if s.fi = 3#2 then .refused .fieldIndexThree
  else
    .next (((s.txCmd (s.cfg.fieldSeq s.fi)).txData s.fieldBytes).setSeq
      (if s.fi = 2#2 then seqRelease else seqPace))

/-- TXCMD(seq) as an operation of its own (43_display_transport.md R182). -/
def execTxcmd (seq : List (BitVec 8)) (s : State) : Host.Outcome State Fault Refusal :=
  .next (s.txCmd seq)

/-- TXDATA(buf) as an operation of its own (43_display_transport.md R182). -/
def execTxdata (buf : List (BitVec 8)) (s : State) : Host.Outcome State Fault Refusal :=
  .next (s.txData buf)

/-! ## The serial form (30_encoding.md R104, 43_display_transport.md R189)

A view of `PANEL` as the levels of the four output lines of R180, one entry for each moment at which
they are set; no rule reads it. How long an entry lasts is timing, and where R104 fixes no level of the
data/command or the serial data line the entry holds none (log 19). -/

/-- The levels of the panel port's lines, true for high (43_display_transport.md R180). -/
structure LineLevels where
  /-- Chip select `CS`, active low. -/
  cs : Bool
  /-- Data/command `DC`, or none where R104 fixes no level. -/
  dc : Option Bool
  /-- Serial clock `SCK`. -/
  sck : Bool
  /-- Serial data `SDO`, or none where R104 fixes no level. -/
  sdo : Option Bool
deriving DecidableEq, Repr

/-- The level of the data/command line: low for `CMD`, high for `DATA` (30_encoding.md R104). -/
def DataCmd.level : DataCmd → Bool
  | .cmd => false
  | .data => true

/-- No clock pulse: the clock is at its idle level, low (30_encoding.md R104). -/
def clockIdle (cs : Bool) (dc : Option Bool) : LineLevels := ⟨cs, dc, false, none⟩

/-- One clock pulse inside a frame: the bit stands on the data line before and at the rising edge
(30_encoding.md R104). -/
def clockPulse (dc bit : Bool) : List LineLevels :=
  [⟨false, some dc, false, some bit⟩, ⟨false, some dc, true, some bit⟩]

/-- The serial form of one panel event (30_encoding.md R104): chip select falls or rises with the clock
idle; a byte is eight clock pulses, bit 7 first, with the data/command line stable, and leaves the
clock idle. -/
def serialForm : PanelEvent → List LineLevels
  | .csAssert => [clockIdle false none]
  | .csDeassert => [clockIdle true none]
  | .byte dc b =>
    (List.range 8).flatMap (fun j => clockPulse dc.level (b.getLsbD (7 - j)))
      ++ [clockIdle false (some dc.level)]

/-- The lines since reset: idle outside a frame, then the serial form of every panel event
(43_display_transport.md R189). -/
def State.serialStream (s : State) : List LineLevels :=
  clockIdle true none :: s.panel.flatMap serialForm

end Sys2Proof.Machine
end

