-- ==== Sys2Proof/Machine/Dispatch.lean ====
section
/-! DEFINITION. The meaning of every operation, one direct call an arm. -/

namespace Sys2Proof.Machine

/-- What one operation does (opcode_table.json: one arm per row). -/
def exec (i : Instr) (s : State) : Host.Outcome State Fault Refusal :=
  match i with
  | .pxw b a d => Sys2Proof.Machine.execPxw b a d s
  | .pxr b a => Sys2Proof.Machine.execPxr b a s
  | .palreq id => Sys2Proof.Machine.execPalreq id s
  | .gamma g => Sys2Proof.Machine.execGamma g s
  | .publish vt ov fb => Sys2Proof.Machine.execPublish vt ov fb s
  | .ovw os n row => Sys2Proof.Machine.execOvw os n row s
  | .ovn os n => Sys2Proof.Machine.execOvn os n s
  | .wipew x raw => Sys2Proof.Machine.execWipew x raw s
  | .wipemin m => Sys2Proof.Machine.execWipemin m s
  | .rdstat => Sys2Proof.Machine.execRdstat s
  | .init => Sys2Proof.Machine.execInit s
  | .waitsync => Sys2Proof.Machine.execWaitsync s
  | .applypal => Sys2Proof.Machine.execApplypal s
  | .rebuildov => Sys2Proof.Machine.execRebuildov s
  | .advwipe => Sys2Proof.Machine.execAdvwipe s
  | .encode => Sys2Proof.Machine.execEncode s
  | .park => Sys2Proof.Machine.execPark s
  | .run => Sys2Proof.Machine.execRun s
  | .release => Sys2Proof.Machine.execRelease s
  | .pace => Sys2Proof.Machine.execPace s
  | .halt => Sys2Proof.Machine.execHalt s
  | .txcmd seq => Sys2Proof.Machine.execTxcmd seq s
  | .txdata buf => Sys2Proof.Machine.execTxdata buf s

end Sys2Proof.Machine
end

