-- ==== Sys2Proof/Machine/Fetch.lean ====
section
/-! DEFINITION. Which operation the coming step runs: the turn (00_scope.md R7, 20_memory.md R81), the
word on the producer port (45_producer_port.md R220), the code in `SEQ` (10_state.md R40), and how the
host places one operation for the coming step. See assumption log 8, 9, 14, 16, 23. -/

namespace Sys2Proof.Machine

/-- What the coming step does. -/
inductive Fetched where
  /-- It runs an operation on a state. -/
  | run (i : Instr) (s : State)
  /-- The word on the producer port is no command (30_encoding.md R99). -/
  | illegal (s : State)
  /-- It runs no operation: time, reset, or a producer that presents no word. -/
  | pass (s : State)
  /-- It has no meaning. -/
  | stop (r : Refusal)
deriving DecidableEq, Repr

/-- The agent whose turn comes: the first listed turn, else a free one. -/
def takeTurn (s : State) : Turn × State :=
  match s.turns with
  | t :: rest => (t, { s with turns := rest })
  | [] => (Config.freeTurn s.freeCount, { s with freeCount := s.freeCount + 1 })

/-- The word on the producer port: the one in progress, else the next one the producer presents, else
a free one (45_producer_port.md R220: the next word only after the response). -/
def presentWord (s : State) : Option (BitVec 32) × State :=
  match s.port with
  | some w => (some w, s)
  | none =>
    match s.commands with
    | w :: rest => (some w, { s with port := some w, commands := rest, response := none })
    | [] =>
      match Config.freeCommand s.freeCount with
      | some w =>
        (some w, { s with port := some w, response := none, freeCount := s.freeCount + 1 })
      | none => (none, { s with freeCount := s.freeCount + 1 })

/-- The producer's turn: its word is decoded (45_producer_port.md R221 (1)). -/
def fetchCommand (s : State) : Fetched :=
  match presentWord s with
  | (some w, s') =>
    match decode (.command w) with
    | .ok i => .run i s'
    | .error _ => .illegal s'
  | (none, s') => .pass s'

/-- The display sequencer's turn: the micro-operation of `SEQ` (30_encoding.md R102). -/
def fetchMicro (s : State) : Fetched :=
  match decode (.micro s.seq) with
  | .ok i => .run i s
  | .error _ => .stop (.reservedCode s.seq)

/-- A T-format operation that stands in `transport` (log 14). -/
def fetchTransaction (s : State) : Fetched :=
  match decode (.transaction s.transport) with
  | .ok i => .run i { s with transport := [] }
  | .error _ => .stop .malformedTransaction

/-- What a turn does. -/
def fetchTurn (t : Turn) (s : State) : Fetched :=
  match t with
  | .producer => fetchCommand s
  | .display => fetchMicro s
  | .time now => .pass (s.advanceTime now)
  | .reset => .pass s.pulseReset

/-- What the coming step does. -/
def fetch (s : State) : Fetched :=
  if s.transport.isEmpty then fetchTurn (takeTurn s).1 (takeTurn s).2 else fetchTransaction s

/-- `s` with an operation of `nbits` bits placed for the coming step (log 23): a command word stands on
the producer port and the producer has the turn; a sequencer code stands in `SEQ` and the display
sequencer has the turn; a symbol stands in `transport`. -/
def placeWord (s : State) (nbits w : Nat) : State :=
  if nbits = 32 then
    { s with port := some (BitVec.ofNat 32 w), pubPhase := .acquire, transport := [],
             turns := .producer :: s.turns }
  else if nbits = 4 ∨ nbits = 8 then
    { s with seq := BitVec.ofNat 4 w, transport := [], turns := .display :: s.turns }
  else if nbits = 9 ∨ nbits = 16 then { s with transport := [BitVec.ofNat 9 w] }
  else s

end Sys2Proof.Machine
end

