-- ==== Sys2Proof/Machine/Step.lean ====
section
/-! DEFINITION. One step of the machine, and the host's placing of one operation. -/

namespace Sys2Proof.Machine

/-- One step (20_memory.md R73, R81): the coming turn's operation runs; an illegal word is refused with
`ERR_CMD` (30_encoding.md R99). -/
def step (s : State) : Host.Outcome State Fault Refusal :=
  match fetch s with
  | .run i s' => exec i s'
  | .illegal s' => .next (s'.refuse .cmd)
  | .pass s' => .next s'
  | .stop r => .refused r

/-- `s` with one operation placed so that the very next step runs it. -/
def State.withFetchWord (s : State) (nbits w : Nat) : State := placeWord s nbits w

end Sys2Proof.Machine
end

