-- ==== Sys2Proof/Machine/Assembly.lean ====
section
/-! DEFINITION. The assembler syntax and the pseudo-instructions of 30_encoding.md R111 and R112. No
step reads either. -/

namespace Sys2Proof.Machine

/-- The mnemonic of an operation (opcode_table.json). -/
def mnemonicOf : Instr → String
  | .pxw _ _ _ => "PXW"
  | .pxr _ _ => "PXR"
  | .palreq _ => "PALREQ"
  | .gamma _ => "GAMMA"
  | .publish _ _ _ => "PUBLISH"
  | .ovw _ _ _ => "OVW"
  | .ovn _ _ => "OVN"
  | .wipew _ _ => "WIPEW"
  | .wipemin _ => "WIPEMIN"
  | .rdstat => "RDSTAT"
  | .init => "INIT"
  | .waitsync => "WAITSYNC"
  | .applypal => "APPLYPAL"
  | .rebuildov => "REBUILDOV"
  | .advwipe => "ADVWIPE"
  | .encode => "ENCODE"
  | .park => "PARK"
  | .run => "RUN"
  | .release => "RELEASE"
  | .pace => "PACE"
  | .halt => "HALT"
  | .txcmd _ => "TXCMD"
  | .txdata _ => "TXDATA"

/-- The fields of a command in the order of 30_encoding.md R97, `raw` of WIPEW signed; the bytes of a
transaction. -/
def operandsOf : Instr → List Int
  | .pxw b a d => [(b.toNat : Int), (a.toNat : Int), (d.toNat : Int)]
  | .pxr b a => [(b.toNat : Int), (a.toNat : Int)]
  | .palreq id => [(id.toNat : Int)]
  | .gamma g => [(g.toNat : Int)]
  | .publish vt ov fb => [(vt.toNat : Int), (ov.toNat : Int), (fb.toNat : Int)]
  | .ovw os i row => [(os.toNat : Int), (i.toNat : Int), (row.toNat : Int)]
  | .ovn os n => [(os.toNat : Int), (n.toNat : Int)]
  | .wipew x raw => [(x.toNat : Int), raw.toInt]
  | .wipemin m => [(m.toNat : Int)]
  | .rdstat => []
  | .init => []
  | .waitsync => []
  | .applypal => []
  | .rebuildov => []
  | .advwipe => []
  | .encode => []
  | .park => []
  | .run => []
  | .release => []
  | .pace => []
  | .halt => []
  | .txcmd seq => seq.map fun b => (b.toNat : Int)
  | .txdata buf => buf.map fun b => (b.toNat : Int)

/-- The operation takes `(f)` after its mnemonic (30_encoding.md R111). -/
def showsField (i : Instr) : Bool := i = .encode || i = .run

/-- An operation in the syntax of 30_encoding.md R111, numbers in decimal; `f` is the value of `FI`
that ENCODE and RUN show. -/
def assemblyText (f : Nat) (i : Instr) : String :=
  mnemonicOf i ++ (if showsField i then "(" ++ toString f ++ ")" else "")
    ++ (if (operandsOf i).isEmpty then "" else " ")
    ++ String.intercalate ", " ((operandsOf i).map toString)

/-- `FILL b, v`. -/
def pseudoFill (c : Config) (b : BitVec 1) (v : BitVec 8) : List Instr :=
  (List.range c.fbLen).map fun a => .pxw b (BitVec.ofNat 19 a) v

/-- `FRAME b, [v0, v1, ...]`. -/
def pseudoFrame (c : Config) (b : BitVec 1) (vs : List (BitVec 8)) : List Instr :=
  (List.range c.fbLen).map fun a => .pxw b (BitVec.ofNat 19 a) (vs.getD a 0#8)

/-- `OVSET s, [r0, ..., r(n-1)]`. -/
def pseudoOvset (os : BitVec 2) (rows : List (BitVec 16)) : List Instr :=
  (rows.zipIdx.map fun p => .ovw os (BitVec.ofNat 10 p.2) p.1)
    ++ [.ovn os (BitVec.ofNat 11 rows.length)]

/-- `WIPESTART [w0, ..., w(WIPE_COLS-1)]`. -/
def pseudoWipestart (offs : List (BitVec 16)) : List Instr :=
  (offs.zipIdx.map fun p => .wipew (BitVec.ofNat 12 p.2) p.1) ++ [.wipemin 0#16]

end Sys2Proof.Machine
end

