-- ==== Sys2Proof/Safety.lean ====
section
/-! DEFINITION. The terms claims are made in: which agent has a step and how a run can end
(60_exceptions.md R268), the invariants of the spec, and the reading of overlay chains and of the panel
stream. -/

namespace Sys2Proof.Machine

/-! ## Who has a step (44_scheduler.md R201, 60_exceptions.md R268) -/

/-- The display sequencer has a step: its micro-operation is enabled (44_scheduler.md R201). -/
def displayEnabled (s : State) : Bool :=
  if s.seq = seqWaitsync then s.sem
  else if s.seq = seqPace then decide (s.deadline.toNat ≤ s.now.toNat)
  else s.seq != seqHalt

/-- The producer is held: its command is a PUBLISH in phase 1 that passes its range check, and
`SEM = 0` (60_exceptions.md R268). -/
def producerHeld (s : State) : Bool :=
  match s.port with
  | none => false
  | some w =>
    match decodeCommand w with
    | .ok (.publish _ ov _) =>
      s.pubPhase == .acquire && !publishOutOfRange s.cfg ov && !s.sem
    | _ => false

/-- The terminal class *fault* of the display sequencer, with its code (60_exceptions.md R268 (a)). -/
def displayFault (s : State) : Option (BitVec 3) :=
  if s.seq = seqHalt then some s.fatalCode else none

/-- Both agents are stuck, the end of a run (60_exceptions.md R268). -/
def bothStuck (s : State) : Bool := s.halt && producerHeld s

/-- The operation is a producer command (30_encoding.md R95, P-format). -/
def isCommandOp (i : Instr) : Bool :=
  match encode i with
  | .command _ => true
  | .micro _ => false
  | .transaction _ => false

/-- The operation is a display micro-operation (30_encoding.md R95, S-format). -/
def isMicroOp (i : Instr) : Bool :=
  match encode i with
  | .command _ => false
  | .micro _ => true
  | .transaction _ => false

/-- The coming step is a pulse of the reset input. -/
def resetComes (s : State) : Prop := s.transport = [] ∧ (takeTurn s).1 = .reset

/-- The operation the coming step runs, if it runs one. -/
def comingOp (s : State) : Option Instr :=
  match fetch s with
  | .run i _ => some i
  | .illegal _ => none
  | .pass _ => none
  | .stop _ => none

/-- The coming step is a producer command that writes the wipe registers (41_overlay_wipe.md R152): a
WIPEW or a WIPEMIN. -/
def wipeWriteComes (s : State) : Prop :=
  (∃ x raw, comingOp s = some (.wipew x raw)) ∨ ∃ m, comingOp s = some (.wipemin m)

/-! ## Overlay chains (30_encoding.md R108, 41_overlay_wipe.md R147) -/

/-- The records visited from a link through `next` to `NIL`, at most `fuel` of them. -/
def followChain (recs : List OvRecord) : Nat → BitVec 16 → List Nat
  | 0, _ => []
  | fuel + 1, link =>
    if link = ovNil then []
    else link.toNat :: followChain recs fuel (recs.getD link.toNat ⟨0#16, ovNil⟩).next

/-- The row of record `i` of a set. -/
def rowOf (recs : List OvRecord) (i : Nat) : Nat := (recs.getD i ⟨0#16, ovNil⟩).row.toNat

/-! ## The panel stream (30_encoding.md R103, 43_display_transport.md R181, R182) -/

/-- Where a reader of the panel stream stands: outside a transaction, after its chip-select assert, or
after a byte with the data/command line at the level given. -/
inductive FramePos where
  | outside
  | opened
  | inside (dc : DataCmd)
deriving DecidableEq, Repr

/-- From a position on, the stream completes the open transaction and then holds whole transactions:
`CS_ASSERT`, one or more bytes all with the same data/command level, `CS_DEASSERT`. -/
def framedFrom : FramePos → List PanelEvent → Bool
  | .outside, [] => true
  | .outside, .csAssert :: rest => framedFrom .opened rest
  | .opened, .byte dc _ :: rest => framedFrom (.inside dc) rest
  | .inside dc, .byte dc' _ :: rest => dc == dc' && framedFrom (.inside dc) rest
  | .inside _, .csDeassert :: rest => framedFrom .outside rest
  | _, _ => false

/-- The stream is a sequence of whole transactions. -/
def panelFramed (events : List PanelEvent) : Bool := framedFrom .outside events

/-! ## The panel lines (30_encoding.md R104, 43_display_transport.md R189) -/

/-- What a panel samples: the data/command and the serial data level at each rising edge of the clock,
whose level before the list is `sck`. -/
def risingEdges (sck : Bool) : List LineLevels → List (Option Bool × Option Bool)
  | [] => []
  | l :: rest => (if !sck && l.sck then [(l.dc, l.sdo)] else []) ++ risingEdges l.sck rest

/-- The samples of one panel event: a byte is its eight bits, bit 7 first. -/
def eventSamples : PanelEvent → List (Option Bool × Option Bool)
  | .csAssert => []
  | .csDeassert => []
  | .byte dc b =>
    [7, 6, 5, 4, 3, 2, 1, 0].map fun k => (some (decide (dc = .data)), some (b.getLsbD k))

/-! ## Invariants -/

/-- The memories are in canonical form and hold only addresses that exist (10_state.md R57, R58). -/
structure MemoryInv (s : State) : Prop where
  fb0 : Memory.wf (Space.unlisted (.frame 0#1)) s.cfg.fbLen s.fb0 = true
  fb1 : Memory.wf (Space.unlisted (.frame 1#1)) s.cfg.fbLen s.fb1 = true
  field : Memory.wf (Space.unlisted .field) s.cfg.fieldLen s.field = true

/-- The word on the port is the PUBLISH that has passed its range check and its acquire
(45_producer_port.md R226, R220). -/
def publishInProgress (s : State) : Prop :=
  ∃ w vt ov fb, s.port = some w ∧ decodeCommand w = .ok (.publish vt ov fb) ∧
    publishOutOfRange s.cfg ov = false

/-- The tables have their sizes and the registers their ranges (10_state.md R28 to R32, R43 to R48,
R59), for parameters that meet their constraints. -/
structure TableInv (s : State) : Prop where
  valid : s.cfg.valid = true
  lum : s.lum.length = 256
  mini : s.mini.length = s.cfg.numShared ∧ ∀ t ∈ s.mini, t.length = 16
  head : s.head.length = s.cfg.ovRows
  headEntries : ∀ h ∈ s.head, h = ovNil ∨ h.toNat < s.cfg.ovMax
  wipeRaw : s.wipeRaw.length = s.cfg.wipeCols
  wipeOff : s.wipeOff.length = s.cfg.wipeCols
  rawRange : ∀ r ∈ s.wipeRaw, r.toInt ≤ s.cfg.wipeH
  offRange : ∀ o ∈ s.wipeOff, o.toNat ≤ s.cfg.wipeH
  ovCount : s.ovCount.length = s.cfg.numOvSets
  countRange : ∀ n ∈ s.ovCount, n.toNat ≤ s.cfg.ovMax
  ovrec : s.ovrec.length = s.cfg.numOvSets ∧ ∀ recs ∈ s.ovrec, recs.length = s.cfg.ovMax
  palReq : s.palReq.toNat ≤ s.cfg.palN
  gammaLevel : s.gammaLevel.toNat < s.cfg.nGamma
  nextOv : s.nextOv.toNat < s.cfg.numOvSets
  curOv : s.curOv.toNat < s.cfg.numOvSets
  publish : s.pubPhase ≠ .acquire → publishInProgress s

/-- A sweep is active in these states of the sequencer (44_scheduler.md R201, R212). -/
def sweepActiveAt (seq : BitVec 4) (fi : BitVec 2) : Bool :=
  seq == seqPal || seq == seqOvl || seq == seqWipe || seq == seqEncode || seq == seqPark
    || seq == seqRun || seq == seqRelease || seq == seqHalt || (seq == seqPace && fi != 2#2)

/-- The sequencer and the semaphore (10_state.md R27, R36, R41, 20_memory.md R83, R89,
30_encoding.md R102, 44_scheduler.md R201, R212, 60_exceptions.md R252). -/
structure CoreInv (s : State) : Prop where
  /-- `SEM = 1` exactly when neither agent holds it (R27). -/
  sem : s.sem = (!s.dispHolds && !s.prodHolds)
  /-- The two holder bits are never both 1 (R27). -/
  exclusive : (s.dispHolds && s.prodHolds) = false
  /-- `PROD_HOLDS` between the acquire and the release of a PUBLISH (R226). -/
  prodHolds : s.prodHolds = (s.pubPhase != .acquire)
  /-- The PUBLISH in progress stands on the port (R220). -/
  publish : s.pubPhase ≠ .acquire → publishInProgress s
  /-- `DISP_HOLDS` between WAITSYNC and RELEASE, and for ever after a fatal (R201, R212). -/
  dispHolds : s.dispHolds = sweepActiveAt s.seq s.fi
  /-- While a sweep is active the current triple is the next triple (R89). -/
  selection : s.dispHolds = true →
    s.curVt = s.nextVt ∧ s.curFb = s.nextFb ∧ s.curOv = s.nextOv
  /-- `SEQ` holds a code of R102. -/
  seqCode : (decode (.micro s.seq)).toOption.isSome = true
  /-- `FI` is never 3 (R41). -/
  fiRange : s.fi ≠ 3#2
  /-- The states visited only with `FI = 0` (R201). -/
  fiZero : (s.seq = seqInit ∨ s.seq = seqWaitsync ∨ s.seq = seqPal ∨ s.seq = seqOvl ∨
    s.seq = seqWipe ∨ s.seq = seqHalt) → s.fi = 0#2
  /-- `S_RELEASE` is visited only with `FI = 2` (R201). -/
  fiTwo : s.seq = seqRelease → s.fi = 2#2
  /-- `HALT` is 1 exactly in `S_HALT` (R36, R250). -/
  halt : s.halt = (s.seq == seqHalt)
  /-- `FATAL_CODE` is 0 while `HALT = 0`, a code of R246 otherwise. -/
  fatalCode : if s.halt then s.fatalCode = 1#3 ∨ s.fatalCode = 2#3 ∨ s.fatalCode = 3#3
    else s.fatalCode = 0#3
  /-- The debug log holds the one fatal, if there was one (R252). -/
  debugLog : s.debugLog = if s.halt then [s.fatalCode] else []

/-- The wipe as ADVWIPE leaves it with no producer write since (41_overlay_wipe.md R150, R153): each
display offset is the raw offset, or 0 where that is negative, and `WIPE_MIN` is the least of them. -/
structure WipeSettled (s : State) : Prop where
  valid : s.cfg.valid = true
  cols : s.wipeRaw.length = s.cfg.wipeCols
  rawRange : ∀ r ∈ s.wipeRaw, r.toInt ≤ s.cfg.wipeH
  offs : s.wipeOff = s.wipeRaw.map fun r => if r.toInt < 0 then 0#16 else r
  wipeMin : (∀ o ∈ s.wipeOff, s.wipeMin.toNat ≤ o.toNat) ∧
    ∃ o ∈ s.wipeOff, s.wipeMin = o

end Sys2Proof.Machine
end

