-- ==== Sys2Proof/Certificates/Slice0/Obligations.lean ====
section
/-! DEFINITION. The statements about the model, for the provers. A statement that gives a result gives
the whole next state, so it is its own frame: `t = { s with … }` names every field that may differ.
Parameters are those of the state, so each statement holds for every configuration. Where a statement
rests on a choice of the model, its docstring names the entry of the assumption log. That the response
of a command stands in the register `response` and the word in `port` is log 13 throughout. -/

open Sys2Proof Sys2Proof.Machine

/-! ## Encoding -/

/-- Decoding the words of a well-formed operation gives it back: no operand bit of 30_encoding.md R97,
R102, R103 is dropped. -/
def Obligations.DecodeEncodeRoundTrip : Prop :=
  ∀ i : Instr, i.wellFormed = true → decode (encode i) = .ok i

/-- Words that decode to an operation are its encoding: each operation has one encoding, and what
decodes is well-formed (30_encoding.md R96 to R103). -/
def Obligations.EncodeDecodeWords : Prop :=
  ∀ (e : Encoded) (i : Instr), decode e = .ok i → encode i = e ∧ i.wellFormed = true

/-- The rows of 30_encoding.md R98: mnemonic, match, mask; a word is the command of a row exactly when
`w & mask = match`. -/
def Obligations.CommandRowsExact : Prop :=
  ∀ row ∈ ([("PXW", 0x10000000#32, 0xF0000000#32), ("PXR", 0x20000000#32, 0xF00000FF#32),
      ("PALREQ", 0x30000000#32, 0xFFFFFF00#32), ("GAMMA", 0x40000000#32, 0xFFFFFF00#32),
      ("PUBLISH", 0x50000000#32, 0xFF0000FE#32), ("OVW", 0x60000000#32, 0xF0000000#32),
      ("OVN", 0x70000000#32, 0xF3FFF800#32), ("WIPEW", 0x80000000#32, 0xF0000000#32),
      ("WIPEMIN", 0x90000000#32, 0xFFFF0000#32), ("RDSTAT", 0xA0000000#32, 0xFFFFFFFF#32)] :
      List (String × BitVec 32 × BitVec 32)),
    ∀ w : BitVec 32,
      (∃ i, decode (.command w) = .ok i ∧ mnemonicOf i = row.1) ↔ w &&& row.2.2 = row.2.1

/-- A few words written out from 30_encoding.md R97, R102 and R103 (95_test_vectors.md V10) decode to
the operations they stand for, and a few illegal ones to none. -/
def Obligations.SpecWordsDecode : Prop :=
  decode (.command 0x18000701#32) = .ok (.pxw 1#1 7#19 0x01#8) ∧
  decode (.command 0x28000700#32) = .ok (.pxr 1#1 7#19) ∧
  decode (.command 0x50FF0101#32) = .ok (.publish 0xFF#8 1#8 1#1) ∧
  decode (.command 0x64020001#32) = .ok (.ovw 1#2 2#10 1#16) ∧
  decode (.command 0x8003FFFE#32) = .ok (.wipew 3#12 (-2#16)) ∧
  decode (.command 0x72000000#32) = .error .illegalCommand ∧
  decode (.micro 0x5#4) = .ok .encode ∧
  decode (.micro 0xA#4) = .error .reservedCode ∧
  decode (.transaction [0x0A8#9, 0x000#9]) = .ok (.txcmd [0xA8#8, 0x00#8]) ∧
  decode (.transaction [0x155#9]) = .ok (.txdata [0x55#8]) ∧
  decode (.transaction [0x0A8#9, 0x155#9]) = .error .mixedTransaction

/-- A word on the port that is no command is refused with `ERR_CMD` and has no other effect
(30_encoding.md R99, R100; the turn and the port: log 8, 13). -/
def Obligations.IllegalWordRefused : Prop :=
  ∀ (s : State) (ts : List Turn) (w : BitVec 32) (e : DecodeError),
    s.transport = [] → s.turns = .producer :: ts → s.port = some w →
    decode (.command w) = .error e →
    step s = .next { s with
      turns := ts, errCmd := true, response := some ⟨3#2, 0#32⟩, port := none }

/-! ## The step -/

/-- A step runs the operation it decodes: the word standing on the port, or the next word of the
producer; the code in `SEQ`; the symbols of a T-format operation. The step adds the consumption of the
turn and of the word, and clears the last response when a word is presented (the model's choice of
whose turn it is and of the word: log 8, 9, 13, 14). -/
def Obligations.StepRunsDecodedOperation : Prop :=
  ∀ (s : State) (ts : List Turn) (ws : List (BitVec 32)) (w : BitVec 32) (i : Instr),
    (s.transport = [] → s.turns = .producer :: ts → s.port = some w →
      decode (.command w) = .ok i → step s = exec i { s with turns := ts }) ∧
    (s.transport = [] → s.turns = .producer :: ts → s.port = none → s.commands = w :: ws →
      decode (.command w) = .ok i →
      step s = exec i { s with
        turns := ts, port := some w, commands := ws, response := none }) ∧
    (s.transport = [] → s.turns = .display :: ts → decode (.micro s.seq) = .ok i →
      step s = exec i { s with turns := ts }) ∧
    (s.transport ≠ [] → decode (.transaction s.transport) = .ok i →
      step s = exec i { s with transport := [] })

/-- A time step replaces `NOW` by a larger value and never by another, and changes nothing else
(10_state.md R51; log 21); a pulse of the reset input leaves the state of 10_state.md R60, with the
parameters and the time input as they were (70_reset_and_hazards.md R275; log 16: what stands outside
the CORE stays). -/
def Obligations.TimeAndResetTurns : Prop :=
  ∀ (s : State) (ts : List Turn) (now : BitVec 64), s.transport = [] →
    (s.turns = .time now :: ts → s.now.toNat < now.toNat →
      step s = .next { s with turns := ts, now := now }) ∧
    (s.turns = .time now :: ts → now.toNat ≤ s.now.toNat → step s = .next { s with turns := ts }) ∧
    (s.turns = .reset :: ts →
      step s = .next { State.resetWith s.cfg s.now (s.powerUp + 1) with
        commands := s.commands, turns := ts, freeCount := s.freeCount })

/-! ## Producer commands -/

/-- PXW to a pixel that exists, in a buffer the display sequencer does not own, writes that byte and no
other (45_producer_port.md R222). -/
def Obligations.PxwWritesOnePixel : Prop :=
  ∀ (s : State) (b : BitVec 1) (a : BitVec 19) (d : BitVec 8),
    a.toNat < s.cfg.srcW * s.cfg.srcH → ¬(s.dispHolds = true ∧ b = s.curFb) →
    ∃ t, exec (.pxw b a d) s = .next t ∧
      t.readFrame b a.toNat = d ∧
      (∀ b' a', (b', a') ≠ (b, a.toNat) → t.readFrame b' a' = s.readFrame b' a') ∧
      t = { s with fb0 := t.fb0, fb1 := t.fb1, response := some ⟨0#2, 0#32⟩, port := none }

/-- PXR of a pixel that exists, in a buffer the display sequencer does not own, answers its byte and
changes nothing (45_producer_port.md R223, 20_memory.md R74). -/
def Obligations.PxrReturnsPixel : Prop :=
  ∀ (s : State) (b : BitVec 1) (a : BitVec 19),
    a.toNat < s.cfg.srcW * s.cfg.srcH → ¬(s.dispHolds = true ∧ b = s.curFb) →
    ∃ v : BitVec 32, v.toNat = (s.readFrame b a.toNat).toNat ∧
      exec (.pxr b a) s = .next { s with response := some ⟨0#2, v⟩, port := none }

/-- A performed PXW is read back by a PXR of the same pixel, and by no PXR of another, of any buffers
the display sequencer does not own, during a sweep or between sweeps (45_producer_port.md R222,
R223). -/
def Obligations.PxrReadsBackPxw : Prop :=
  ∀ (s : State) (b b' : BitVec 1) (a a' : BitVec 19) (d : BitVec 8),
    a.toNat < s.cfg.srcW * s.cfg.srcH → a'.toNat < s.cfg.srcW * s.cfg.srcH →
    ¬(s.dispHolds = true ∧ b = s.curFb) → ¬(s.dispHolds = true ∧ b' = s.curFb) →
    ∃ t u v, exec (.pxw b a d) s = .next t ∧ exec (.pxr b' a') t = .next u ∧
      u.response = some ⟨0#2, v⟩ ∧
      v.toNat = if b' = b ∧ a' = a then d.toNat else (s.readFrame b' a'.toNat).toNat

/-- PALREQ of an id up to `PAL_N` records it and sets the pending flag, whatever was pending
(45_producer_port.md R224). -/
def Obligations.PalreqRecordsRequest : Prop :=
  ∀ (s : State) (id : BitVec 8), id.toNat ≤ s.cfg.fade.length →
    exec (.palreq id) s = .next { s with
      palReq := id, palPending := true, response := some ⟨0#2, 0#32⟩, port := none }

/-- GAMMA of a level below `NGAMMA` sets the level and nothing else: no palette request, no `LUM` entry
(45_producer_port.md R225). -/
def Obligations.GammaSetsLevelOnly : Prop :=
  ∀ (s : State) (g : BitVec 8), g.toNat < s.cfg.gammaTables.length →
    exec (.gamma g) s = .next { s with
      gammaLevel := g, response := some ⟨0#2, 0#32⟩, port := none }

/-- OVW in range, to a set the display sequencer does not own, writes the row of that record, whatever
the row, and nothing else: no link, no other record (45_producer_port.md R228). -/
def Obligations.OvwWritesRow : Prop :=
  ∀ (s : State) (os : BitVec 2) (i : BitVec 10) (row : BitVec 16),
    os.toNat < s.cfg.numOvSets → i.toNat < s.cfg.ovMax →
    ¬(s.dispHolds = true ∧ os.toNat = s.curOv.toNat) →
    ∃ t, exec (.ovw os i row) s = .next t ∧
      t = { s with ovrec := t.ovrec, response := some ⟨0#2, 0#32⟩, port := none } ∧
      t.ovrec.length = s.ovrec.length ∧
      ∀ o j, t.ovrec[o]?.bind (·[j]?) =
        (s.ovrec[o]?.bind (·[j]?)).map fun r =>
          if o = os.toNat ∧ j = i.toNat then ⟨row, r.next⟩ else r

/-- OVN in range, of a set the display sequencer does not own, sets its count and nothing else
(45_producer_port.md R229). -/
def Obligations.OvnSetsCount : Prop :=
  ∀ (s : State) (os : BitVec 2) (n : BitVec 11),
    os.toNat < s.cfg.numOvSets → n.toNat ≤ s.cfg.ovMax →
    ¬(s.dispHolds = true ∧ os.toNat = s.curOv.toNat) →
    ∃ t, exec (.ovn os n) s = .next t ∧
      t = { s with ovCount := t.ovCount, response := some ⟨0#2, 0#32⟩, port := none } ∧
      ∀ o, t.ovCount[o]? = s.ovCount[o]?.map fun m => if o = os.toNat then n else m

/-- WIPEW of a column below `WIPE_COLS` and a raw offset up to `WIPE_H` sets that offset and nothing
else: not the display offset, not the minimum (45_producer_port.md R230). -/
def Obligations.WipewSetsRaw : Prop :=
  ∀ (s : State) (x : BitVec 12) (raw : BitVec 16),
    x.toNat < s.cfg.wipeCols → raw.toInt ≤ s.cfg.wipeH →
    ∃ t, exec (.wipew x raw) s = .next t ∧
      t = { s with wipeRaw := t.wipeRaw, response := some ⟨0#2, 0#32⟩, port := none } ∧
      ∀ y, t.wipeRaw[y]? = s.wipeRaw[y]?.map fun r => if y = x.toNat then raw else r

/-- WIPEMIN sets the minimum to any 16-bit value (45_producer_port.md R231). -/
def Obligations.WipeminSetsMinimum : Prop :=
  ∀ (s : State) (m : BitVec 16),
    exec (.wipemin m) s = .next { s with
      wipeMin := m, response := some ⟨0#2, 0#32⟩, port := none }

/-- RDSTAT answers the `STATUS` word, its fields where 30_encoding.md R101 puts them, and changes
nothing (45_producer_port.md R232). -/
def Obligations.RdstatReturnsStatus : Prop :=
  ∀ s : State, ∃ d : BitVec 32,
    exec .rdstat s = .next { s with response := some ⟨0#2, d⟩, port := none } ∧
    d.getLsbD 0 = s.halt ∧ d.extractLsb' 1 3 = s.fatalCode ∧ d.getLsbD 4 = s.errOwn ∧
    d.getLsbD 5 = s.errAddr ∧ d.getLsbD 6 = s.errCmd ∧ d.getLsbD 7 = s.sem ∧
    d.extractLsb' 8 4 = s.seq ∧ d.extractLsb' 12 2 = s.fi ∧ d.getLsbD 14 = s.sweepParity ∧
    d.getLsbD 15 = s.palPending ∧ d.extractLsb' 16 8 = s.palReq ∧ d.extractLsb' 24 8 = 0#8

/-- The three phases of a PUBLISH with an overlay set below `NUM_OV_SETS`: the acquire with `SEM = 1`,
the write of the triple, the release with the response (45_producer_port.md R226). -/
def Obligations.PublishPhases : Prop :=
  ∀ (s : State) (vt ov : BitVec 8) (fb : BitVec 1),
    (s.pubPhase = .acquire → ov.toNat < s.cfg.numOvSets → s.sem = true →
      exec (.publish vt ov fb) s = .next { s with
        sem := false, prodHolds := true, pubPhase := .write }) ∧
    (s.pubPhase = .write →
      exec (.publish vt ov fb) s = .next { s with
        nextVt := vt, nextFb := fb, nextOv := ov, pubPhase := .release }) ∧
    (s.pubPhase = .release →
      exec (.publish vt ov fb) s = .next { s with
        sem := true, prodHolds := false, pubPhase := .acquire,
        response := some ⟨0#2, 0#32⟩, port := none })

/-- A PUBLISH that finds `SEM = 1` and has the next three turns writes the triple, leaves `SEM = 1` and
is answered `OK`: the atomic equivalent of 45_producer_port.md R227. -/
def Obligations.PublishThreeTurnsComplete : Prop :=
  ∀ (s : State) (ts : List Turn) (w : BitVec 32) (vt ov : BitVec 8) (fb : BitVec 1),
    s.transport = [] → s.turns = .producer :: .producer :: .producer :: ts → s.port = some w →
    decode (.command w) = .ok (.publish vt ov fb) → ov.toNat < s.cfg.numOvSets →
    s.pubPhase = .acquire → s.sem = true →
    ∃ s1 s2, step s = .next s1 ∧ step s1 = .next s2 ∧ s1.sem = false ∧ s2.sem = false ∧
      step s2 = .next { s with
        turns := ts, nextVt := vt, nextFb := fb, nextOv := ov, sem := true, prodHolds := false,
        pubPhase := .acquire, response := some ⟨0#2, 0#32⟩, port := none }

/-- A PUBLISH that has not acquired is refused at once for an overlay set out of range, whatever `SEM`
is, and otherwise waits, changing nothing, while `SEM = 0` (45_producer_port.md R226; a step that
changes nothing stands for the wait: log 10). -/
def Obligations.PublishWaitsOrIsRefused : Prop :=
  ∀ (s : State) (vt ov : BitVec 8) (fb : BitVec 1), s.pubPhase = .acquire →
    (s.cfg.numOvSets ≤ ov.toNat → exec (.publish vt ov fb) s = .next { s with
      errCmd := true, response := some ⟨3#2, 0#32⟩, port := none }) ∧
    (ov.toNat < s.cfg.numOvSets → s.sem = false → exec (.publish vt ov fb) s = .next s)

/-- `ERR_OWN` (status 1) is raised by exactly the commands of 60_exceptions.md R256, where no range
check comes first (R269): PXW and PXR of the current buffer, OVW and OVN of the current set, while a
sweep is active. -/
def Obligations.ErrOwnRaisedExactly : Prop :=
  ∀ (i : Instr) (s : State), isCommandOp i = true → s.response = none →
    let raised : Prop := s.dispHolds = true ∧
      match i with
      | .pxw b a _ => a.toNat < s.cfg.srcW * s.cfg.srcH ∧ b = s.curFb
      | .pxr b a => a.toNat < s.cfg.srcW * s.cfg.srcH ∧ b = s.curFb
      | .ovw os j _ => os.toNat < s.cfg.numOvSets ∧ j.toNat < s.cfg.ovMax ∧
          os.toNat = s.curOv.toNat
      | .ovn os n => os.toNat < s.cfg.numOvSets ∧ n.toNat ≤ s.cfg.ovMax ∧
          os.toNat = s.curOv.toNat
      | _ => False
    ∃ t, exec i s = .next t ∧ (t.response = some ⟨1#2, 0#32⟩ ↔ raised) ∧
    (t.errOwn = true ↔ s.errOwn = true ∨ raised) ∧ t.status.getLsbD 4 = t.errOwn

/-- `ERR_ADDR` (status 2) is raised by exactly the commands of 60_exceptions.md R257: an address, index
or count out of range. -/
def Obligations.ErrAddrRaisedExactly : Prop :=
  ∀ (i : Instr) (s : State), isCommandOp i = true → s.response = none →
    let raised : Prop :=
      match i with
      | .pxw _ a _ => s.cfg.srcW * s.cfg.srcH ≤ a.toNat
      | .pxr _ a => s.cfg.srcW * s.cfg.srcH ≤ a.toNat
      | .ovw os j _ => s.cfg.numOvSets ≤ os.toNat ∨ s.cfg.ovMax ≤ j.toNat
      | .ovn os n => s.cfg.numOvSets ≤ os.toNat ∨ s.cfg.ovMax < n.toNat
      | .wipew x _ => s.cfg.wipeCols ≤ x.toNat
      | _ => False
    ∃ t, exec i s = .next t ∧ (t.response = some ⟨2#2, 0#32⟩ ↔ raised) ∧
    (t.errAddr = true ↔ s.errAddr = true ∨ raised) ∧ t.status.getLsbD 5 = t.errAddr

/-- `ERR_CMD` (status 3) is raised for every illegal word and by exactly the commands of
60_exceptions.md R258; WIPEW checks its column first (R269), PUBLISH checks before its acquire. -/
def Obligations.ErrCmdRaisedExactly : Prop :=
  (∀ (i : Instr) (s : State), isCommandOp i = true → s.response = none →
    s.pubPhase = .acquire →
    let raised : Prop :=
      match i with
      | .palreq id => s.cfg.fade.length < id.toNat
      | .gamma g => s.cfg.gammaTables.length ≤ g.toNat
      | .publish _ ov _ => s.cfg.numOvSets ≤ ov.toNat
      | .wipew x raw => x.toNat < s.cfg.wipeCols ∧ (s.cfg.wipeH : Int) < raw.toInt
      | _ => False
    ∃ t, exec i s = .next t ∧ (t.response = some ⟨3#2, 0#32⟩ ↔ raised) ∧
    (t.errCmd = true ↔ s.errCmd = true ∨ raised) ∧ t.status.getLsbD 6 = t.errCmd) ∧
  (∀ (s : State) (ts : List Turn) (w : BitVec 32) (e : DecodeError),
    s.transport = [] → s.turns = .producer :: ts → s.port = some w →
    decode (.command w) = .error e →
    ∃ t, step s = .next t ∧ t.response = some ⟨3#2, 0#32⟩ ∧ t.errCmd = true)

/-- A command answered with a refusal sets exactly the matching flag, answers data 0 and changes nothing
else: no register, no memory, not `SEM` (60_exceptions.md R255). -/
def Obligations.RefusalChangesNothingElse : Prop :=
  ∀ (i : Instr) (s t : State) (st : BitVec 2) (d : BitVec 32), isCommandOp i = true →
    s.response = none → exec i s = .next t → t.response = some ⟨st, d⟩ → st ≠ 0#2 →
    d = 0#32 ∧
    t = { s with
      errOwn := s.errOwn || st == 1#2, errAddr := s.errAddr || st == 2#2,
      errCmd := s.errCmd || st == 3#2, response := some ⟨st, 0#32⟩, port := none }

/-! ## Display micro-operations -/

/-- INIT sends `INIT_SEQ` as one command transaction (nothing for an empty list), sets the first
deadline one period after `NOW`, `FI` to 0 and goes to `S_WAITSYNC` (43_display_transport.md R183). -/
def Obligations.InitStep : Prop :=
  ∀ s : State, s.now.toNat + s.cfg.fieldPeriod < 2 ^ 64 →
    exec .init s = .next { s with
      panel := s.panel ++ (if s.cfg.initSeq = [] then [] else
        [.csAssert] ++ s.cfg.initSeq.map (.byte .cmd) ++ [.csDeassert]),
      deadline := s.now + BitVec.ofNat 64 s.cfg.fieldPeriod, fi := 0#2, seq := 0x1#4 }

/-- The cases the spec leaves unmodelled stop by name: a deadline past `2^64 - 1`
(93_implementation_defined.md U4), a palette that does not lie inside the lump (U3), `FI = 3` and a
reserved code in `SEQ` (U16). That they stop is the model's choice (log 15). -/
def Obligations.UnmodelledCasesStop : Prop :=
  ∀ s : State,
    (2 ^ 64 ≤ s.now.toNat + s.cfg.fieldPeriod → exec .init s = .refused .timeOverflow) ∧
    (s.deadline.toNat ≤ s.now.toNat → s.fi ≠ 3#2 →
      2 ^ 64 ≤ s.deadline.toNat + s.cfg.fieldPeriod → exec .pace s = .refused .timeOverflow) ∧
    (s.curVt ≠ 0x01#8 → s.palPending = true →
      s.cfg.lump.length <
        (if s.palReq = 0#8 ∨ s.cfg.lump.length ≠ 768 then 768 * s.palReq.toNat else 0) + 768 →
      exec .applypal s = .refused .lumpTooShort) ∧
    (s.fi = 3#2 → exec .encode s = .refused .fieldIndexThree ∧
      exec .run s = .refused .fieldIndexThree ∧
      (s.deadline.toNat ≤ s.now.toNat → exec .pace s = .refused .fieldIndexThree)) ∧
    (∀ ts, s.transport = [] → s.turns = .display :: ts → 0xA ≤ s.seq.toNat → s.seq.toNat ≤ 0xE →
      step s = .refused (.reservedCode s.seq))

/-- WAITSYNC with `SEM = 1` acquires and snapshots the whole triple in one step, and waits, changing
nothing, while `SEM = 0` (44_scheduler.md R202; a step that changes nothing stands for the wait:
log 10). -/
def Obligations.WaitsyncStep : Prop :=
  ∀ s : State,
    (s.sem = true → exec .waitsync s = .next { s with
      sem := false, dispHolds := true, curVt := s.nextVt, curFb := s.nextFb, curOv := s.nextOv,
      seq := 0x2#4 }) ∧
    (s.sem = false → exec .waitsync s = .next s)

/-- For the saving video type the three sweep-start steps change `SEQ` only: a palette request stays
pending, no record is scanned, no column moves (44_scheduler.md R204 to R206). -/
def Obligations.SavingTypeSkipsSweepStart : Prop :=
  ∀ s : State, s.curVt = 0x01#8 →
    exec .applypal s = .next { s with seq := 0x3#4 } ∧
    exec .rebuildov s = .next { s with seq := 0x4#4 } ∧
    exec .advwipe s = .next { s with seq := 0x5#4 }

/-- With nothing pending APPLYPAL changes nothing, not even `MINI`; the step goes on to `S_OVL`
(40_palette_engine.md R126, 44_scheduler.md R204; log 22). -/
def Obligations.ApplypalIdle : Prop :=
  ∀ s : State, s.palPending = false → exec .applypal s = .next { s with seq := 0x3#4 }

/-- With a request pending, a palette inside the lump and every patch valid, APPLYPAL clears the flag,
writes every entry of `LUM` (gamma, then the fade unless the mode is direct, then the clamped weighted
sum) and every mini-palette (40_palette_engine.md R126 to R135). -/
def Obligations.ApplypalRecomputes : Prop :=
  ∀ s : State, s.cfg.valid = true → s.curVt ≠ 0x01#8 → s.palPending = true →
    s.palReq.toNat ≤ s.cfg.fade.length → s.mini.length = s.cfg.patches.length →
    (∀ p ∈ s.cfg.patches, p.depth = 4#8 ∧ p.flat = true ∧ p.hasPal = true) →
    let c := s.cfg
    let direct := s.palReq = 0#8 ∨ c.lump.length ≠ 768
    let off := if direct then 768 * s.palReq.toNat else 0
    let base := fun i k : Nat =>
      let v := c.lump.getD (off + 3 * i + k) 0#8
      if c.gammaEn then ((c.gammaTables.getD s.gammaLevel.toNat []).getD v.toNat 0#8).toNat
      else v.toNat
    let fade := c.fade.getD (s.palReq.toNat - 1) ⟨0, 0, 0, 0⟩
    let comp := fun (i k tint : Nat) =>
      if direct then (base i k : Int)
      else base i k + (((tint : Int) - base i k) * fade.mul) / 65536
    off + 768 ≤ c.lump.length →
    ∃ t, exec .applypal s = .next t ∧
      t = { s with palPending := false, lum := t.lum, mini := t.mini, seq := 0x3#4 } ∧
      t.lum.length = 256 ∧
      (∀ i < 256, ((t.lum.getD i 0#8).toNat : Int) =
        min 255 ((c.lumWr * comp i 0 fade.tintR + c.lumWg * comp i 1 fade.tintG
          + c.lumWb * comp i 2 fade.tintB) / 2 ^ c.lumShift)) ∧
      t.mini = c.patches.map fun p =>
        (List.range 16).map fun j => t.lum.getD (p.pal.getD j 0#8).toNat 0#8

/-- The first patch that is not valid raises `F_PATCH`: `LUM` is whole, the mini-palettes before it are
new, it and those after it keep their values, and fatal entry halts the sequencer
(40_palette_engine.md R134, R136, 60_exceptions.md R250). -/
def Obligations.ApplypalPatchFatal : Prop :=
  ∀ (s : State) (k : Nat) (p : Patch), s.curVt ≠ 0x01#8 → s.palPending = true →
    s.mini.length = s.cfg.patches.length →
    (if s.palReq = 0#8 ∨ s.cfg.lump.length ≠ 768 then 768 * s.palReq.toNat else 0) + 768
      ≤ s.cfg.lump.length →
    s.cfg.patches[k]? = some p → ¬(p.depth = 4#8 ∧ p.flat = true ∧ p.hasPal = true) →
    (∀ q ∈ s.cfg.patches.take k, q.depth = 4#8 ∧ q.flat = true ∧ q.hasPal = true) →
    ∃ t, exec .applypal s = .next t ∧
      t = { s with
        palPending := false, lum := t.lum, mini := t.mini, debugLog := s.debugLog ++ [2#3],
        fatalCode := 2#3, halt := true, seq := 0xF#4 } ∧
      t.lum = (List.range 256).map (newLum s.cfg s.gammaLevel s.palReq) ∧
      t.mini = ((s.cfg.patches.take k).map fun q =>
        (List.range 16).map fun j => t.lum.getD (q.pal.getD j 0#8).toNat 0#8) ++ s.mini.drop k

/-- The fade blend (40_palette_engine.md R130): its formula, the size of the product, its range between
the component and the tint, its two ends, and the rule's two examples. -/
def Obligations.BlendBetween : Prop :=
  (∀ c t mul : Nat, c ≤ 255 → t ≤ 256 → mul ≤ 65536 →
    blend c t mul = c + ⌊(((t : ℚ) - c) * mul) / 65536⌋ ∧
    -(2 ^ 25 : Int) ≤ ((t : Int) - c) * mul ∧ ((t : Int) - c) * mul < 2 ^ 25 ∧
    min (c : Int) t ≤ blend c t mul ∧ blend c t mul ≤ max (c : Int) t ∧
    0 ≤ blend c t mul ∧ blend c t mul ≤ 256 ∧
    blend c t 0 = c ∧ blend c t 65536 = t) ∧
  blend 0 255 7281 = 28 ∧ blend 255 0 7281 = 226

/-- The luminance reduction for every weight and shift, and the values of 40_palette_engine.md R133 and
95_test_vectors.md V2 for the default weights. -/
def Obligations.LuminanceReduction : Prop :=
  (∀ (c : Config) (r g b : Nat),
    (luminance c r g b).toNat =
      min 255 ((c.lumWr * r + c.lumWg * g + c.lumWb * b) / 2 ^ c.lumShift)) ∧
  (∀ c : Config, c.lumWr = 5 → c.lumWg = 3 → c.lumWb = 3 → c.lumShift = 3 →
    luminance c 0 0 0 = 0#8 ∧ luminance c 255 255 255 = 255#8 ∧ luminance c 128 128 128 = 176#8 ∧
    luminance c 255 0 0 = 159#8 ∧ luminance c 0 255 0 = 95#8 ∧ luminance c 0 0 255 = 95#8 ∧
    luminance c 185 185 185 = 254#8 ∧ luminance c 186 186 186 = 255#8 ∧
    (∀ v : Nat, 186 ≤ v → luminance c v v v = 255#8) ∧
    ∀ r g b : Nat, r ≤ 256 → g ≤ 256 → b ≤ 256 →
      c.lumWr * r + c.lumWg * g + c.lumWb * b ≤ 2816 ∧
      (luminance c r g b).toNat = min 255 ((5 * r + 3 * g + 3 * b) / 8))

/-- With every row of the current set below `OV_ROWS`, REBUILDOV leaves for each row the chain of
exactly that row's records in ascending order, and touches no row field, no record at or beyond the
count and no other set (41_overlay_wipe.md R146, R147). -/
def Obligations.RebuildovLinksChains : Prop :=
  ∀ s : State, TableInv s → s.curVt ≠ 0x01#8 →
    let set := s.curOv.toNat
    let n := s.ovCountOf set
    (∀ i < n, rowOf (s.ovSet set) i < s.cfg.ovRows) →
    ∃ t, exec .rebuildov s = .next t ∧
      t = { s with head := t.head, ovrec := t.ovrec, seq := 0x4#4 } ∧
      (∀ r < s.cfg.ovRows, followChain (t.ovSet set) (n + 1) (t.head.getD r ovNil) =
        (List.range n).filter fun i => rowOf (s.ovSet set) i == r) ∧
      t.head.length = s.cfg.ovRows ∧
      (∀ i, rowOf (t.ovSet set) i = rowOf (s.ovSet set) i) ∧
      (∀ i, n ≤ i → (t.ovSet set)[i]? = (s.ovSet set)[i]?) ∧
      (∀ o, o ≠ set → t.ovrec[o]? = s.ovrec[o]?)

/-- The record of highest index whose row has no head raises `F_OVERLAY_ROW`: the records above it are
linked, it and those below it keep their links, records at or beyond the count and the other sets are
not touched, and fatal entry halts the sequencer (41_overlay_wipe.md R146, R148,
60_exceptions.md R250). -/
def Obligations.RebuildovRowFatal : Prop :=
  ∀ (s : State) (i : Nat), TableInv s → s.curVt ≠ 0x01#8 →
    let set := s.curOv.toNat
    let n := s.ovCountOf set
    i < n → s.cfg.ovRows ≤ rowOf (s.ovSet set) i →
    (∀ j < n, i < j → rowOf (s.ovSet set) j < s.cfg.ovRows) →
    ∃ t, exec .rebuildov s = .next t ∧
      t = { s with
        head := t.head, ovrec := t.ovrec, debugLog := s.debugLog ++ [1#3], fatalCode := 1#3,
        halt := true, seq := 0xF#4 } ∧
      (∀ r < s.cfg.ovRows, followChain (t.ovSet set) (n + 1) (t.head.getD r ovNil) =
        (List.range n).filter fun j => decide (i < j) && rowOf (s.ovSet set) j == r) ∧
      t.head.length = s.cfg.ovRows ∧
      (∀ j, n ≤ j → (t.ovSet set)[j]? = (s.ovSet set)[j]?) ∧
      (∀ j ≤ i, (t.ovSet set)[j]? = (s.ovSet set)[j]?) ∧
      (∀ j, rowOf (t.ovSet set) j = rowOf (s.ovSet set) j) ∧
      (∀ o, o ≠ set → t.ovrec[o]? = s.ovrec[o]?)

/-- ADVWIPE with `WIPE_MIN > WIPE_T` changes nothing but `SEQ`; with an active wipe, and no new offset
below `WIPE_MIN`, it advances every column as 41_overlay_wipe.md R150 says and `WIPE_MIN` becomes the
least new offset. The step law is that of R151, which the spec marks general knowledge (log 3). -/
def Obligations.AdvwipeAdvancesColumns : Prop :=
  ∀ s : State, TableInv s → s.curVt ≠ 0x01#8 →
    let c := s.cfg
    let r := fun x : Nat => (s.wipeRaw.getD x 0#16).toInt
    let off := fun x : Nat =>
      if r x < 0 then (0 : Int) else min (c.wipeH : Int) (r x + min (r x + 1) c.wipeStepCap)
    (c.wipeT < s.wipeMin.toNat → exec .advwipe s = .next { s with seq := 0x5#4 }) ∧
    (s.wipeMin.toNat ≤ c.wipeT → (∀ x < c.wipeCols, (s.wipeMin.toNat : Int) ≤ off x) →
      ∃ t, exec .advwipe s = .next t ∧
        t = { s with
          wipeRaw := t.wipeRaw, wipeOff := t.wipeOff, wipeMin := t.wipeMin, seq := 0x5#4 } ∧
        t.wipeRaw.length = c.wipeCols ∧ t.wipeOff.length = c.wipeCols ∧
        (∀ x < c.wipeCols, ((t.wipeOff.getD x 0#16).toNat : Int) = off x ∧
          (t.wipeRaw.getD x 0#16).toInt =
            if r x < 0 then (if s.sweepParity then r x else r x + 1) else off x) ∧
        (∀ x < c.wipeCols, (t.wipeMin.toNat : Int) ≤ off x) ∧
        ∃ x < c.wipeCols, (t.wipeMin.toNat : Int) = off x)

/-- With an active wipe and some new offset below `WIPE_MIN`, ADVWIPE raises `F_WIPE_MIN` after all
columns have been written; `WIPE_MIN` keeps its value (41_overlay_wipe.md R152, 60_exceptions.md
R250). The step law of the columns is that of R151, which the spec marks general knowledge (log 3). -/
def Obligations.AdvwipeMinFatal : Prop :=
  ∀ (s : State) (x : Nat), TableInv s → s.curVt ≠ 0x01#8 →
    let c := s.cfg
    let r := fun x : Nat => (s.wipeRaw.getD x 0#16).toInt
    let off := fun x : Nat =>
      if r x < 0 then (0 : Int) else min (c.wipeH : Int) (r x + min (r x + 1) c.wipeStepCap)
    s.wipeMin.toNat ≤ c.wipeT → x < c.wipeCols → off x < (s.wipeMin.toNat : Int) →
    ∃ t, exec .advwipe s = .next t ∧
      t = { s with
        wipeRaw := t.wipeRaw, wipeOff := t.wipeOff, debugLog := s.debugLog ++ [3#3],
        fatalCode := 3#3, halt := true, seq := 0xF#4 } ∧
      ∀ y < c.wipeCols, ((t.wipeOff.getD y 0#16).toNat : Int) = off y ∧
        (t.wipeRaw.getD y 0#16).toInt =
          if r y < 0 then (if s.sweepParity then r y else r y + 1) else off y

/-- An active ADVWIPE that raises no fatal leaves the wipe settled. From a settled wipe every step but
reset and a producer write of the wipe registers (WIPEW, WIPEMIN) keeps it settled, lowers neither the
minimum nor a display offset, and does not raise `F_WIPE_MIN`; and ADVWIPE, whenever it comes, goes on
to `S_ENCODE` (41_overlay_wipe.md R153 (a); the step law: log 3). -/
def Obligations.WipeMinNeverDecreases : Prop :=
  (∀ s t : State, TableInv s → s.curVt ≠ 0x01#8 → s.wipeMin.toNat ≤ s.cfg.wipeT →
    exec .advwipe s = .next t → t.seq = 0x5#4 → WipeSettled t) ∧
  (∀ s t : State, WipeSettled s → step s = .next t → ¬resetComes s → ¬wipeWriteComes s →
    WipeSettled t ∧ s.wipeMin.toNat ≤ t.wipeMin.toNat ∧
      (∀ x : Nat, (s.wipeOff.getD x 0#16).toNat ≤ (t.wipeOff.getD x 0#16).toNat) ∧
      t.debugLog ≠ s.debugLog ++ [3#3]) ∧
  (∀ s : State, WipeSettled s →
    ∃ t, exec .advwipe s = .next t ∧ WipeSettled t ∧ t.seq = 0x5#4 ∧ t.halt = s.halt ∧
      s.wipeMin.toNat ≤ t.wipeMin.toNat)

/-- ENCODE writes every bit of the field buffer: panel row `p`, column `x` is bit `2 - f` of the
dithered level of the output pixel of column `x`, row `DISP_H - 1 - p`, and rows beyond `DISP_H` are 0;
nothing else changes but `SEQ` (42_bitplane_encoder.md R161 to R171). -/
def Obligations.EncodePixels : Prop :=
  ∀ s : State, s.cfg.valid = true → s.fi ≠ 3#2 →
    let c := s.cfg
    let w := c.srcW / c.ss
    let h := c.srcH / c.ss
    let sample := fun x y : Nat =>
      (∑ j ∈ Finset.range c.ss, ∑ i ∈ Finset.range c.ss,
        (s.lum.getD (s.readFrame s.curFb ((y * c.ss + j) * c.srcW + (x * c.ss + i))).toNat
          0#8).toNat) / (c.ss * c.ss)
    let level := fun x y : Nat => min 7 (sample x y / 32 + (x + y + s.sweepParity.toNat) % 2)
    ∃ t, exec .encode s = .next t ∧ t = { s with field := t.field, seq := 0x6#4 } ∧
      ∀ x < w, ∀ p < 8 * ((h + 7) / 8),
        (t.readField (p / 8 * w + x)).getLsbD (p % 8) =
          (decide (p < h) && (level x (h - 1 - p)).testBit (2 - s.fi.toNat))

/-- While `LUM` is all zero the encoded field does not depend on the frame buffers: the first sweep
after reset is determined although their content is not (70_reset_and_hazards.md R276). -/
def Obligations.BlackEncodeIgnoresFrame : Prop :=
  ∀ (s : State) (m0 m1 : Memory) (k : Nat), s.fi ≠ 3#2 → (∀ l ∈ s.lum, l = 0#8) →
    ∃ t u, exec .encode s = .next t ∧
      exec .encode { s with fb0 := m0, fb1 := m1, powerUp := k } = .next u ∧ t.field = u.field

/-- PARK sends `PARK_SEQ` as one command transaction (nothing for an empty list) and goes to `S_RUN`
(43_display_transport.md R185, its code and its example included). -/
def Obligations.ParkStep : Prop :=
  decode (.micro 0x6#4) = .ok .park ∧
  ∀ s : State, exec .park s = .next { s with
      panel := s.panel ++ (if s.cfg.parkSeq = [] then [] else
        [.csAssert] ++ s.cfg.parkSeq.map (.byte .cmd) ++ [.csDeassert]),
      seq := 0x7#4 } ∧
    (s.cfg.parkSeq = [0xA8#8, 0x00#8] → ∃ t, exec .park s = .next t ∧
      t.panel = s.panel ++ [.csAssert, .byte .cmd 0xA8#8, .byte .cmd 0x00#8, .csDeassert])

/-- RUN sends `FIELD_SEQ[FI]` as one command transaction (nothing for an empty list), then the whole
field buffer in ascending order as one data transaction, and goes to `S_RELEASE` after field 2, to
`S_PACE` otherwise (43_display_transport.md R186). -/
def Obligations.RunStep : Prop :=
  ∀ s : State, s.fi ≠ 3#2 →
    let fieldSeq := if s.fi = 0#2 then s.cfg.fieldSeq0 else
      if s.fi = 1#2 then s.cfg.fieldSeq1 else s.cfg.fieldSeq2
    let fieldLen := (s.cfg.srcW / s.cfg.ss) * ((s.cfg.srcH / s.cfg.ss + 7) / 8)
    exec .run s = .next { s with
      panel := s.panel ++ (if fieldSeq = [] then [] else
          [.csAssert] ++ fieldSeq.map (.byte .cmd) ++ [.csDeassert])
        ++ ([.csAssert] ++ (List.range fieldLen).map (fun k => .byte .data (s.readField k))
          ++ [.csDeassert]),
      seq := if s.fi = 2#2 then 0x8#4 else 0x9#4 }

/-- RELEASE frees the semaphore, ends the sweep, toggles the dither phase and goes to `S_PACE`
(44_scheduler.md R210). -/
def Obligations.ReleaseStep : Prop :=
  ∀ s : State, exec .release s = .next { s with
    sem := true, dispHolds := false, sweepParity := !s.sweepParity, seq := 0x9#4 }

/-- PACE waits, changing nothing, until `NOW >= DEADLINE`; then the deadline advances by one period,
not from `NOW`, and the next field or the next sweep begins (44_scheduler.md R211; a step that changes
nothing stands for the wait: log 10). -/
def Obligations.PaceStep : Prop :=
  ∀ s : State,
    (s.now.toNat < s.deadline.toNat → exec .pace s = .next s) ∧
    (s.deadline.toNat ≤ s.now.toNat → s.fi ≠ 3#2 →
      s.deadline.toNat + s.cfg.fieldPeriod < 2 ^ 64 →
      exec .pace s = .next { s with
        deadline := s.deadline + BitVec.ofNat 64 s.cfg.fieldPeriod,
        fi := if s.fi = 2#2 then 0#2 else s.fi + 1#2,
        seq := if s.fi = 2#2 then 0x1#4 else 0x5#4 })

/-- In `S_HALT` the display sequencer writes no state (44_scheduler.md R212; that it has no step there
is modelled as a step that changes nothing: log 11). -/
def Obligations.HaltStep : Prop :=
  ∀ s : State, exec .halt s = .next s

/-- TXCMD of no byte does nothing; otherwise TXCMD and TXDATA append one chip-select frame of command
or data bytes and change nothing else (43_display_transport.md R182; as operations of their own:
log 14). -/
def Obligations.TransactionOperations : Prop :=
  ∀ (s : State) (bytes : List (BitVec 8)),
    exec (.txcmd []) s = .next s ∧
    (bytes ≠ [] → exec (.txcmd bytes) s = .next { s with
      panel := s.panel ++ ([.csAssert] ++ bytes.map (.byte .cmd) ++ [.csDeassert]) }) ∧
    (bytes ≠ [] → exec (.txdata bytes) s = .next { s with
      panel := s.panel ++ ([.csAssert] ++ bytes.map (.byte .data) ++ [.csDeassert]) })

/-- On the lines (30_encoding.md R104, 43_display_transport.md R189): chip select is low from the
assert to the deassert; the clock idles low, before the first event and wherever chip select is high; a
byte is eight clock pulses with the data/command line at one level, low for `CMD` and high for `DATA`,
each bit on the data line before and at its rising edge, bit 7 first and bit 0 last. So what is sampled
at the rising edges is the bytes of `PANEL` in order and nothing else. Where R104 fixes no level the
view holds none (log 19). -/
def Obligations.SerialFormMsbFirst : Prop :=
  (∀ (dc : DataCmd) (b : BitVec 8),
    let hi := some (decide (dc = .data))
    serialForm .csAssert = [⟨false, none, false, none⟩] ∧
    serialForm .csDeassert = [⟨true, none, false, none⟩] ∧
    serialForm (.byte dc b) =
      ([7, 6, 5, 4, 3, 2, 1, 0].flatMap fun k =>
        [⟨false, hi, false, some (b.getLsbD k)⟩, ⟨false, hi, true, some (b.getLsbD k)⟩])
        ++ [⟨false, hi, false, none⟩]) ∧
  ∀ s : State,
    s.serialStream.head? = some ⟨true, none, false, none⟩ ∧
    s.serialStream.getLast?.map LineLevels.sck = some false ∧
    (∀ l ∈ s.serialStream, l.cs = true → l.sck = false) ∧
    risingEdges false s.serialStream = s.panel.flatMap eventSamples

/-- Fatal entry appends one record to the debug log, sets the code and `HALT`, goes to `S_HALT` and
touches nothing else; the codes are those of 60_exceptions.md R246 (R250). -/
def Obligations.FatalEntry : Prop :=
  ∀ (s : State) (f : FatalCause) (succ : BitVec 4),
    finishStep succ (.ok (s, some f)) = .next { s with
      debugLog := s.debugLog ++ [f.code], fatalCode := f.code, halt := true, seq := 0xF#4 } ∧
    f.code = match f with
      | .overlayRow => 1#3
      | .patch => 2#3
      | .wipeMin => 3#3

/-! ## The whole machine -/

/-- A deadline changes only in PACE, by exactly one period and with `NOW` at or past it, in INIT, which
sets the first one, and at reset: no deadline is computed from the time a step took
(44_scheduler.md R211, R218). -/
def Obligations.DeadlinesDriftFree : Prop :=
  ∀ s t : State, s.transport = [] → step s = .next t →
    resetComes s ∨ t.deadline = s.deadline ∨
    (s.seq = seqPace ∧ s.deadline.toNat ≤ s.now.toNat ∧
      t.deadline.toNat = s.deadline.toNat + s.cfg.fieldPeriod) ∨
    (s.seq = seqInit ∧ t.deadline.toNat = s.now.toNat + s.cfg.fieldPeriod)

/-- After a fatal no step but reset clears `HALT`, moves the sequencer, frees the semaphore, changes the
code or the log, or puts an event on the panel (44_scheduler.md R212, 60_exceptions.md R252). -/
def Obligations.HaltIsForEver : Prop :=
  ∀ s t : State, CoreInv s → s.halt = true → s.transport = [] → step s = .next t →
    resetComes s ∨
    (t.halt = true ∧ t.seq = seqHalt ∧ t.sem = false ∧ t.dispHolds = true ∧
      t.fatalCode = s.fatalCode ∧ t.debugLog = s.debugLog ∧ t.panel = s.panel ∧ t.fi = s.fi ∧
      t.lum = s.lum ∧ t.field = s.field)

/-- The three error flags stay set until reset (10_state.md R37, 60_exceptions.md R255). -/
def Obligations.ErrorFlagsSticky : Prop :=
  ∀ s t : State, step s = .next t →
    resetComes s ∨
    ((s.errOwn = true → t.errOwn = true) ∧ (s.errAddr = true → t.errAddr = true) ∧
      (s.errCmd = true → t.errCmd = true))

/-- No display micro-operation writes a frame buffer, a row field, `NEXT_*`, `PAL_REQ`, `GAMMA_LEVEL`,
`OV_COUNT`, an error flag, or what belongs to the producer's side of the port (60_exceptions.md R261,
20_memory.md R87). -/
def Obligations.DisplayNeverWritesProducerState : Prop :=
  ∀ (i : Instr) (s t : State), isMicroOp i = true → exec i s = .next t →
    t.fb0 = s.fb0 ∧ t.fb1 = s.fb1 ∧ t.powerUp = s.powerUp ∧
    (∀ o j, rowOf (t.ovSet o) j = rowOf (s.ovSet o) j) ∧
    t.nextVt = s.nextVt ∧ t.nextFb = s.nextFb ∧ t.nextOv = s.nextOv ∧ t.palReq = s.palReq ∧
    t.gammaLevel = s.gammaLevel ∧ t.ovCount = s.ovCount ∧ t.prodHolds = s.prodHolds ∧
    t.errOwn = s.errOwn ∧ t.errAddr = s.errAddr ∧ t.errCmd = s.errCmd ∧ t.port = s.port ∧
    t.pubPhase = s.pubPhase ∧ t.response = s.response ∧ t.now = s.now ∧ t.cfg = s.cfg

/-- No producer command writes `FIELD`, `LUM`, `MINI`, `HEAD`, `WIPE_OFF`, `CUR_*`, `SWEEP_PARITY`,
`DEADLINE`, `SEQ`, `FI`, a link field, `HALT` or the fatal code, or puts an event on the panel
(45_producer_port.md R233). -/
def Obligations.ProducerNeverWritesDisplayState : Prop :=
  ∀ (i : Instr) (s t : State), isCommandOp i = true → exec i s = .next t →
    t.field = s.field ∧ t.lum = s.lum ∧ t.mini = s.mini ∧ t.head = s.head ∧
    t.wipeOff = s.wipeOff ∧ t.curVt = s.curVt ∧ t.curFb = s.curFb ∧ t.curOv = s.curOv ∧
    t.sweepParity = s.sweepParity ∧ t.deadline = s.deadline ∧ t.seq = s.seq ∧ t.fi = s.fi ∧
    (∀ o j, ((t.ovSet o).getD j ⟨0#16, ovNil⟩).next = ((s.ovSet o).getD j ⟨0#16, ovNil⟩).next) ∧
    t.halt = s.halt ∧ t.fatalCode = s.fatalCode ∧ t.debugLog = s.debugLog ∧ t.panel = s.panel ∧
    t.dispHolds = s.dispHolds ∧ t.now = s.now ∧ t.cfg = s.cfg

/-- While a sweep is active no step but reset changes a byte of the buffer being shown, under any
interleaving (20_memory.md R87). -/
def Obligations.FrameStableDuringSweep : Prop :=
  ∀ (s t : State) (a : Nat), s.dispHolds = true → step s = .next t →
    resetComes s ∨ t.readFrame s.curFb a = s.readFrame s.curFb a

/-! ## Invariants -/

/-- Every step keeps the memories canonical and inside their address spaces. -/
def Obligations.StepKeepsMemoryInv : Prop :=
  ∀ s t : State, MemoryInv s → step s = .next t → MemoryInv t

/-- Every step keeps the tables' sizes and the registers' ranges (10_state.md R28 to R32, R43 to
R48, R59). -/
def Obligations.StepKeepsTableInv : Prop :=
  ∀ s t : State, TableInv s → step s = .next t → TableInv t

/-- Every step keeps the sequencer and semaphore invariant: the holder bits and `SEM` (10_state.md
R27), the selection triple during a sweep (20_memory.md R89), the states and field indices of
44_scheduler.md R201, `HALT` with its code and its one log record (60_exceptions.md R252). -/
def Obligations.StepKeepsCoreInv : Prop :=
  ∀ s t : State, CoreInv s → step s = .next t → CoreInv t

/-- Every step keeps the panel stream a sequence of whole transactions, each of one or more bytes with
one data/command level (30_encoding.md R103, 43_display_transport.md R181, R182). -/
def Obligations.StepKeepsPanelFramed : Prop :=
  ∀ s t : State, s.cfg.valid = true → panelFramed s.panel = true → step s = .next t →
    panelFramed t.panel = true ∧ t.cfg = s.cfg

/-- Reset meets every invariant, for all parameters that meet their constraints, every `NOW` and every
power-up content. -/
def Obligations.ResetMeetsInvariants : Prop :=
  ∀ (c : Config) (now : BitVec 64) (k : Nat), c.valid = true →
    let s := State.resetWith c now k
    MemoryInv s ∧ TableInv s ∧ CoreInv s ∧ panelFramed s.panel = true

/-- The state after reset, register by register (10_state.md R60); the frame buffers and overlay records
hold free values (log 5, log 6) and `NOW` is the argument (log 7). -/
def Obligations.ResetState : Prop :=
  ∀ (c : Config) (now : BitVec 64) (k : Nat),
    let s := State.resetWith c now k
    (s.sem = true ∧ s.dispHolds = false ∧ s.prodHolds = false) ∧
    (s.nextVt = 0#8 ∧ s.nextFb = 0#1 ∧ s.nextOv = 0#8) ∧
    (s.curVt = 0#8 ∧ s.curFb = 0#1 ∧ s.curOv = 0#8) ∧
    (s.palReq = 0#8 ∧ s.palPending = false ∧ s.gammaLevel = 0#8 ∧ s.sweepParity = false) ∧
    s.deadline = 0#64 ∧
    (c.wipeT < c.wipeH → s.wipeMin = BitVec.ofNat 16 c.wipeH) ∧
    (c.wipeH ≤ c.wipeT → s.wipeMin = BitVec.ofNat 16 (c.wipeT + 1)) ∧
    (s.halt = false ∧ s.fatalCode = 0#3) ∧
    (s.errOwn = false ∧ s.errAddr = false ∧ s.errCmd = false) ∧
    (s.seq = seqInit ∧ s.fi = 0#2) ∧
    (s.lum.length = 256 ∧ ∀ l ∈ s.lum, l = 0#8) ∧
    (s.mini.length = c.patches.length ∧ ∀ m ∈ s.mini, m = List.replicate 16 0#8) ∧
    (s.head.length = c.ovRows ∧ ∀ h ∈ s.head, h = 0xFFFF#16) ∧
    (s.wipeRaw.length = c.wipeCols ∧ ∀ r ∈ s.wipeRaw, r = BitVec.ofNat 16 c.wipeH) ∧
    (s.wipeOff.length = c.wipeCols ∧ ∀ r ∈ s.wipeOff, r = BitVec.ofNat 16 c.wipeH) ∧
    (s.ovCount.length = c.numOvSets ∧ ∀ n ∈ s.ovCount, n = 0#11) ∧
    (∀ a, s.readField a = 0#8) ∧ s.panel = [] ∧ s.debugLog = [] ∧
    (∀ b a, s.readFrame b a = Config.powerUpByte k b a) ∧
    (∀ o < c.numOvSets, ∀ i < c.ovMax, (s.ovSet o)[i]? =
      some ⟨Config.powerUpRow k o i, Config.powerUpNext k o i⟩) ∧
    s.now = now ∧ s.cfg = c
end

