-- ==== Sys2Proof/Laws/Memory.lean ====
section
/-! SUPPORT. The laws of byte memory: a read after a write, and that every operation keeps the
canonical form. -/

namespace Sys2Proof.Machine

theorem Memory.lookup_insert (m : Memory) (a : Nat) (v : BitVec 8) (k : Nat) :
    Memory.lookup (Memory.insert m a v) k = if k = a then some v else Memory.lookup m k := by
  induction m with
  | nil => simp [Memory.insert, Memory.lookup, eq_comm]
  | cons c rest ih =>
    obtain ⟨j, w⟩ := c
    unfold Memory.insert
    split
    · by_cases h : k = a
      · simp [Memory.lookup, h]
      · have h' : ¬ a = k := fun e => h e.symm
        simp [Memory.lookup, h, h']
    · split
      · subst_vars
        by_cases h : k = j
        · simp [Memory.lookup, h]
        · have h' : ¬ j = k := fun e => h e.symm
          simp [Memory.lookup, h, h']
      · by_cases h : j = k
        · subst h
          have : ¬ j = a := fun e => by simp_all
          simp [Memory.lookup, this]
        · simp [Memory.lookup, h, ih]

/-- The addresses of a memory are all above a bound. -/
def Memory.above (n : Nat) (m : Memory) : Prop := ∀ c ∈ m, n < c.1

theorem Memory.rising_cons (k : Nat) (w : BitVec 8) (m : Memory) :
    Memory.rising ((k, w) :: m) = true ↔ Memory.above k m ∧ Memory.rising m = true := by
  induction m generalizing k w with
  | nil => simp [Memory.rising, Memory.above]
  | cons c rest ih =>
    obtain ⟨j, v⟩ := c
    simp only [Memory.rising, Bool.and_eq_true, decide_eq_true_eq, Memory.above,
      List.forall_mem_cons]
    constructor
    · rintro ⟨h1, h2⟩
      exact ⟨⟨h1, fun c hc => Nat.lt_trans h1 (((ih j v).1 h2).1 c hc)⟩, h2⟩
    · rintro ⟨⟨h1, _⟩, h2⟩
      exact ⟨h1, h2⟩

theorem Memory.lookup_of_above {n : Nat} {m : Memory} (h : Memory.above n m) {k : Nat}
    (hk : k ≤ n) : Memory.lookup m k = none := by
  induction m with
  | nil => rfl
  | cons c rest ih =>
    obtain ⟨j, v⟩ := c
    have hj : n < j := h (j, v) (by simp)
    have : ¬ j = k := by omega
    simp only [Memory.lookup, this, if_false]
    exact ih fun c hc => h c (by simp [hc])

theorem Memory.lookup_erase {m : Memory} (hm : Memory.rising m = true) (a k : Nat) :
    Memory.lookup (Memory.erase m a) k = if k = a then none else Memory.lookup m k := by
  induction m with
  | nil => simp [Memory.erase, Memory.lookup]
  | cons c rest ih =>
    obtain ⟨j, w⟩ := c
    rw [Memory.rising_cons] at hm
    unfold Memory.erase
    by_cases h : j = a
    · subst h
      by_cases hk : k = j
      · subst hk; simp [Memory.lookup_of_above hm.1]
      · have : ¬ j = k := fun e => hk e.symm
        simp [Memory.lookup, hk, this]
    · by_cases hk : j = k
      · subst hk; simp [Memory.lookup, h]
      · simp [Memory.lookup, h, hk, ih hm.2]

theorem Memory.mem_insert {m : Memory} {a : Nat} {v : BitVec 8} {c : Host.Cell}
    (h : c ∈ Memory.insert m a v) : c = (a, v) ∨ c ∈ m := by
  induction m with
  | nil => simpa [Memory.insert] using h
  | cons d rest ih =>
    obtain ⟨j, w⟩ := d
    unfold Memory.insert at h
    split at h
    · simpa using h
    · split at h
      · rcases List.mem_cons.1 h with h | h
        · exact .inl h
        · exact .inr (by simp [h])
      · rcases List.mem_cons.1 h with h | h
        · exact .inr (by simp [h])
        · rcases ih h with h | h
          · exact .inl h
          · exact .inr (by simp [h])

theorem Memory.mem_erase {m : Memory} {a : Nat} {c : Host.Cell} (h : c ∈ Memory.erase m a) :
    c ∈ m := by
  induction m with
  | nil => simp [Memory.erase] at h
  | cons d rest ih =>
    obtain ⟨j, w⟩ := d
    unfold Memory.erase at h
    split at h
    · simp [h]
    · rcases List.mem_cons.1 h with h | h
      · simp [h]
      · simp [ih h]

theorem Memory.rising_insert {m : Memory} (hm : Memory.rising m = true) (a : Nat) (v : BitVec 8) :
    Memory.rising (Memory.insert m a v) = true := by
  induction m with
  | nil => rfl
  | cons d rest ih =>
    obtain ⟨j, w⟩ := d
    have hm' := (Memory.rising_cons j w rest).1 hm
    unfold Memory.insert
    split
    · rename_i h
      rw [Memory.rising_cons]
      refine ⟨fun c hc => ?_, hm⟩
      rcases List.mem_cons.1 hc with e | hc
      · simp [e, h]
      · exact Nat.lt_trans h (hm'.1 c hc)
    · split
      · subst_vars
        rw [Memory.rising_cons]
        exact hm'
      · rename_i h1 h2
        rw [Memory.rising_cons]
        refine ⟨fun c hc => ?_, ih hm'.2⟩
        rcases Memory.mem_insert hc with e | hc
        · simp only [e]; omega
        · exact hm'.1 c hc

theorem Memory.rising_erase {m : Memory} (hm : Memory.rising m = true) (a : Nat) :
    Memory.rising (Memory.erase m a) = true := by
  induction m with
  | nil => rfl
  | cons d rest ih =>
    obtain ⟨j, w⟩ := d
    have hm' := (Memory.rising_cons j w rest).1 hm
    unfold Memory.erase
    split
    · exact hm'.2
    · rw [Memory.rising_cons]
      exact ⟨fun c hc => hm'.1 c (Memory.mem_erase hc), ih hm'.2⟩

theorem Memory.wf_iff (u : Option (BitVec 8)) (n : Nat) (m : Memory) :
    Memory.wf u n m = true ↔
      Memory.rising m = true ∧ ∀ c ∈ m, c.1 < n ∧ u ≠ some c.2 := by
  simp [Memory.wf]

theorem Memory.read_eq (u : Option (BitVec 8)) (m : Memory) (a : Nat) :
    Memory.read u m a = (Memory.lookup m a).or u := by
  unfold Memory.read
  cases Memory.lookup m a <;> rfl

/-- A write inside the memory keeps the canonical form. -/
theorem Memory.wf_write {u : Option (BitVec 8)} {n : Nat} {m : Memory}
    (hm : Memory.wf u n m = true) {a : Nat} (ha : a < n) (v : BitVec 8) :
    Memory.wf u n (Memory.write u m a v) = true := by
  rw [Memory.wf_iff] at hm ⊢
  unfold Memory.write
  split
  · exact ⟨Memory.rising_erase hm.1 a, fun c hc => hm.2 c (Memory.mem_erase hc)⟩
  · rename_i h
    refine ⟨Memory.rising_insert hm.1 a v, fun c hc => ?_⟩
    rcases Memory.mem_insert hc with e | hc
    · subst e; exact ⟨ha, h⟩
    · exact hm.2 c hc

/-- A read after a write, for a memory in canonical form: the byte written at its address, every other
address as before. -/
theorem Memory.read_write {u : Option (BitVec 8)} {n : Nat} {m : Memory}
    (hm : Memory.wf u n m = true) (a k : Nat) (v : BitVec 8) :
    Memory.read u (Memory.write u m a v) k = if k = a then some v else Memory.read u m k := by
  have hr := ((Memory.wf_iff u n m).1 hm).1
  rw [Memory.read_eq, Memory.read_eq]
  unfold Memory.write
  split
  · rename_i h
    rw [Memory.lookup_erase hr]
    by_cases hk : k = a <;> simp [hk, h]
  · rw [Memory.lookup_insert]
    by_cases hk : k = a <;> simp [hk]

/-- A read after a write of a memory whose unlisted addresses read as no byte, canonical or not. -/
theorem Memory.read_write_none (m : Memory) (a k : Nat) (v : BitVec 8) :
    Memory.read none (Memory.write none m a v) k =
      if k = a then some v else Memory.read none m k := by
  rw [Memory.read_eq, Memory.read_eq]
  unfold Memory.write
  rw [if_neg (by simp), Memory.lookup_insert]
  by_cases hk : k = a <;> simp [hk]

theorem Memory.fill_succ (u : Option (BitVec 8)) (n : Nat) (f : Nat → BitVec 8) :
    Memory.fill u (n + 1) f =
      Memory.fill u n f ++ if u = some (f n) then [] else [(n, f n)] := by
  unfold Memory.fill
  rw [List.range_succ, List.filterMap_append]
  by_cases h : u = some (f n) <;> simp [h]

theorem Memory.mem_fill {u : Option (BitVec 8)} {n : Nat} {f : Nat → BitVec 8} {c : Host.Cell} :
    c ∈ Memory.fill u n f ↔ c.1 < n ∧ c.2 = f c.1 ∧ u ≠ some (f c.1) := by
  obtain ⟨k, v⟩ := c
  simp only [Memory.fill, List.mem_filterMap, List.mem_range]
  constructor
  · rintro ⟨j, hj, h⟩
    split at h
    · simp at h
    · rename_i hu
      simp only [Option.some.injEq, Prod.mk.injEq] at h
      obtain ⟨rfl, rfl⟩ := h
      exact ⟨hj, rfl, hu⟩
  · rintro ⟨h1, h2, h3⟩
    exact ⟨k, h1, by rw [if_neg h3, ← h2]⟩

theorem Memory.lookup_append (m m' : Memory) (k : Nat) :
    Memory.lookup (m ++ m') k = match Memory.lookup m k with
      | some v => some v
      | none => Memory.lookup m' k := by
  induction m with
  | nil => rfl
  | cons c rest ih =>
    obtain ⟨j, w⟩ := c
    by_cases h : j = k <;> simp [Memory.lookup, h, ih]

theorem Memory.lookup_fill (u : Option (BitVec 8)) (n : Nat) (f : Nat → BitVec 8) (k : Nat) :
    Memory.lookup (Memory.fill u n f) k =
      if k < n ∧ u ≠ some (f k) then some (f k) else none := by
  induction n with
  | zero => simp [Memory.fill, Memory.lookup]
  | succ n ih =>
    rw [Memory.fill_succ, Memory.lookup_append, ih]
    by_cases hk : k < n
    · have : k < n + 1 := by omega
      have hne : ¬ n = k := by omega
      by_cases hu : u = some (f k)
      · simp only [hk, hu, ne_eq, not_true_eq_false, and_false, if_false]
        split <;> simp [Memory.lookup, hne]
      · simp [hk, hu, this]
    · by_cases he : k = n
      · subst he
        by_cases hu : u = some (f k) <;> simp [Memory.lookup, hu]
      · have : ¬ k < n + 1 := by omega
        have hne : ¬ n = k := by omega
        by_cases hn : u = some (f n) <;> simp [Memory.lookup, hk, this, hn, hne]

/-- Reading a filled memory: the function below its size, nothing listed from there on. -/
theorem Memory.read_fill (u : Option (BitVec 8)) (n : Nat) (f : Nat → BitVec 8) (k : Nat) :
    Memory.read u (Memory.fill u n f) k = if k < n then some (f k) else u := by
  rw [Memory.read_eq, Memory.lookup_fill]
  by_cases hk : k < n <;> by_cases hu : u = some (f k) <;> simp [hk, hu]

theorem Memory.rising_append {m : Memory} (hm : Memory.rising m = true) {k : Nat} {v : BitVec 8}
    (h : ∀ c ∈ m, c.1 < k) : Memory.rising (m ++ [(k, v)]) = true := by
  induction m with
  | nil => rfl
  | cons d rest ih =>
    obtain ⟨j, w⟩ := d
    rw [Memory.rising_cons] at hm
    rw [List.cons_append, Memory.rising_cons]
    refine ⟨fun c hc => ?_, ih hm.2 fun c hc => h c (by simp [hc])⟩
    rcases List.mem_append.1 hc with hc | hc
    · exact hm.1 c hc
    · simp only [List.mem_singleton] at hc
      simpa [hc] using h (j, w) (by simp)

/-- A filled memory has the canonical form. -/
theorem Memory.wf_fill (u : Option (BitVec 8)) (n : Nat) (f : Nat → BitVec 8) :
    Memory.wf u n (Memory.fill u n f) = true := by
  rw [Memory.wf_iff]
  constructor
  · induction n with
    | zero => rfl
    | succ n ih =>
      rw [Memory.fill_succ]
      split
      · simpa using ih
      · exact Memory.rising_append ih fun c hc => (Memory.mem_fill.1 hc).1
  · intro c hc
    obtain ⟨h1, h2, h3⟩ := Memory.mem_fill.1 hc
    exact ⟨h1, by rw [h2]; exact h3⟩

/-- The memories of the reset state have the canonical form. -/
theorem Memory.wf_nil (u : Option (BitVec 8)) (n : Nat) : Memory.wf u n [] = true := rfl

/-- The memories of `State.reset` have the canonical form. -/
theorem reset_memory_wf :
    Memory.wf (Space.unlisted (.frame 0#1)) (State.reset.cfg.srcW * State.reset.cfg.srcH)
        State.reset.fb0 = true ∧
      Memory.wf (Space.unlisted (.frame 1#1)) (State.reset.cfg.srcW * State.reset.cfg.srcH)
        State.reset.fb1 = true ∧
      ∀ n, Memory.wf (Space.unlisted .field) n State.reset.field = true :=
  ⟨rfl, rfl, fun _ => rfl⟩

end Sys2Proof.Machine
end

