-- ==== Sys2Proof/Laws/State.lean ====
section
/-! SUPPORT. One lemma per field per named update of the state, so that no later proof unfolds a record
update. -/

namespace Sys2Proof.Machine

/-! ## setSeq -/

@[simp] theorem State.setSeq_cfg (s : State) (c : BitVec 4) :
    (s.setSeq c).cfg = s.cfg := rfl
@[simp] theorem State.setSeq_sem (s : State) (c : BitVec 4) :
    (s.setSeq c).sem = s.sem := rfl
@[simp] theorem State.setSeq_dispHolds (s : State) (c : BitVec 4) :
    (s.setSeq c).dispHolds = s.dispHolds := rfl
@[simp] theorem State.setSeq_prodHolds (s : State) (c : BitVec 4) :
    (s.setSeq c).prodHolds = s.prodHolds := rfl
@[simp] theorem State.setSeq_nextVt (s : State) (c : BitVec 4) :
    (s.setSeq c).nextVt = s.nextVt := rfl
@[simp] theorem State.setSeq_nextFb (s : State) (c : BitVec 4) :
    (s.setSeq c).nextFb = s.nextFb := rfl
@[simp] theorem State.setSeq_nextOv (s : State) (c : BitVec 4) :
    (s.setSeq c).nextOv = s.nextOv := rfl
@[simp] theorem State.setSeq_curVt (s : State) (c : BitVec 4) :
    (s.setSeq c).curVt = s.curVt := rfl
@[simp] theorem State.setSeq_curFb (s : State) (c : BitVec 4) :
    (s.setSeq c).curFb = s.curFb := rfl
@[simp] theorem State.setSeq_curOv (s : State) (c : BitVec 4) :
    (s.setSeq c).curOv = s.curOv := rfl
@[simp] theorem State.setSeq_palReq (s : State) (c : BitVec 4) :
    (s.setSeq c).palReq = s.palReq := rfl
@[simp] theorem State.setSeq_palPending (s : State) (c : BitVec 4) :
    (s.setSeq c).palPending = s.palPending := rfl
@[simp] theorem State.setSeq_gammaLevel (s : State) (c : BitVec 4) :
    (s.setSeq c).gammaLevel = s.gammaLevel := rfl
@[simp] theorem State.setSeq_sweepParity (s : State) (c : BitVec 4) :
    (s.setSeq c).sweepParity = s.sweepParity := rfl
@[simp] theorem State.setSeq_deadline (s : State) (c : BitVec 4) :
    (s.setSeq c).deadline = s.deadline := rfl
@[simp] theorem State.setSeq_wipeMin (s : State) (c : BitVec 4) :
    (s.setSeq c).wipeMin = s.wipeMin := rfl
@[simp] theorem State.setSeq_halt (s : State) (c : BitVec 4) :
    (s.setSeq c).halt = s.halt := rfl
@[simp] theorem State.setSeq_fatalCode (s : State) (c : BitVec 4) :
    (s.setSeq c).fatalCode = s.fatalCode := rfl
@[simp] theorem State.setSeq_errOwn (s : State) (c : BitVec 4) :
    (s.setSeq c).errOwn = s.errOwn := rfl
@[simp] theorem State.setSeq_errAddr (s : State) (c : BitVec 4) :
    (s.setSeq c).errAddr = s.errAddr := rfl
@[simp] theorem State.setSeq_errCmd (s : State) (c : BitVec 4) :
    (s.setSeq c).errCmd = s.errCmd := rfl
@[simp] theorem State.setSeq_seq (s : State) (c : BitVec 4) :
    (s.setSeq c).seq = c := rfl
@[simp] theorem State.setSeq_fi (s : State) (c : BitVec 4) :
    (s.setSeq c).fi = s.fi := rfl
@[simp] theorem State.setSeq_lum (s : State) (c : BitVec 4) :
    (s.setSeq c).lum = s.lum := rfl
@[simp] theorem State.setSeq_mini (s : State) (c : BitVec 4) :
    (s.setSeq c).mini = s.mini := rfl
@[simp] theorem State.setSeq_head (s : State) (c : BitVec 4) :
    (s.setSeq c).head = s.head := rfl
@[simp] theorem State.setSeq_wipeRaw (s : State) (c : BitVec 4) :
    (s.setSeq c).wipeRaw = s.wipeRaw := rfl
@[simp] theorem State.setSeq_wipeOff (s : State) (c : BitVec 4) :
    (s.setSeq c).wipeOff = s.wipeOff := rfl
@[simp] theorem State.setSeq_ovCount (s : State) (c : BitVec 4) :
    (s.setSeq c).ovCount = s.ovCount := rfl
@[simp] theorem State.setSeq_now (s : State) (c : BitVec 4) :
    (s.setSeq c).now = s.now := rfl
@[simp] theorem State.setSeq_panel (s : State) (c : BitVec 4) :
    (s.setSeq c).panel = s.panel := rfl
@[simp] theorem State.setSeq_debugLog (s : State) (c : BitVec 4) :
    (s.setSeq c).debugLog = s.debugLog := rfl
@[simp] theorem State.setSeq_fb0 (s : State) (c : BitVec 4) :
    (s.setSeq c).fb0 = s.fb0 := rfl
@[simp] theorem State.setSeq_fb1 (s : State) (c : BitVec 4) :
    (s.setSeq c).fb1 = s.fb1 := rfl
@[simp] theorem State.setSeq_field (s : State) (c : BitVec 4) :
    (s.setSeq c).field = s.field := rfl
@[simp] theorem State.setSeq_ovrec (s : State) (c : BitVec 4) :
    (s.setSeq c).ovrec = s.ovrec := rfl
@[simp] theorem State.setSeq_port (s : State) (c : BitVec 4) :
    (s.setSeq c).port = s.port := rfl
@[simp] theorem State.setSeq_pubPhase (s : State) (c : BitVec 4) :
    (s.setSeq c).pubPhase = s.pubPhase := rfl
@[simp] theorem State.setSeq_response (s : State) (c : BitVec 4) :
    (s.setSeq c).response = s.response := rfl
@[simp] theorem State.setSeq_commands (s : State) (c : BitVec 4) :
    (s.setSeq c).commands = s.commands := rfl
@[simp] theorem State.setSeq_turns (s : State) (c : BitVec 4) :
    (s.setSeq c).turns = s.turns := rfl
@[simp] theorem State.setSeq_transport (s : State) (c : BitVec 4) :
    (s.setSeq c).transport = s.transport := rfl
@[simp] theorem State.setSeq_powerUp (s : State) (c : BitVec 4) :
    (s.setSeq c).powerUp = s.powerUp := rfl
@[simp] theorem State.setSeq_freeCount (s : State) (c : BitVec 4) :
    (s.setSeq c).freeCount = s.freeCount := rfl

/-! ## respond -/

@[simp] theorem State.respond_cfg (s : State) (st : BitVec 2) (d : BitVec 32) :
    (s.respond st d).cfg = s.cfg := rfl
@[simp] theorem State.respond_sem (s : State) (st : BitVec 2) (d : BitVec 32) :
    (s.respond st d).sem = s.sem := rfl
@[simp] theorem State.respond_dispHolds (s : State) (st : BitVec 2) (d : BitVec 32) :
    (s.respond st d).dispHolds = s.dispHolds := rfl
@[simp] theorem State.respond_prodHolds (s : State) (st : BitVec 2) (d : BitVec 32) :
    (s.respond st d).prodHolds = s.prodHolds := rfl
@[simp] theorem State.respond_nextVt (s : State) (st : BitVec 2) (d : BitVec 32) :
    (s.respond st d).nextVt = s.nextVt := rfl
@[simp] theorem State.respond_nextFb (s : State) (st : BitVec 2) (d : BitVec 32) :
    (s.respond st d).nextFb = s.nextFb := rfl
@[simp] theorem State.respond_nextOv (s : State) (st : BitVec 2) (d : BitVec 32) :
    (s.respond st d).nextOv = s.nextOv := rfl
@[simp] theorem State.respond_curVt (s : State) (st : BitVec 2) (d : BitVec 32) :
    (s.respond st d).curVt = s.curVt := rfl
@[simp] theorem State.respond_curFb (s : State) (st : BitVec 2) (d : BitVec 32) :
    (s.respond st d).curFb = s.curFb := rfl
@[simp] theorem State.respond_curOv (s : State) (st : BitVec 2) (d : BitVec 32) :
    (s.respond st d).curOv = s.curOv := rfl
@[simp] theorem State.respond_palReq (s : State) (st : BitVec 2) (d : BitVec 32) :
    (s.respond st d).palReq = s.palReq := rfl
@[simp] theorem State.respond_palPending (s : State) (st : BitVec 2) (d : BitVec 32) :
    (s.respond st d).palPending = s.palPending := rfl
@[simp] theorem State.respond_gammaLevel (s : State) (st : BitVec 2) (d : BitVec 32) :
    (s.respond st d).gammaLevel = s.gammaLevel := rfl
@[simp] theorem State.respond_sweepParity (s : State) (st : BitVec 2) (d : BitVec 32) :
    (s.respond st d).sweepParity = s.sweepParity := rfl
@[simp] theorem State.respond_deadline (s : State) (st : BitVec 2) (d : BitVec 32) :
    (s.respond st d).deadline = s.deadline := rfl
@[simp] theorem State.respond_wipeMin (s : State) (st : BitVec 2) (d : BitVec 32) :
    (s.respond st d).wipeMin = s.wipeMin := rfl
@[simp] theorem State.respond_halt (s : State) (st : BitVec 2) (d : BitVec 32) :
    (s.respond st d).halt = s.halt := rfl
@[simp] theorem State.respond_fatalCode (s : State) (st : BitVec 2) (d : BitVec 32) :
    (s.respond st d).fatalCode = s.fatalCode := rfl
@[simp] theorem State.respond_errOwn (s : State) (st : BitVec 2) (d : BitVec 32) :
    (s.respond st d).errOwn = s.errOwn := rfl
@[simp] theorem State.respond_errAddr (s : State) (st : BitVec 2) (d : BitVec 32) :
    (s.respond st d).errAddr = s.errAddr := rfl
@[simp] theorem State.respond_errCmd (s : State) (st : BitVec 2) (d : BitVec 32) :
    (s.respond st d).errCmd = s.errCmd := rfl
@[simp] theorem State.respond_seq (s : State) (st : BitVec 2) (d : BitVec 32) :
    (s.respond st d).seq = s.seq := rfl
@[simp] theorem State.respond_fi (s : State) (st : BitVec 2) (d : BitVec 32) :
    (s.respond st d).fi = s.fi := rfl
@[simp] theorem State.respond_lum (s : State) (st : BitVec 2) (d : BitVec 32) :
    (s.respond st d).lum = s.lum := rfl
@[simp] theorem State.respond_mini (s : State) (st : BitVec 2) (d : BitVec 32) :
    (s.respond st d).mini = s.mini := rfl
@[simp] theorem State.respond_head (s : State) (st : BitVec 2) (d : BitVec 32) :
    (s.respond st d).head = s.head := rfl
@[simp] theorem State.respond_wipeRaw (s : State) (st : BitVec 2) (d : BitVec 32) :
    (s.respond st d).wipeRaw = s.wipeRaw := rfl
@[simp] theorem State.respond_wipeOff (s : State) (st : BitVec 2) (d : BitVec 32) :
    (s.respond st d).wipeOff = s.wipeOff := rfl
@[simp] theorem State.respond_ovCount (s : State) (st : BitVec 2) (d : BitVec 32) :
    (s.respond st d).ovCount = s.ovCount := rfl
@[simp] theorem State.respond_now (s : State) (st : BitVec 2) (d : BitVec 32) :
    (s.respond st d).now = s.now := rfl
@[simp] theorem State.respond_panel (s : State) (st : BitVec 2) (d : BitVec 32) :
    (s.respond st d).panel = s.panel := rfl
@[simp] theorem State.respond_debugLog (s : State) (st : BitVec 2) (d : BitVec 32) :
    (s.respond st d).debugLog = s.debugLog := rfl
@[simp] theorem State.respond_fb0 (s : State) (st : BitVec 2) (d : BitVec 32) :
    (s.respond st d).fb0 = s.fb0 := rfl
@[simp] theorem State.respond_fb1 (s : State) (st : BitVec 2) (d : BitVec 32) :
    (s.respond st d).fb1 = s.fb1 := rfl
@[simp] theorem State.respond_field (s : State) (st : BitVec 2) (d : BitVec 32) :
    (s.respond st d).field = s.field := rfl
@[simp] theorem State.respond_ovrec (s : State) (st : BitVec 2) (d : BitVec 32) :
    (s.respond st d).ovrec = s.ovrec := rfl
@[simp] theorem State.respond_port (s : State) (st : BitVec 2) (d : BitVec 32) :
    (s.respond st d).port = none := rfl
@[simp] theorem State.respond_pubPhase (s : State) (st : BitVec 2) (d : BitVec 32) :
    (s.respond st d).pubPhase = s.pubPhase := rfl
@[simp] theorem State.respond_response (s : State) (st : BitVec 2) (d : BitVec 32) :
    (s.respond st d).response = some ⟨st, d⟩ := rfl
@[simp] theorem State.respond_commands (s : State) (st : BitVec 2) (d : BitVec 32) :
    (s.respond st d).commands = s.commands := rfl
@[simp] theorem State.respond_turns (s : State) (st : BitVec 2) (d : BitVec 32) :
    (s.respond st d).turns = s.turns := rfl
@[simp] theorem State.respond_transport (s : State) (st : BitVec 2) (d : BitVec 32) :
    (s.respond st d).transport = s.transport := rfl
@[simp] theorem State.respond_powerUp (s : State) (st : BitVec 2) (d : BitVec 32) :
    (s.respond st d).powerUp = s.powerUp := rfl
@[simp] theorem State.respond_freeCount (s : State) (st : BitVec 2) (d : BitVec 32) :
    (s.respond st d).freeCount = s.freeCount := rfl

/-! ## fatal -/

@[simp] theorem State.fatal_cfg (s : State) (f : FatalCause) :
    (s.fatal f).cfg = s.cfg := rfl
@[simp] theorem State.fatal_sem (s : State) (f : FatalCause) :
    (s.fatal f).sem = s.sem := rfl
@[simp] theorem State.fatal_dispHolds (s : State) (f : FatalCause) :
    (s.fatal f).dispHolds = s.dispHolds := rfl
@[simp] theorem State.fatal_prodHolds (s : State) (f : FatalCause) :
    (s.fatal f).prodHolds = s.prodHolds := rfl
@[simp] theorem State.fatal_nextVt (s : State) (f : FatalCause) :
    (s.fatal f).nextVt = s.nextVt := rfl
@[simp] theorem State.fatal_nextFb (s : State) (f : FatalCause) :
    (s.fatal f).nextFb = s.nextFb := rfl
@[simp] theorem State.fatal_nextOv (s : State) (f : FatalCause) :
    (s.fatal f).nextOv = s.nextOv := rfl
@[simp] theorem State.fatal_curVt (s : State) (f : FatalCause) :
    (s.fatal f).curVt = s.curVt := rfl
@[simp] theorem State.fatal_curFb (s : State) (f : FatalCause) :
    (s.fatal f).curFb = s.curFb := rfl
@[simp] theorem State.fatal_curOv (s : State) (f : FatalCause) :
    (s.fatal f).curOv = s.curOv := rfl
@[simp] theorem State.fatal_palReq (s : State) (f : FatalCause) :
    (s.fatal f).palReq = s.palReq := rfl
@[simp] theorem State.fatal_palPending (s : State) (f : FatalCause) :
    (s.fatal f).palPending = s.palPending := rfl
@[simp] theorem State.fatal_gammaLevel (s : State) (f : FatalCause) :
    (s.fatal f).gammaLevel = s.gammaLevel := rfl
@[simp] theorem State.fatal_sweepParity (s : State) (f : FatalCause) :
    (s.fatal f).sweepParity = s.sweepParity := rfl
@[simp] theorem State.fatal_deadline (s : State) (f : FatalCause) :
    (s.fatal f).deadline = s.deadline := rfl
@[simp] theorem State.fatal_wipeMin (s : State) (f : FatalCause) :
    (s.fatal f).wipeMin = s.wipeMin := rfl
@[simp] theorem State.fatal_halt (s : State) (f : FatalCause) :
    (s.fatal f).halt = true := rfl
@[simp] theorem State.fatal_fatalCode (s : State) (f : FatalCause) :
    (s.fatal f).fatalCode = f.code := rfl
@[simp] theorem State.fatal_errOwn (s : State) (f : FatalCause) :
    (s.fatal f).errOwn = s.errOwn := rfl
@[simp] theorem State.fatal_errAddr (s : State) (f : FatalCause) :
    (s.fatal f).errAddr = s.errAddr := rfl
@[simp] theorem State.fatal_errCmd (s : State) (f : FatalCause) :
    (s.fatal f).errCmd = s.errCmd := rfl
@[simp] theorem State.fatal_seq (s : State) (f : FatalCause) :
    (s.fatal f).seq = seqHalt := rfl
@[simp] theorem State.fatal_fi (s : State) (f : FatalCause) :
    (s.fatal f).fi = s.fi := rfl
@[simp] theorem State.fatal_lum (s : State) (f : FatalCause) :
    (s.fatal f).lum = s.lum := rfl
@[simp] theorem State.fatal_mini (s : State) (f : FatalCause) :
    (s.fatal f).mini = s.mini := rfl
@[simp] theorem State.fatal_head (s : State) (f : FatalCause) :
    (s.fatal f).head = s.head := rfl
@[simp] theorem State.fatal_wipeRaw (s : State) (f : FatalCause) :
    (s.fatal f).wipeRaw = s.wipeRaw := rfl
@[simp] theorem State.fatal_wipeOff (s : State) (f : FatalCause) :
    (s.fatal f).wipeOff = s.wipeOff := rfl
@[simp] theorem State.fatal_ovCount (s : State) (f : FatalCause) :
    (s.fatal f).ovCount = s.ovCount := rfl
@[simp] theorem State.fatal_now (s : State) (f : FatalCause) :
    (s.fatal f).now = s.now := rfl
@[simp] theorem State.fatal_panel (s : State) (f : FatalCause) :
    (s.fatal f).panel = s.panel := rfl
@[simp] theorem State.fatal_debugLog (s : State) (f : FatalCause) :
    (s.fatal f).debugLog = s.debugLog ++ [f.code] := rfl
@[simp] theorem State.fatal_fb0 (s : State) (f : FatalCause) :
    (s.fatal f).fb0 = s.fb0 := rfl
@[simp] theorem State.fatal_fb1 (s : State) (f : FatalCause) :
    (s.fatal f).fb1 = s.fb1 := rfl
@[simp] theorem State.fatal_field (s : State) (f : FatalCause) :
    (s.fatal f).field = s.field := rfl
@[simp] theorem State.fatal_ovrec (s : State) (f : FatalCause) :
    (s.fatal f).ovrec = s.ovrec := rfl
@[simp] theorem State.fatal_port (s : State) (f : FatalCause) :
    (s.fatal f).port = s.port := rfl
@[simp] theorem State.fatal_pubPhase (s : State) (f : FatalCause) :
    (s.fatal f).pubPhase = s.pubPhase := rfl
@[simp] theorem State.fatal_response (s : State) (f : FatalCause) :
    (s.fatal f).response = s.response := rfl
@[simp] theorem State.fatal_commands (s : State) (f : FatalCause) :
    (s.fatal f).commands = s.commands := rfl
@[simp] theorem State.fatal_turns (s : State) (f : FatalCause) :
    (s.fatal f).turns = s.turns := rfl
@[simp] theorem State.fatal_transport (s : State) (f : FatalCause) :
    (s.fatal f).transport = s.transport := rfl
@[simp] theorem State.fatal_powerUp (s : State) (f : FatalCause) :
    (s.fatal f).powerUp = s.powerUp := rfl
@[simp] theorem State.fatal_freeCount (s : State) (f : FatalCause) :
    (s.fatal f).freeCount = s.freeCount := rfl

/-! ## acquireDisplay -/

@[simp] theorem State.acquireDisplay_cfg (s : State) :
    (s.acquireDisplay).cfg = s.cfg := rfl
@[simp] theorem State.acquireDisplay_sem (s : State) :
    (s.acquireDisplay).sem = false := rfl
@[simp] theorem State.acquireDisplay_dispHolds (s : State) :
    (s.acquireDisplay).dispHolds = true := rfl
@[simp] theorem State.acquireDisplay_prodHolds (s : State) :
    (s.acquireDisplay).prodHolds = s.prodHolds := rfl
@[simp] theorem State.acquireDisplay_nextVt (s : State) :
    (s.acquireDisplay).nextVt = s.nextVt := rfl
@[simp] theorem State.acquireDisplay_nextFb (s : State) :
    (s.acquireDisplay).nextFb = s.nextFb := rfl
@[simp] theorem State.acquireDisplay_nextOv (s : State) :
    (s.acquireDisplay).nextOv = s.nextOv := rfl
@[simp] theorem State.acquireDisplay_curVt (s : State) :
    (s.acquireDisplay).curVt = s.curVt := rfl
@[simp] theorem State.acquireDisplay_curFb (s : State) :
    (s.acquireDisplay).curFb = s.curFb := rfl
@[simp] theorem State.acquireDisplay_curOv (s : State) :
    (s.acquireDisplay).curOv = s.curOv := rfl
@[simp] theorem State.acquireDisplay_palReq (s : State) :
    (s.acquireDisplay).palReq = s.palReq := rfl
@[simp] theorem State.acquireDisplay_palPending (s : State) :
    (s.acquireDisplay).palPending = s.palPending := rfl
@[simp] theorem State.acquireDisplay_gammaLevel (s : State) :
    (s.acquireDisplay).gammaLevel = s.gammaLevel := rfl
@[simp] theorem State.acquireDisplay_sweepParity (s : State) :
    (s.acquireDisplay).sweepParity = s.sweepParity := rfl
@[simp] theorem State.acquireDisplay_deadline (s : State) :
    (s.acquireDisplay).deadline = s.deadline := rfl
@[simp] theorem State.acquireDisplay_wipeMin (s : State) :
    (s.acquireDisplay).wipeMin = s.wipeMin := rfl
@[simp] theorem State.acquireDisplay_halt (s : State) :
    (s.acquireDisplay).halt = s.halt := rfl
@[simp] theorem State.acquireDisplay_fatalCode (s : State) :
    (s.acquireDisplay).fatalCode = s.fatalCode := rfl
@[simp] theorem State.acquireDisplay_errOwn (s : State) :
    (s.acquireDisplay).errOwn = s.errOwn := rfl
@[simp] theorem State.acquireDisplay_errAddr (s : State) :
    (s.acquireDisplay).errAddr = s.errAddr := rfl
@[simp] theorem State.acquireDisplay_errCmd (s : State) :
    (s.acquireDisplay).errCmd = s.errCmd := rfl
@[simp] theorem State.acquireDisplay_seq (s : State) :
    (s.acquireDisplay).seq = s.seq := rfl
@[simp] theorem State.acquireDisplay_fi (s : State) :
    (s.acquireDisplay).fi = s.fi := rfl
@[simp] theorem State.acquireDisplay_lum (s : State) :
    (s.acquireDisplay).lum = s.lum := rfl
@[simp] theorem State.acquireDisplay_mini (s : State) :
    (s.acquireDisplay).mini = s.mini := rfl
@[simp] theorem State.acquireDisplay_head (s : State) :
    (s.acquireDisplay).head = s.head := rfl
@[simp] theorem State.acquireDisplay_wipeRaw (s : State) :
    (s.acquireDisplay).wipeRaw = s.wipeRaw := rfl
@[simp] theorem State.acquireDisplay_wipeOff (s : State) :
    (s.acquireDisplay).wipeOff = s.wipeOff := rfl
@[simp] theorem State.acquireDisplay_ovCount (s : State) :
    (s.acquireDisplay).ovCount = s.ovCount := rfl
@[simp] theorem State.acquireDisplay_now (s : State) :
    (s.acquireDisplay).now = s.now := rfl
@[simp] theorem State.acquireDisplay_panel (s : State) :
    (s.acquireDisplay).panel = s.panel := rfl
@[simp] theorem State.acquireDisplay_debugLog (s : State) :
    (s.acquireDisplay).debugLog = s.debugLog := rfl
@[simp] theorem State.acquireDisplay_fb0 (s : State) :
    (s.acquireDisplay).fb0 = s.fb0 := rfl
@[simp] theorem State.acquireDisplay_fb1 (s : State) :
    (s.acquireDisplay).fb1 = s.fb1 := rfl
@[simp] theorem State.acquireDisplay_field (s : State) :
    (s.acquireDisplay).field = s.field := rfl
@[simp] theorem State.acquireDisplay_ovrec (s : State) :
    (s.acquireDisplay).ovrec = s.ovrec := rfl
@[simp] theorem State.acquireDisplay_port (s : State) :
    (s.acquireDisplay).port = s.port := rfl
@[simp] theorem State.acquireDisplay_pubPhase (s : State) :
    (s.acquireDisplay).pubPhase = s.pubPhase := rfl
@[simp] theorem State.acquireDisplay_response (s : State) :
    (s.acquireDisplay).response = s.response := rfl
@[simp] theorem State.acquireDisplay_commands (s : State) :
    (s.acquireDisplay).commands = s.commands := rfl
@[simp] theorem State.acquireDisplay_turns (s : State) :
    (s.acquireDisplay).turns = s.turns := rfl
@[simp] theorem State.acquireDisplay_transport (s : State) :
    (s.acquireDisplay).transport = s.transport := rfl
@[simp] theorem State.acquireDisplay_powerUp (s : State) :
    (s.acquireDisplay).powerUp = s.powerUp := rfl
@[simp] theorem State.acquireDisplay_freeCount (s : State) :
    (s.acquireDisplay).freeCount = s.freeCount := rfl

/-! ## releaseDisplay -/

@[simp] theorem State.releaseDisplay_cfg (s : State) :
    (s.releaseDisplay).cfg = s.cfg := rfl
@[simp] theorem State.releaseDisplay_sem (s : State) :
    (s.releaseDisplay).sem = true := rfl
@[simp] theorem State.releaseDisplay_dispHolds (s : State) :
    (s.releaseDisplay).dispHolds = false := rfl
@[simp] theorem State.releaseDisplay_prodHolds (s : State) :
    (s.releaseDisplay).prodHolds = s.prodHolds := rfl
@[simp] theorem State.releaseDisplay_nextVt (s : State) :
    (s.releaseDisplay).nextVt = s.nextVt := rfl
@[simp] theorem State.releaseDisplay_nextFb (s : State) :
    (s.releaseDisplay).nextFb = s.nextFb := rfl
@[simp] theorem State.releaseDisplay_nextOv (s : State) :
    (s.releaseDisplay).nextOv = s.nextOv := rfl
@[simp] theorem State.releaseDisplay_curVt (s : State) :
    (s.releaseDisplay).curVt = s.curVt := rfl
@[simp] theorem State.releaseDisplay_curFb (s : State) :
    (s.releaseDisplay).curFb = s.curFb := rfl
@[simp] theorem State.releaseDisplay_curOv (s : State) :
    (s.releaseDisplay).curOv = s.curOv := rfl
@[simp] theorem State.releaseDisplay_palReq (s : State) :
    (s.releaseDisplay).palReq = s.palReq := rfl
@[simp] theorem State.releaseDisplay_palPending (s : State) :
    (s.releaseDisplay).palPending = s.palPending := rfl
@[simp] theorem State.releaseDisplay_gammaLevel (s : State) :
    (s.releaseDisplay).gammaLevel = s.gammaLevel := rfl
@[simp] theorem State.releaseDisplay_sweepParity (s : State) :
    (s.releaseDisplay).sweepParity = s.sweepParity := rfl
@[simp] theorem State.releaseDisplay_deadline (s : State) :
    (s.releaseDisplay).deadline = s.deadline := rfl
@[simp] theorem State.releaseDisplay_wipeMin (s : State) :
    (s.releaseDisplay).wipeMin = s.wipeMin := rfl
@[simp] theorem State.releaseDisplay_halt (s : State) :
    (s.releaseDisplay).halt = s.halt := rfl
@[simp] theorem State.releaseDisplay_fatalCode (s : State) :
    (s.releaseDisplay).fatalCode = s.fatalCode := rfl
@[simp] theorem State.releaseDisplay_errOwn (s : State) :
    (s.releaseDisplay).errOwn = s.errOwn := rfl
@[simp] theorem State.releaseDisplay_errAddr (s : State) :
    (s.releaseDisplay).errAddr = s.errAddr := rfl
@[simp] theorem State.releaseDisplay_errCmd (s : State) :
    (s.releaseDisplay).errCmd = s.errCmd := rfl
@[simp] theorem State.releaseDisplay_seq (s : State) :
    (s.releaseDisplay).seq = s.seq := rfl
@[simp] theorem State.releaseDisplay_fi (s : State) :
    (s.releaseDisplay).fi = s.fi := rfl
@[simp] theorem State.releaseDisplay_lum (s : State) :
    (s.releaseDisplay).lum = s.lum := rfl
@[simp] theorem State.releaseDisplay_mini (s : State) :
    (s.releaseDisplay).mini = s.mini := rfl
@[simp] theorem State.releaseDisplay_head (s : State) :
    (s.releaseDisplay).head = s.head := rfl
@[simp] theorem State.releaseDisplay_wipeRaw (s : State) :
    (s.releaseDisplay).wipeRaw = s.wipeRaw := rfl
@[simp] theorem State.releaseDisplay_wipeOff (s : State) :
    (s.releaseDisplay).wipeOff = s.wipeOff := rfl
@[simp] theorem State.releaseDisplay_ovCount (s : State) :
    (s.releaseDisplay).ovCount = s.ovCount := rfl
@[simp] theorem State.releaseDisplay_now (s : State) :
    (s.releaseDisplay).now = s.now := rfl
@[simp] theorem State.releaseDisplay_panel (s : State) :
    (s.releaseDisplay).panel = s.panel := rfl
@[simp] theorem State.releaseDisplay_debugLog (s : State) :
    (s.releaseDisplay).debugLog = s.debugLog := rfl
@[simp] theorem State.releaseDisplay_fb0 (s : State) :
    (s.releaseDisplay).fb0 = s.fb0 := rfl
@[simp] theorem State.releaseDisplay_fb1 (s : State) :
    (s.releaseDisplay).fb1 = s.fb1 := rfl
@[simp] theorem State.releaseDisplay_field (s : State) :
    (s.releaseDisplay).field = s.field := rfl
@[simp] theorem State.releaseDisplay_ovrec (s : State) :
    (s.releaseDisplay).ovrec = s.ovrec := rfl
@[simp] theorem State.releaseDisplay_port (s : State) :
    (s.releaseDisplay).port = s.port := rfl
@[simp] theorem State.releaseDisplay_pubPhase (s : State) :
    (s.releaseDisplay).pubPhase = s.pubPhase := rfl
@[simp] theorem State.releaseDisplay_response (s : State) :
    (s.releaseDisplay).response = s.response := rfl
@[simp] theorem State.releaseDisplay_commands (s : State) :
    (s.releaseDisplay).commands = s.commands := rfl
@[simp] theorem State.releaseDisplay_turns (s : State) :
    (s.releaseDisplay).turns = s.turns := rfl
@[simp] theorem State.releaseDisplay_transport (s : State) :
    (s.releaseDisplay).transport = s.transport := rfl
@[simp] theorem State.releaseDisplay_powerUp (s : State) :
    (s.releaseDisplay).powerUp = s.powerUp := rfl
@[simp] theorem State.releaseDisplay_freeCount (s : State) :
    (s.releaseDisplay).freeCount = s.freeCount := rfl

/-! ## acquireProducer -/

@[simp] theorem State.acquireProducer_cfg (s : State) :
    (s.acquireProducer).cfg = s.cfg := rfl
@[simp] theorem State.acquireProducer_sem (s : State) :
    (s.acquireProducer).sem = false := rfl
@[simp] theorem State.acquireProducer_dispHolds (s : State) :
    (s.acquireProducer).dispHolds = s.dispHolds := rfl
@[simp] theorem State.acquireProducer_prodHolds (s : State) :
    (s.acquireProducer).prodHolds = true := rfl
@[simp] theorem State.acquireProducer_nextVt (s : State) :
    (s.acquireProducer).nextVt = s.nextVt := rfl
@[simp] theorem State.acquireProducer_nextFb (s : State) :
    (s.acquireProducer).nextFb = s.nextFb := rfl
@[simp] theorem State.acquireProducer_nextOv (s : State) :
    (s.acquireProducer).nextOv = s.nextOv := rfl
@[simp] theorem State.acquireProducer_curVt (s : State) :
    (s.acquireProducer).curVt = s.curVt := rfl
@[simp] theorem State.acquireProducer_curFb (s : State) :
    (s.acquireProducer).curFb = s.curFb := rfl
@[simp] theorem State.acquireProducer_curOv (s : State) :
    (s.acquireProducer).curOv = s.curOv := rfl
@[simp] theorem State.acquireProducer_palReq (s : State) :
    (s.acquireProducer).palReq = s.palReq := rfl
@[simp] theorem State.acquireProducer_palPending (s : State) :
    (s.acquireProducer).palPending = s.palPending := rfl
@[simp] theorem State.acquireProducer_gammaLevel (s : State) :
    (s.acquireProducer).gammaLevel = s.gammaLevel := rfl
@[simp] theorem State.acquireProducer_sweepParity (s : State) :
    (s.acquireProducer).sweepParity = s.sweepParity := rfl
@[simp] theorem State.acquireProducer_deadline (s : State) :
    (s.acquireProducer).deadline = s.deadline := rfl
@[simp] theorem State.acquireProducer_wipeMin (s : State) :
    (s.acquireProducer).wipeMin = s.wipeMin := rfl
@[simp] theorem State.acquireProducer_halt (s : State) :
    (s.acquireProducer).halt = s.halt := rfl
@[simp] theorem State.acquireProducer_fatalCode (s : State) :
    (s.acquireProducer).fatalCode = s.fatalCode := rfl
@[simp] theorem State.acquireProducer_errOwn (s : State) :
    (s.acquireProducer).errOwn = s.errOwn := rfl
@[simp] theorem State.acquireProducer_errAddr (s : State) :
    (s.acquireProducer).errAddr = s.errAddr := rfl
@[simp] theorem State.acquireProducer_errCmd (s : State) :
    (s.acquireProducer).errCmd = s.errCmd := rfl
@[simp] theorem State.acquireProducer_seq (s : State) :
    (s.acquireProducer).seq = s.seq := rfl
@[simp] theorem State.acquireProducer_fi (s : State) :
    (s.acquireProducer).fi = s.fi := rfl
@[simp] theorem State.acquireProducer_lum (s : State) :
    (s.acquireProducer).lum = s.lum := rfl
@[simp] theorem State.acquireProducer_mini (s : State) :
    (s.acquireProducer).mini = s.mini := rfl
@[simp] theorem State.acquireProducer_head (s : State) :
    (s.acquireProducer).head = s.head := rfl
@[simp] theorem State.acquireProducer_wipeRaw (s : State) :
    (s.acquireProducer).wipeRaw = s.wipeRaw := rfl
@[simp] theorem State.acquireProducer_wipeOff (s : State) :
    (s.acquireProducer).wipeOff = s.wipeOff := rfl
@[simp] theorem State.acquireProducer_ovCount (s : State) :
    (s.acquireProducer).ovCount = s.ovCount := rfl
@[simp] theorem State.acquireProducer_now (s : State) :
    (s.acquireProducer).now = s.now := rfl
@[simp] theorem State.acquireProducer_panel (s : State) :
    (s.acquireProducer).panel = s.panel := rfl
@[simp] theorem State.acquireProducer_debugLog (s : State) :
    (s.acquireProducer).debugLog = s.debugLog := rfl
@[simp] theorem State.acquireProducer_fb0 (s : State) :
    (s.acquireProducer).fb0 = s.fb0 := rfl
@[simp] theorem State.acquireProducer_fb1 (s : State) :
    (s.acquireProducer).fb1 = s.fb1 := rfl
@[simp] theorem State.acquireProducer_field (s : State) :
    (s.acquireProducer).field = s.field := rfl
@[simp] theorem State.acquireProducer_ovrec (s : State) :
    (s.acquireProducer).ovrec = s.ovrec := rfl
@[simp] theorem State.acquireProducer_port (s : State) :
    (s.acquireProducer).port = s.port := rfl
@[simp] theorem State.acquireProducer_pubPhase (s : State) :
    (s.acquireProducer).pubPhase = s.pubPhase := rfl
@[simp] theorem State.acquireProducer_response (s : State) :
    (s.acquireProducer).response = s.response := rfl
@[simp] theorem State.acquireProducer_commands (s : State) :
    (s.acquireProducer).commands = s.commands := rfl
@[simp] theorem State.acquireProducer_turns (s : State) :
    (s.acquireProducer).turns = s.turns := rfl
@[simp] theorem State.acquireProducer_transport (s : State) :
    (s.acquireProducer).transport = s.transport := rfl
@[simp] theorem State.acquireProducer_powerUp (s : State) :
    (s.acquireProducer).powerUp = s.powerUp := rfl
@[simp] theorem State.acquireProducer_freeCount (s : State) :
    (s.acquireProducer).freeCount = s.freeCount := rfl

/-! ## releaseProducer -/

@[simp] theorem State.releaseProducer_cfg (s : State) :
    (s.releaseProducer).cfg = s.cfg := rfl
@[simp] theorem State.releaseProducer_sem (s : State) :
    (s.releaseProducer).sem = true := rfl
@[simp] theorem State.releaseProducer_dispHolds (s : State) :
    (s.releaseProducer).dispHolds = s.dispHolds := rfl
@[simp] theorem State.releaseProducer_prodHolds (s : State) :
    (s.releaseProducer).prodHolds = false := rfl
@[simp] theorem State.releaseProducer_nextVt (s : State) :
    (s.releaseProducer).nextVt = s.nextVt := rfl
@[simp] theorem State.releaseProducer_nextFb (s : State) :
    (s.releaseProducer).nextFb = s.nextFb := rfl
@[simp] theorem State.releaseProducer_nextOv (s : State) :
    (s.releaseProducer).nextOv = s.nextOv := rfl
@[simp] theorem State.releaseProducer_curVt (s : State) :
    (s.releaseProducer).curVt = s.curVt := rfl
@[simp] theorem State.releaseProducer_curFb (s : State) :
    (s.releaseProducer).curFb = s.curFb := rfl
@[simp] theorem State.releaseProducer_curOv (s : State) :
    (s.releaseProducer).curOv = s.curOv := rfl
@[simp] theorem State.releaseProducer_palReq (s : State) :
    (s.releaseProducer).palReq = s.palReq := rfl
@[simp] theorem State.releaseProducer_palPending (s : State) :
    (s.releaseProducer).palPending = s.palPending := rfl
@[simp] theorem State.releaseProducer_gammaLevel (s : State) :
    (s.releaseProducer).gammaLevel = s.gammaLevel := rfl
@[simp] theorem State.releaseProducer_sweepParity (s : State) :
    (s.releaseProducer).sweepParity = s.sweepParity := rfl
@[simp] theorem State.releaseProducer_deadline (s : State) :
    (s.releaseProducer).deadline = s.deadline := rfl
@[simp] theorem State.releaseProducer_wipeMin (s : State) :
    (s.releaseProducer).wipeMin = s.wipeMin := rfl
@[simp] theorem State.releaseProducer_halt (s : State) :
    (s.releaseProducer).halt = s.halt := rfl
@[simp] theorem State.releaseProducer_fatalCode (s : State) :
    (s.releaseProducer).fatalCode = s.fatalCode := rfl
@[simp] theorem State.releaseProducer_errOwn (s : State) :
    (s.releaseProducer).errOwn = s.errOwn := rfl
@[simp] theorem State.releaseProducer_errAddr (s : State) :
    (s.releaseProducer).errAddr = s.errAddr := rfl
@[simp] theorem State.releaseProducer_errCmd (s : State) :
    (s.releaseProducer).errCmd = s.errCmd := rfl
@[simp] theorem State.releaseProducer_seq (s : State) :
    (s.releaseProducer).seq = s.seq := rfl
@[simp] theorem State.releaseProducer_fi (s : State) :
    (s.releaseProducer).fi = s.fi := rfl
@[simp] theorem State.releaseProducer_lum (s : State) :
    (s.releaseProducer).lum = s.lum := rfl
@[simp] theorem State.releaseProducer_mini (s : State) :
    (s.releaseProducer).mini = s.mini := rfl
@[simp] theorem State.releaseProducer_head (s : State) :
    (s.releaseProducer).head = s.head := rfl
@[simp] theorem State.releaseProducer_wipeRaw (s : State) :
    (s.releaseProducer).wipeRaw = s.wipeRaw := rfl
@[simp] theorem State.releaseProducer_wipeOff (s : State) :
    (s.releaseProducer).wipeOff = s.wipeOff := rfl
@[simp] theorem State.releaseProducer_ovCount (s : State) :
    (s.releaseProducer).ovCount = s.ovCount := rfl
@[simp] theorem State.releaseProducer_now (s : State) :
    (s.releaseProducer).now = s.now := rfl
@[simp] theorem State.releaseProducer_panel (s : State) :
    (s.releaseProducer).panel = s.panel := rfl
@[simp] theorem State.releaseProducer_debugLog (s : State) :
    (s.releaseProducer).debugLog = s.debugLog := rfl
@[simp] theorem State.releaseProducer_fb0 (s : State) :
    (s.releaseProducer).fb0 = s.fb0 := rfl
@[simp] theorem State.releaseProducer_fb1 (s : State) :
    (s.releaseProducer).fb1 = s.fb1 := rfl
@[simp] theorem State.releaseProducer_field (s : State) :
    (s.releaseProducer).field = s.field := rfl
@[simp] theorem State.releaseProducer_ovrec (s : State) :
    (s.releaseProducer).ovrec = s.ovrec := rfl
@[simp] theorem State.releaseProducer_port (s : State) :
    (s.releaseProducer).port = s.port := rfl
@[simp] theorem State.releaseProducer_pubPhase (s : State) :
    (s.releaseProducer).pubPhase = s.pubPhase := rfl
@[simp] theorem State.releaseProducer_response (s : State) :
    (s.releaseProducer).response = s.response := rfl
@[simp] theorem State.releaseProducer_commands (s : State) :
    (s.releaseProducer).commands = s.commands := rfl
@[simp] theorem State.releaseProducer_turns (s : State) :
    (s.releaseProducer).turns = s.turns := rfl
@[simp] theorem State.releaseProducer_transport (s : State) :
    (s.releaseProducer).transport = s.transport := rfl
@[simp] theorem State.releaseProducer_powerUp (s : State) :
    (s.releaseProducer).powerUp = s.powerUp := rfl
@[simp] theorem State.releaseProducer_freeCount (s : State) :
    (s.releaseProducer).freeCount = s.freeCount := rfl

/-! ## writeField -/

@[simp] theorem State.writeField_cfg (s : State) (f : Nat → BitVec 8) :
    (s.writeField f).cfg = s.cfg := rfl
@[simp] theorem State.writeField_sem (s : State) (f : Nat → BitVec 8) :
    (s.writeField f).sem = s.sem := rfl
@[simp] theorem State.writeField_dispHolds (s : State) (f : Nat → BitVec 8) :
    (s.writeField f).dispHolds = s.dispHolds := rfl
@[simp] theorem State.writeField_prodHolds (s : State) (f : Nat → BitVec 8) :
    (s.writeField f).prodHolds = s.prodHolds := rfl
@[simp] theorem State.writeField_nextVt (s : State) (f : Nat → BitVec 8) :
    (s.writeField f).nextVt = s.nextVt := rfl
@[simp] theorem State.writeField_nextFb (s : State) (f : Nat → BitVec 8) :
    (s.writeField f).nextFb = s.nextFb := rfl
@[simp] theorem State.writeField_nextOv (s : State) (f : Nat → BitVec 8) :
    (s.writeField f).nextOv = s.nextOv := rfl
@[simp] theorem State.writeField_curVt (s : State) (f : Nat → BitVec 8) :
    (s.writeField f).curVt = s.curVt := rfl
@[simp] theorem State.writeField_curFb (s : State) (f : Nat → BitVec 8) :
    (s.writeField f).curFb = s.curFb := rfl
@[simp] theorem State.writeField_curOv (s : State) (f : Nat → BitVec 8) :
    (s.writeField f).curOv = s.curOv := rfl
@[simp] theorem State.writeField_palReq (s : State) (f : Nat → BitVec 8) :
    (s.writeField f).palReq = s.palReq := rfl
@[simp] theorem State.writeField_palPending (s : State) (f : Nat → BitVec 8) :
    (s.writeField f).palPending = s.palPending := rfl
@[simp] theorem State.writeField_gammaLevel (s : State) (f : Nat → BitVec 8) :
    (s.writeField f).gammaLevel = s.gammaLevel := rfl
@[simp] theorem State.writeField_sweepParity (s : State) (f : Nat → BitVec 8) :
    (s.writeField f).sweepParity = s.sweepParity := rfl
@[simp] theorem State.writeField_deadline (s : State) (f : Nat → BitVec 8) :
    (s.writeField f).deadline = s.deadline := rfl
@[simp] theorem State.writeField_wipeMin (s : State) (f : Nat → BitVec 8) :
    (s.writeField f).wipeMin = s.wipeMin := rfl
@[simp] theorem State.writeField_halt (s : State) (f : Nat → BitVec 8) :
    (s.writeField f).halt = s.halt := rfl
@[simp] theorem State.writeField_fatalCode (s : State) (f : Nat → BitVec 8) :
    (s.writeField f).fatalCode = s.fatalCode := rfl
@[simp] theorem State.writeField_errOwn (s : State) (f : Nat → BitVec 8) :
    (s.writeField f).errOwn = s.errOwn := rfl
@[simp] theorem State.writeField_errAddr (s : State) (f : Nat → BitVec 8) :
    (s.writeField f).errAddr = s.errAddr := rfl
@[simp] theorem State.writeField_errCmd (s : State) (f : Nat → BitVec 8) :
    (s.writeField f).errCmd = s.errCmd := rfl
@[simp] theorem State.writeField_seq (s : State) (f : Nat → BitVec 8) :
    (s.writeField f).seq = s.seq := rfl
@[simp] theorem State.writeField_fi (s : State) (f : Nat → BitVec 8) :
    (s.writeField f).fi = s.fi := rfl
@[simp] theorem State.writeField_lum (s : State) (f : Nat → BitVec 8) :
    (s.writeField f).lum = s.lum := rfl
@[simp] theorem State.writeField_mini (s : State) (f : Nat → BitVec 8) :
    (s.writeField f).mini = s.mini := rfl
@[simp] theorem State.writeField_head (s : State) (f : Nat → BitVec 8) :
    (s.writeField f).head = s.head := rfl
@[simp] theorem State.writeField_wipeRaw (s : State) (f : Nat → BitVec 8) :
    (s.writeField f).wipeRaw = s.wipeRaw := rfl
@[simp] theorem State.writeField_wipeOff (s : State) (f : Nat → BitVec 8) :
    (s.writeField f).wipeOff = s.wipeOff := rfl
@[simp] theorem State.writeField_ovCount (s : State) (f : Nat → BitVec 8) :
    (s.writeField f).ovCount = s.ovCount := rfl
@[simp] theorem State.writeField_now (s : State) (f : Nat → BitVec 8) :
    (s.writeField f).now = s.now := rfl
@[simp] theorem State.writeField_panel (s : State) (f : Nat → BitVec 8) :
    (s.writeField f).panel = s.panel := rfl
@[simp] theorem State.writeField_debugLog (s : State) (f : Nat → BitVec 8) :
    (s.writeField f).debugLog = s.debugLog := rfl
@[simp] theorem State.writeField_fb0 (s : State) (f : Nat → BitVec 8) :
    (s.writeField f).fb0 = s.fb0 := rfl
@[simp] theorem State.writeField_fb1 (s : State) (f : Nat → BitVec 8) :
    (s.writeField f).fb1 = s.fb1 := rfl
@[simp] theorem State.writeField_field (s : State) (f : Nat → BitVec 8) :
    (s.writeField f).field = Memory.fill (Space.unlisted .field) s.cfg.fieldLen f := rfl
@[simp] theorem State.writeField_ovrec (s : State) (f : Nat → BitVec 8) :
    (s.writeField f).ovrec = s.ovrec := rfl
@[simp] theorem State.writeField_port (s : State) (f : Nat → BitVec 8) :
    (s.writeField f).port = s.port := rfl
@[simp] theorem State.writeField_pubPhase (s : State) (f : Nat → BitVec 8) :
    (s.writeField f).pubPhase = s.pubPhase := rfl
@[simp] theorem State.writeField_response (s : State) (f : Nat → BitVec 8) :
    (s.writeField f).response = s.response := rfl
@[simp] theorem State.writeField_commands (s : State) (f : Nat → BitVec 8) :
    (s.writeField f).commands = s.commands := rfl
@[simp] theorem State.writeField_turns (s : State) (f : Nat → BitVec 8) :
    (s.writeField f).turns = s.turns := rfl
@[simp] theorem State.writeField_transport (s : State) (f : Nat → BitVec 8) :
    (s.writeField f).transport = s.transport := rfl
@[simp] theorem State.writeField_powerUp (s : State) (f : Nat → BitVec 8) :
    (s.writeField f).powerUp = s.powerUp := rfl
@[simp] theorem State.writeField_freeCount (s : State) (f : Nat → BitVec 8) :
    (s.writeField f).freeCount = s.freeCount := rfl

/-! ## emit -/

@[simp] theorem State.emit_cfg (s : State) (es : List PanelEvent) :
    (s.emit es).cfg = s.cfg := rfl
@[simp] theorem State.emit_sem (s : State) (es : List PanelEvent) :
    (s.emit es).sem = s.sem := rfl
@[simp] theorem State.emit_dispHolds (s : State) (es : List PanelEvent) :
    (s.emit es).dispHolds = s.dispHolds := rfl
@[simp] theorem State.emit_prodHolds (s : State) (es : List PanelEvent) :
    (s.emit es).prodHolds = s.prodHolds := rfl
@[simp] theorem State.emit_nextVt (s : State) (es : List PanelEvent) :
    (s.emit es).nextVt = s.nextVt := rfl
@[simp] theorem State.emit_nextFb (s : State) (es : List PanelEvent) :
    (s.emit es).nextFb = s.nextFb := rfl
@[simp] theorem State.emit_nextOv (s : State) (es : List PanelEvent) :
    (s.emit es).nextOv = s.nextOv := rfl
@[simp] theorem State.emit_curVt (s : State) (es : List PanelEvent) :
    (s.emit es).curVt = s.curVt := rfl
@[simp] theorem State.emit_curFb (s : State) (es : List PanelEvent) :
    (s.emit es).curFb = s.curFb := rfl
@[simp] theorem State.emit_curOv (s : State) (es : List PanelEvent) :
    (s.emit es).curOv = s.curOv := rfl
@[simp] theorem State.emit_palReq (s : State) (es : List PanelEvent) :
    (s.emit es).palReq = s.palReq := rfl
@[simp] theorem State.emit_palPending (s : State) (es : List PanelEvent) :
    (s.emit es).palPending = s.palPending := rfl
@[simp] theorem State.emit_gammaLevel (s : State) (es : List PanelEvent) :
    (s.emit es).gammaLevel = s.gammaLevel := rfl
@[simp] theorem State.emit_sweepParity (s : State) (es : List PanelEvent) :
    (s.emit es).sweepParity = s.sweepParity := rfl
@[simp] theorem State.emit_deadline (s : State) (es : List PanelEvent) :
    (s.emit es).deadline = s.deadline := rfl
@[simp] theorem State.emit_wipeMin (s : State) (es : List PanelEvent) :
    (s.emit es).wipeMin = s.wipeMin := rfl
@[simp] theorem State.emit_halt (s : State) (es : List PanelEvent) :
    (s.emit es).halt = s.halt := rfl
@[simp] theorem State.emit_fatalCode (s : State) (es : List PanelEvent) :
    (s.emit es).fatalCode = s.fatalCode := rfl
@[simp] theorem State.emit_errOwn (s : State) (es : List PanelEvent) :
    (s.emit es).errOwn = s.errOwn := rfl
@[simp] theorem State.emit_errAddr (s : State) (es : List PanelEvent) :
    (s.emit es).errAddr = s.errAddr := rfl
@[simp] theorem State.emit_errCmd (s : State) (es : List PanelEvent) :
    (s.emit es).errCmd = s.errCmd := rfl
@[simp] theorem State.emit_seq (s : State) (es : List PanelEvent) :
    (s.emit es).seq = s.seq := rfl
@[simp] theorem State.emit_fi (s : State) (es : List PanelEvent) :
    (s.emit es).fi = s.fi := rfl
@[simp] theorem State.emit_lum (s : State) (es : List PanelEvent) :
    (s.emit es).lum = s.lum := rfl
@[simp] theorem State.emit_mini (s : State) (es : List PanelEvent) :
    (s.emit es).mini = s.mini := rfl
@[simp] theorem State.emit_head (s : State) (es : List PanelEvent) :
    (s.emit es).head = s.head := rfl
@[simp] theorem State.emit_wipeRaw (s : State) (es : List PanelEvent) :
    (s.emit es).wipeRaw = s.wipeRaw := rfl
@[simp] theorem State.emit_wipeOff (s : State) (es : List PanelEvent) :
    (s.emit es).wipeOff = s.wipeOff := rfl
@[simp] theorem State.emit_ovCount (s : State) (es : List PanelEvent) :
    (s.emit es).ovCount = s.ovCount := rfl
@[simp] theorem State.emit_now (s : State) (es : List PanelEvent) :
    (s.emit es).now = s.now := rfl
@[simp] theorem State.emit_panel (s : State) (es : List PanelEvent) :
    (s.emit es).panel = s.panel ++ es := rfl
@[simp] theorem State.emit_debugLog (s : State) (es : List PanelEvent) :
    (s.emit es).debugLog = s.debugLog := rfl
@[simp] theorem State.emit_fb0 (s : State) (es : List PanelEvent) :
    (s.emit es).fb0 = s.fb0 := rfl
@[simp] theorem State.emit_fb1 (s : State) (es : List PanelEvent) :
    (s.emit es).fb1 = s.fb1 := rfl
@[simp] theorem State.emit_field (s : State) (es : List PanelEvent) :
    (s.emit es).field = s.field := rfl
@[simp] theorem State.emit_ovrec (s : State) (es : List PanelEvent) :
    (s.emit es).ovrec = s.ovrec := rfl
@[simp] theorem State.emit_port (s : State) (es : List PanelEvent) :
    (s.emit es).port = s.port := rfl
@[simp] theorem State.emit_pubPhase (s : State) (es : List PanelEvent) :
    (s.emit es).pubPhase = s.pubPhase := rfl
@[simp] theorem State.emit_response (s : State) (es : List PanelEvent) :
    (s.emit es).response = s.response := rfl
@[simp] theorem State.emit_commands (s : State) (es : List PanelEvent) :
    (s.emit es).commands = s.commands := rfl
@[simp] theorem State.emit_turns (s : State) (es : List PanelEvent) :
    (s.emit es).turns = s.turns := rfl
@[simp] theorem State.emit_transport (s : State) (es : List PanelEvent) :
    (s.emit es).transport = s.transport := rfl
@[simp] theorem State.emit_powerUp (s : State) (es : List PanelEvent) :
    (s.emit es).powerUp = s.powerUp := rfl
@[simp] theorem State.emit_freeCount (s : State) (es : List PanelEvent) :
    (s.emit es).freeCount = s.freeCount := rfl

/-! ## txData -/

@[simp] theorem State.txData_cfg (s : State) (bs : List (BitVec 8)) :
    (s.txData bs).cfg = s.cfg := rfl
@[simp] theorem State.txData_sem (s : State) (bs : List (BitVec 8)) :
    (s.txData bs).sem = s.sem := rfl
@[simp] theorem State.txData_dispHolds (s : State) (bs : List (BitVec 8)) :
    (s.txData bs).dispHolds = s.dispHolds := rfl
@[simp] theorem State.txData_prodHolds (s : State) (bs : List (BitVec 8)) :
    (s.txData bs).prodHolds = s.prodHolds := rfl
@[simp] theorem State.txData_nextVt (s : State) (bs : List (BitVec 8)) :
    (s.txData bs).nextVt = s.nextVt := rfl
@[simp] theorem State.txData_nextFb (s : State) (bs : List (BitVec 8)) :
    (s.txData bs).nextFb = s.nextFb := rfl
@[simp] theorem State.txData_nextOv (s : State) (bs : List (BitVec 8)) :
    (s.txData bs).nextOv = s.nextOv := rfl
@[simp] theorem State.txData_curVt (s : State) (bs : List (BitVec 8)) :
    (s.txData bs).curVt = s.curVt := rfl
@[simp] theorem State.txData_curFb (s : State) (bs : List (BitVec 8)) :
    (s.txData bs).curFb = s.curFb := rfl
@[simp] theorem State.txData_curOv (s : State) (bs : List (BitVec 8)) :
    (s.txData bs).curOv = s.curOv := rfl
@[simp] theorem State.txData_palReq (s : State) (bs : List (BitVec 8)) :
    (s.txData bs).palReq = s.palReq := rfl
@[simp] theorem State.txData_palPending (s : State) (bs : List (BitVec 8)) :
    (s.txData bs).palPending = s.palPending := rfl
@[simp] theorem State.txData_gammaLevel (s : State) (bs : List (BitVec 8)) :
    (s.txData bs).gammaLevel = s.gammaLevel := rfl
@[simp] theorem State.txData_sweepParity (s : State) (bs : List (BitVec 8)) :
    (s.txData bs).sweepParity = s.sweepParity := rfl
@[simp] theorem State.txData_deadline (s : State) (bs : List (BitVec 8)) :
    (s.txData bs).deadline = s.deadline := rfl
@[simp] theorem State.txData_wipeMin (s : State) (bs : List (BitVec 8)) :
    (s.txData bs).wipeMin = s.wipeMin := rfl
@[simp] theorem State.txData_halt (s : State) (bs : List (BitVec 8)) :
    (s.txData bs).halt = s.halt := rfl
@[simp] theorem State.txData_fatalCode (s : State) (bs : List (BitVec 8)) :
    (s.txData bs).fatalCode = s.fatalCode := rfl
@[simp] theorem State.txData_errOwn (s : State) (bs : List (BitVec 8)) :
    (s.txData bs).errOwn = s.errOwn := rfl
@[simp] theorem State.txData_errAddr (s : State) (bs : List (BitVec 8)) :
    (s.txData bs).errAddr = s.errAddr := rfl
@[simp] theorem State.txData_errCmd (s : State) (bs : List (BitVec 8)) :
    (s.txData bs).errCmd = s.errCmd := rfl
@[simp] theorem State.txData_seq (s : State) (bs : List (BitVec 8)) :
    (s.txData bs).seq = s.seq := rfl
@[simp] theorem State.txData_fi (s : State) (bs : List (BitVec 8)) :
    (s.txData bs).fi = s.fi := rfl
@[simp] theorem State.txData_lum (s : State) (bs : List (BitVec 8)) :
    (s.txData bs).lum = s.lum := rfl
@[simp] theorem State.txData_mini (s : State) (bs : List (BitVec 8)) :
    (s.txData bs).mini = s.mini := rfl
@[simp] theorem State.txData_head (s : State) (bs : List (BitVec 8)) :
    (s.txData bs).head = s.head := rfl
@[simp] theorem State.txData_wipeRaw (s : State) (bs : List (BitVec 8)) :
    (s.txData bs).wipeRaw = s.wipeRaw := rfl
@[simp] theorem State.txData_wipeOff (s : State) (bs : List (BitVec 8)) :
    (s.txData bs).wipeOff = s.wipeOff := rfl
@[simp] theorem State.txData_ovCount (s : State) (bs : List (BitVec 8)) :
    (s.txData bs).ovCount = s.ovCount := rfl
@[simp] theorem State.txData_now (s : State) (bs : List (BitVec 8)) :
    (s.txData bs).now = s.now := rfl
@[simp] theorem State.txData_panel (s : State) (bs : List (BitVec 8)) :
    (s.txData bs).panel = s.panel ++ transactionEvents .data bs := rfl
@[simp] theorem State.txData_debugLog (s : State) (bs : List (BitVec 8)) :
    (s.txData bs).debugLog = s.debugLog := rfl
@[simp] theorem State.txData_fb0 (s : State) (bs : List (BitVec 8)) :
    (s.txData bs).fb0 = s.fb0 := rfl
@[simp] theorem State.txData_fb1 (s : State) (bs : List (BitVec 8)) :
    (s.txData bs).fb1 = s.fb1 := rfl
@[simp] theorem State.txData_field (s : State) (bs : List (BitVec 8)) :
    (s.txData bs).field = s.field := rfl
@[simp] theorem State.txData_ovrec (s : State) (bs : List (BitVec 8)) :
    (s.txData bs).ovrec = s.ovrec := rfl
@[simp] theorem State.txData_port (s : State) (bs : List (BitVec 8)) :
    (s.txData bs).port = s.port := rfl
@[simp] theorem State.txData_pubPhase (s : State) (bs : List (BitVec 8)) :
    (s.txData bs).pubPhase = s.pubPhase := rfl
@[simp] theorem State.txData_response (s : State) (bs : List (BitVec 8)) :
    (s.txData bs).response = s.response := rfl
@[simp] theorem State.txData_commands (s : State) (bs : List (BitVec 8)) :
    (s.txData bs).commands = s.commands := rfl
@[simp] theorem State.txData_turns (s : State) (bs : List (BitVec 8)) :
    (s.txData bs).turns = s.turns := rfl
@[simp] theorem State.txData_transport (s : State) (bs : List (BitVec 8)) :
    (s.txData bs).transport = s.transport := rfl
@[simp] theorem State.txData_powerUp (s : State) (bs : List (BitVec 8)) :
    (s.txData bs).powerUp = s.powerUp := rfl
@[simp] theorem State.txData_freeCount (s : State) (bs : List (BitVec 8)) :
    (s.txData bs).freeCount = s.freeCount := rfl

/-! ## txCmd -/

@[simp] theorem State.txCmd_cfg (s : State) (bs : List (BitVec 8)) :
    (s.txCmd bs).cfg = s.cfg := by unfold State.txCmd; split <;> rfl
@[simp] theorem State.txCmd_sem (s : State) (bs : List (BitVec 8)) :
    (s.txCmd bs).sem = s.sem := by unfold State.txCmd; split <;> rfl
@[simp] theorem State.txCmd_dispHolds (s : State) (bs : List (BitVec 8)) :
    (s.txCmd bs).dispHolds = s.dispHolds := by unfold State.txCmd; split <;> rfl
@[simp] theorem State.txCmd_prodHolds (s : State) (bs : List (BitVec 8)) :
    (s.txCmd bs).prodHolds = s.prodHolds := by unfold State.txCmd; split <;> rfl
@[simp] theorem State.txCmd_nextVt (s : State) (bs : List (BitVec 8)) :
    (s.txCmd bs).nextVt = s.nextVt := by unfold State.txCmd; split <;> rfl
@[simp] theorem State.txCmd_nextFb (s : State) (bs : List (BitVec 8)) :
    (s.txCmd bs).nextFb = s.nextFb := by unfold State.txCmd; split <;> rfl
@[simp] theorem State.txCmd_nextOv (s : State) (bs : List (BitVec 8)) :
    (s.txCmd bs).nextOv = s.nextOv := by unfold State.txCmd; split <;> rfl
@[simp] theorem State.txCmd_curVt (s : State) (bs : List (BitVec 8)) :
    (s.txCmd bs).curVt = s.curVt := by unfold State.txCmd; split <;> rfl
@[simp] theorem State.txCmd_curFb (s : State) (bs : List (BitVec 8)) :
    (s.txCmd bs).curFb = s.curFb := by unfold State.txCmd; split <;> rfl
@[simp] theorem State.txCmd_curOv (s : State) (bs : List (BitVec 8)) :
    (s.txCmd bs).curOv = s.curOv := by unfold State.txCmd; split <;> rfl
@[simp] theorem State.txCmd_palReq (s : State) (bs : List (BitVec 8)) :
    (s.txCmd bs).palReq = s.palReq := by unfold State.txCmd; split <;> rfl
@[simp] theorem State.txCmd_palPending (s : State) (bs : List (BitVec 8)) :
    (s.txCmd bs).palPending = s.palPending := by unfold State.txCmd; split <;> rfl
@[simp] theorem State.txCmd_gammaLevel (s : State) (bs : List (BitVec 8)) :
    (s.txCmd bs).gammaLevel = s.gammaLevel := by unfold State.txCmd; split <;> rfl
@[simp] theorem State.txCmd_sweepParity (s : State) (bs : List (BitVec 8)) :
    (s.txCmd bs).sweepParity = s.sweepParity := by unfold State.txCmd; split <;> rfl
@[simp] theorem State.txCmd_deadline (s : State) (bs : List (BitVec 8)) :
    (s.txCmd bs).deadline = s.deadline := by unfold State.txCmd; split <;> rfl
@[simp] theorem State.txCmd_wipeMin (s : State) (bs : List (BitVec 8)) :
    (s.txCmd bs).wipeMin = s.wipeMin := by unfold State.txCmd; split <;> rfl
@[simp] theorem State.txCmd_halt (s : State) (bs : List (BitVec 8)) :
    (s.txCmd bs).halt = s.halt := by unfold State.txCmd; split <;> rfl
@[simp] theorem State.txCmd_fatalCode (s : State) (bs : List (BitVec 8)) :
    (s.txCmd bs).fatalCode = s.fatalCode := by unfold State.txCmd; split <;> rfl
@[simp] theorem State.txCmd_errOwn (s : State) (bs : List (BitVec 8)) :
    (s.txCmd bs).errOwn = s.errOwn := by unfold State.txCmd; split <;> rfl
@[simp] theorem State.txCmd_errAddr (s : State) (bs : List (BitVec 8)) :
    (s.txCmd bs).errAddr = s.errAddr := by unfold State.txCmd; split <;> rfl
@[simp] theorem State.txCmd_errCmd (s : State) (bs : List (BitVec 8)) :
    (s.txCmd bs).errCmd = s.errCmd := by unfold State.txCmd; split <;> rfl
@[simp] theorem State.txCmd_seq (s : State) (bs : List (BitVec 8)) :
    (s.txCmd bs).seq = s.seq := by unfold State.txCmd; split <;> rfl
@[simp] theorem State.txCmd_fi (s : State) (bs : List (BitVec 8)) :
    (s.txCmd bs).fi = s.fi := by unfold State.txCmd; split <;> rfl
@[simp] theorem State.txCmd_lum (s : State) (bs : List (BitVec 8)) :
    (s.txCmd bs).lum = s.lum := by unfold State.txCmd; split <;> rfl
@[simp] theorem State.txCmd_mini (s : State) (bs : List (BitVec 8)) :
    (s.txCmd bs).mini = s.mini := by unfold State.txCmd; split <;> rfl
@[simp] theorem State.txCmd_head (s : State) (bs : List (BitVec 8)) :
    (s.txCmd bs).head = s.head := by unfold State.txCmd; split <;> rfl
@[simp] theorem State.txCmd_wipeRaw (s : State) (bs : List (BitVec 8)) :
    (s.txCmd bs).wipeRaw = s.wipeRaw := by unfold State.txCmd; split <;> rfl
@[simp] theorem State.txCmd_wipeOff (s : State) (bs : List (BitVec 8)) :
    (s.txCmd bs).wipeOff = s.wipeOff := by unfold State.txCmd; split <;> rfl
@[simp] theorem State.txCmd_ovCount (s : State) (bs : List (BitVec 8)) :
    (s.txCmd bs).ovCount = s.ovCount := by unfold State.txCmd; split <;> rfl
@[simp] theorem State.txCmd_now (s : State) (bs : List (BitVec 8)) :
    (s.txCmd bs).now = s.now := by unfold State.txCmd; split <;> rfl
@[simp] theorem State.txCmd_panel (s : State) (bs : List (BitVec 8)) :
    (s.txCmd bs).panel = s.panel ++ if bs.isEmpty then [] else transactionEvents .cmd bs := by unfold State.txCmd; split <;> simp [State.emit]
@[simp] theorem State.txCmd_debugLog (s : State) (bs : List (BitVec 8)) :
    (s.txCmd bs).debugLog = s.debugLog := by unfold State.txCmd; split <;> rfl
@[simp] theorem State.txCmd_fb0 (s : State) (bs : List (BitVec 8)) :
    (s.txCmd bs).fb0 = s.fb0 := by unfold State.txCmd; split <;> rfl
@[simp] theorem State.txCmd_fb1 (s : State) (bs : List (BitVec 8)) :
    (s.txCmd bs).fb1 = s.fb1 := by unfold State.txCmd; split <;> rfl
@[simp] theorem State.txCmd_field (s : State) (bs : List (BitVec 8)) :
    (s.txCmd bs).field = s.field := by unfold State.txCmd; split <;> rfl
@[simp] theorem State.txCmd_ovrec (s : State) (bs : List (BitVec 8)) :
    (s.txCmd bs).ovrec = s.ovrec := by unfold State.txCmd; split <;> rfl
@[simp] theorem State.txCmd_port (s : State) (bs : List (BitVec 8)) :
    (s.txCmd bs).port = s.port := by unfold State.txCmd; split <;> rfl
@[simp] theorem State.txCmd_pubPhase (s : State) (bs : List (BitVec 8)) :
    (s.txCmd bs).pubPhase = s.pubPhase := by unfold State.txCmd; split <;> rfl
@[simp] theorem State.txCmd_response (s : State) (bs : List (BitVec 8)) :
    (s.txCmd bs).response = s.response := by unfold State.txCmd; split <;> rfl
@[simp] theorem State.txCmd_commands (s : State) (bs : List (BitVec 8)) :
    (s.txCmd bs).commands = s.commands := by unfold State.txCmd; split <;> rfl
@[simp] theorem State.txCmd_turns (s : State) (bs : List (BitVec 8)) :
    (s.txCmd bs).turns = s.turns := by unfold State.txCmd; split <;> rfl
@[simp] theorem State.txCmd_transport (s : State) (bs : List (BitVec 8)) :
    (s.txCmd bs).transport = s.transport := by unfold State.txCmd; split <;> rfl
@[simp] theorem State.txCmd_powerUp (s : State) (bs : List (BitVec 8)) :
    (s.txCmd bs).powerUp = s.powerUp := by unfold State.txCmd; split <;> rfl
@[simp] theorem State.txCmd_freeCount (s : State) (bs : List (BitVec 8)) :
    (s.txCmd bs).freeCount = s.freeCount := by unfold State.txCmd; split <;> rfl

/-! ## setErr -/

@[simp] theorem State.setErr_cfg (s : State) (e : ErrKind) :
    (s.setErr e).cfg = s.cfg := by cases e <;> rfl
@[simp] theorem State.setErr_sem (s : State) (e : ErrKind) :
    (s.setErr e).sem = s.sem := by cases e <;> rfl
@[simp] theorem State.setErr_dispHolds (s : State) (e : ErrKind) :
    (s.setErr e).dispHolds = s.dispHolds := by cases e <;> rfl
@[simp] theorem State.setErr_prodHolds (s : State) (e : ErrKind) :
    (s.setErr e).prodHolds = s.prodHolds := by cases e <;> rfl
@[simp] theorem State.setErr_nextVt (s : State) (e : ErrKind) :
    (s.setErr e).nextVt = s.nextVt := by cases e <;> rfl
@[simp] theorem State.setErr_nextFb (s : State) (e : ErrKind) :
    (s.setErr e).nextFb = s.nextFb := by cases e <;> rfl
@[simp] theorem State.setErr_nextOv (s : State) (e : ErrKind) :
    (s.setErr e).nextOv = s.nextOv := by cases e <;> rfl
@[simp] theorem State.setErr_curVt (s : State) (e : ErrKind) :
    (s.setErr e).curVt = s.curVt := by cases e <;> rfl
@[simp] theorem State.setErr_curFb (s : State) (e : ErrKind) :
    (s.setErr e).curFb = s.curFb := by cases e <;> rfl
@[simp] theorem State.setErr_curOv (s : State) (e : ErrKind) :
    (s.setErr e).curOv = s.curOv := by cases e <;> rfl
@[simp] theorem State.setErr_palReq (s : State) (e : ErrKind) :
    (s.setErr e).palReq = s.palReq := by cases e <;> rfl
@[simp] theorem State.setErr_palPending (s : State) (e : ErrKind) :
    (s.setErr e).palPending = s.palPending := by cases e <;> rfl
@[simp] theorem State.setErr_gammaLevel (s : State) (e : ErrKind) :
    (s.setErr e).gammaLevel = s.gammaLevel := by cases e <;> rfl
@[simp] theorem State.setErr_sweepParity (s : State) (e : ErrKind) :
    (s.setErr e).sweepParity = s.sweepParity := by cases e <;> rfl
@[simp] theorem State.setErr_deadline (s : State) (e : ErrKind) :
    (s.setErr e).deadline = s.deadline := by cases e <;> rfl
@[simp] theorem State.setErr_wipeMin (s : State) (e : ErrKind) :
    (s.setErr e).wipeMin = s.wipeMin := by cases e <;> rfl
@[simp] theorem State.setErr_halt (s : State) (e : ErrKind) :
    (s.setErr e).halt = s.halt := by cases e <;> rfl
@[simp] theorem State.setErr_fatalCode (s : State) (e : ErrKind) :
    (s.setErr e).fatalCode = s.fatalCode := by cases e <;> rfl
@[simp] theorem State.setErr_errOwn (s : State) (e : ErrKind) :
    (s.setErr e).errOwn = (s.errOwn || e == .own) := by cases e <;> simp [State.setErr]
@[simp] theorem State.setErr_errAddr (s : State) (e : ErrKind) :
    (s.setErr e).errAddr = (s.errAddr || e == .addr) := by cases e <;> simp [State.setErr]
@[simp] theorem State.setErr_errCmd (s : State) (e : ErrKind) :
    (s.setErr e).errCmd = (s.errCmd || e == .cmd) := by cases e <;> simp [State.setErr]
@[simp] theorem State.setErr_seq (s : State) (e : ErrKind) :
    (s.setErr e).seq = s.seq := by cases e <;> rfl
@[simp] theorem State.setErr_fi (s : State) (e : ErrKind) :
    (s.setErr e).fi = s.fi := by cases e <;> rfl
@[simp] theorem State.setErr_lum (s : State) (e : ErrKind) :
    (s.setErr e).lum = s.lum := by cases e <;> rfl
@[simp] theorem State.setErr_mini (s : State) (e : ErrKind) :
    (s.setErr e).mini = s.mini := by cases e <;> rfl
@[simp] theorem State.setErr_head (s : State) (e : ErrKind) :
    (s.setErr e).head = s.head := by cases e <;> rfl
@[simp] theorem State.setErr_wipeRaw (s : State) (e : ErrKind) :
    (s.setErr e).wipeRaw = s.wipeRaw := by cases e <;> rfl
@[simp] theorem State.setErr_wipeOff (s : State) (e : ErrKind) :
    (s.setErr e).wipeOff = s.wipeOff := by cases e <;> rfl
@[simp] theorem State.setErr_ovCount (s : State) (e : ErrKind) :
    (s.setErr e).ovCount = s.ovCount := by cases e <;> rfl
@[simp] theorem State.setErr_now (s : State) (e : ErrKind) :
    (s.setErr e).now = s.now := by cases e <;> rfl
@[simp] theorem State.setErr_panel (s : State) (e : ErrKind) :
    (s.setErr e).panel = s.panel := by cases e <;> rfl
@[simp] theorem State.setErr_debugLog (s : State) (e : ErrKind) :
    (s.setErr e).debugLog = s.debugLog := by cases e <;> rfl
@[simp] theorem State.setErr_fb0 (s : State) (e : ErrKind) :
    (s.setErr e).fb0 = s.fb0 := by cases e <;> rfl
@[simp] theorem State.setErr_fb1 (s : State) (e : ErrKind) :
    (s.setErr e).fb1 = s.fb1 := by cases e <;> rfl
@[simp] theorem State.setErr_field (s : State) (e : ErrKind) :
    (s.setErr e).field = s.field := by cases e <;> rfl
@[simp] theorem State.setErr_ovrec (s : State) (e : ErrKind) :
    (s.setErr e).ovrec = s.ovrec := by cases e <;> rfl
@[simp] theorem State.setErr_port (s : State) (e : ErrKind) :
    (s.setErr e).port = s.port := by cases e <;> rfl
@[simp] theorem State.setErr_pubPhase (s : State) (e : ErrKind) :
    (s.setErr e).pubPhase = s.pubPhase := by cases e <;> rfl
@[simp] theorem State.setErr_response (s : State) (e : ErrKind) :
    (s.setErr e).response = s.response := by cases e <;> rfl
@[simp] theorem State.setErr_commands (s : State) (e : ErrKind) :
    (s.setErr e).commands = s.commands := by cases e <;> rfl
@[simp] theorem State.setErr_turns (s : State) (e : ErrKind) :
    (s.setErr e).turns = s.turns := by cases e <;> rfl
@[simp] theorem State.setErr_transport (s : State) (e : ErrKind) :
    (s.setErr e).transport = s.transport := by cases e <;> rfl
@[simp] theorem State.setErr_powerUp (s : State) (e : ErrKind) :
    (s.setErr e).powerUp = s.powerUp := by cases e <;> rfl
@[simp] theorem State.setErr_freeCount (s : State) (e : ErrKind) :
    (s.setErr e).freeCount = s.freeCount := by cases e <;> rfl

/-! ## refuse -/

@[simp] theorem State.refuse_cfg (s : State) (e : ErrKind) :
    (s.refuse e).cfg = s.cfg := by cases e <;> rfl
@[simp] theorem State.refuse_sem (s : State) (e : ErrKind) :
    (s.refuse e).sem = s.sem := by cases e <;> rfl
@[simp] theorem State.refuse_dispHolds (s : State) (e : ErrKind) :
    (s.refuse e).dispHolds = s.dispHolds := by cases e <;> rfl
@[simp] theorem State.refuse_prodHolds (s : State) (e : ErrKind) :
    (s.refuse e).prodHolds = s.prodHolds := by cases e <;> rfl
@[simp] theorem State.refuse_nextVt (s : State) (e : ErrKind) :
    (s.refuse e).nextVt = s.nextVt := by cases e <;> rfl
@[simp] theorem State.refuse_nextFb (s : State) (e : ErrKind) :
    (s.refuse e).nextFb = s.nextFb := by cases e <;> rfl
@[simp] theorem State.refuse_nextOv (s : State) (e : ErrKind) :
    (s.refuse e).nextOv = s.nextOv := by cases e <;> rfl
@[simp] theorem State.refuse_curVt (s : State) (e : ErrKind) :
    (s.refuse e).curVt = s.curVt := by cases e <;> rfl
@[simp] theorem State.refuse_curFb (s : State) (e : ErrKind) :
    (s.refuse e).curFb = s.curFb := by cases e <;> rfl
@[simp] theorem State.refuse_curOv (s : State) (e : ErrKind) :
    (s.refuse e).curOv = s.curOv := by cases e <;> rfl
@[simp] theorem State.refuse_palReq (s : State) (e : ErrKind) :
    (s.refuse e).palReq = s.palReq := by cases e <;> rfl
@[simp] theorem State.refuse_palPending (s : State) (e : ErrKind) :
    (s.refuse e).palPending = s.palPending := by cases e <;> rfl
@[simp] theorem State.refuse_gammaLevel (s : State) (e : ErrKind) :
    (s.refuse e).gammaLevel = s.gammaLevel := by cases e <;> rfl
@[simp] theorem State.refuse_sweepParity (s : State) (e : ErrKind) :
    (s.refuse e).sweepParity = s.sweepParity := by cases e <;> rfl
@[simp] theorem State.refuse_deadline (s : State) (e : ErrKind) :
    (s.refuse e).deadline = s.deadline := by cases e <;> rfl
@[simp] theorem State.refuse_wipeMin (s : State) (e : ErrKind) :
    (s.refuse e).wipeMin = s.wipeMin := by cases e <;> rfl
@[simp] theorem State.refuse_halt (s : State) (e : ErrKind) :
    (s.refuse e).halt = s.halt := by cases e <;> rfl
@[simp] theorem State.refuse_fatalCode (s : State) (e : ErrKind) :
    (s.refuse e).fatalCode = s.fatalCode := by cases e <;> rfl
@[simp] theorem State.refuse_errOwn (s : State) (e : ErrKind) :
    (s.refuse e).errOwn = (s.errOwn || e == .own) := by cases e <;> simp [State.refuse, State.setErr, State.respond]
@[simp] theorem State.refuse_errAddr (s : State) (e : ErrKind) :
    (s.refuse e).errAddr = (s.errAddr || e == .addr) := by cases e <;> simp [State.refuse, State.setErr, State.respond]
@[simp] theorem State.refuse_errCmd (s : State) (e : ErrKind) :
    (s.refuse e).errCmd = (s.errCmd || e == .cmd) := by cases e <;> simp [State.refuse, State.setErr, State.respond]
@[simp] theorem State.refuse_seq (s : State) (e : ErrKind) :
    (s.refuse e).seq = s.seq := by cases e <;> rfl
@[simp] theorem State.refuse_fi (s : State) (e : ErrKind) :
    (s.refuse e).fi = s.fi := by cases e <;> rfl
@[simp] theorem State.refuse_lum (s : State) (e : ErrKind) :
    (s.refuse e).lum = s.lum := by cases e <;> rfl
@[simp] theorem State.refuse_mini (s : State) (e : ErrKind) :
    (s.refuse e).mini = s.mini := by cases e <;> rfl
@[simp] theorem State.refuse_head (s : State) (e : ErrKind) :
    (s.refuse e).head = s.head := by cases e <;> rfl
@[simp] theorem State.refuse_wipeRaw (s : State) (e : ErrKind) :
    (s.refuse e).wipeRaw = s.wipeRaw := by cases e <;> rfl
@[simp] theorem State.refuse_wipeOff (s : State) (e : ErrKind) :
    (s.refuse e).wipeOff = s.wipeOff := by cases e <;> rfl
@[simp] theorem State.refuse_ovCount (s : State) (e : ErrKind) :
    (s.refuse e).ovCount = s.ovCount := by cases e <;> rfl
@[simp] theorem State.refuse_now (s : State) (e : ErrKind) :
    (s.refuse e).now = s.now := by cases e <;> rfl
@[simp] theorem State.refuse_panel (s : State) (e : ErrKind) :
    (s.refuse e).panel = s.panel := by cases e <;> rfl
@[simp] theorem State.refuse_debugLog (s : State) (e : ErrKind) :
    (s.refuse e).debugLog = s.debugLog := by cases e <;> rfl
@[simp] theorem State.refuse_fb0 (s : State) (e : ErrKind) :
    (s.refuse e).fb0 = s.fb0 := by cases e <;> rfl
@[simp] theorem State.refuse_fb1 (s : State) (e : ErrKind) :
    (s.refuse e).fb1 = s.fb1 := by cases e <;> rfl
@[simp] theorem State.refuse_field (s : State) (e : ErrKind) :
    (s.refuse e).field = s.field := by cases e <;> rfl
@[simp] theorem State.refuse_ovrec (s : State) (e : ErrKind) :
    (s.refuse e).ovrec = s.ovrec := by cases e <;> rfl
@[simp] theorem State.refuse_port (s : State) (e : ErrKind) :
    (s.refuse e).port = none := by cases e <;> simp [State.refuse, State.setErr, State.respond]
@[simp] theorem State.refuse_pubPhase (s : State) (e : ErrKind) :
    (s.refuse e).pubPhase = s.pubPhase := by cases e <;> rfl
@[simp] theorem State.refuse_response (s : State) (e : ErrKind) :
    (s.refuse e).response = some ⟨e.status, 0#32⟩ := by cases e <;> simp [State.refuse, State.setErr, State.respond]
@[simp] theorem State.refuse_commands (s : State) (e : ErrKind) :
    (s.refuse e).commands = s.commands := by cases e <;> rfl
@[simp] theorem State.refuse_turns (s : State) (e : ErrKind) :
    (s.refuse e).turns = s.turns := by cases e <;> rfl
@[simp] theorem State.refuse_transport (s : State) (e : ErrKind) :
    (s.refuse e).transport = s.transport := by cases e <;> rfl
@[simp] theorem State.refuse_powerUp (s : State) (e : ErrKind) :
    (s.refuse e).powerUp = s.powerUp := by cases e <;> rfl
@[simp] theorem State.refuse_freeCount (s : State) (e : ErrKind) :
    (s.refuse e).freeCount = s.freeCount := by cases e <;> rfl

/-! ## writeFrame -/

@[simp] theorem State.writeFrame_cfg (s : State) (b : BitVec 1) (a : Nat) (d : BitVec 8) :
    (s.writeFrame b a d).cfg = s.cfg := by unfold State.writeFrame; split <;> rfl
@[simp] theorem State.writeFrame_sem (s : State) (b : BitVec 1) (a : Nat) (d : BitVec 8) :
    (s.writeFrame b a d).sem = s.sem := by unfold State.writeFrame; split <;> rfl
@[simp] theorem State.writeFrame_dispHolds (s : State) (b : BitVec 1) (a : Nat) (d : BitVec 8) :
    (s.writeFrame b a d).dispHolds = s.dispHolds := by unfold State.writeFrame; split <;> rfl
@[simp] theorem State.writeFrame_prodHolds (s : State) (b : BitVec 1) (a : Nat) (d : BitVec 8) :
    (s.writeFrame b a d).prodHolds = s.prodHolds := by unfold State.writeFrame; split <;> rfl
@[simp] theorem State.writeFrame_nextVt (s : State) (b : BitVec 1) (a : Nat) (d : BitVec 8) :
    (s.writeFrame b a d).nextVt = s.nextVt := by unfold State.writeFrame; split <;> rfl
@[simp] theorem State.writeFrame_nextFb (s : State) (b : BitVec 1) (a : Nat) (d : BitVec 8) :
    (s.writeFrame b a d).nextFb = s.nextFb := by unfold State.writeFrame; split <;> rfl
@[simp] theorem State.writeFrame_nextOv (s : State) (b : BitVec 1) (a : Nat) (d : BitVec 8) :
    (s.writeFrame b a d).nextOv = s.nextOv := by unfold State.writeFrame; split <;> rfl
@[simp] theorem State.writeFrame_curVt (s : State) (b : BitVec 1) (a : Nat) (d : BitVec 8) :
    (s.writeFrame b a d).curVt = s.curVt := by unfold State.writeFrame; split <;> rfl
@[simp] theorem State.writeFrame_curFb (s : State) (b : BitVec 1) (a : Nat) (d : BitVec 8) :
    (s.writeFrame b a d).curFb = s.curFb := by unfold State.writeFrame; split <;> rfl
@[simp] theorem State.writeFrame_curOv (s : State) (b : BitVec 1) (a : Nat) (d : BitVec 8) :
    (s.writeFrame b a d).curOv = s.curOv := by unfold State.writeFrame; split <;> rfl
@[simp] theorem State.writeFrame_palReq (s : State) (b : BitVec 1) (a : Nat) (d : BitVec 8) :
    (s.writeFrame b a d).palReq = s.palReq := by unfold State.writeFrame; split <;> rfl
@[simp] theorem State.writeFrame_palPending (s : State) (b : BitVec 1) (a : Nat) (d : BitVec 8) :
    (s.writeFrame b a d).palPending = s.palPending := by unfold State.writeFrame; split <;> rfl
@[simp] theorem State.writeFrame_gammaLevel (s : State) (b : BitVec 1) (a : Nat) (d : BitVec 8) :
    (s.writeFrame b a d).gammaLevel = s.gammaLevel := by unfold State.writeFrame; split <;> rfl
@[simp] theorem State.writeFrame_sweepParity (s : State) (b : BitVec 1) (a : Nat) (d : BitVec 8) :
    (s.writeFrame b a d).sweepParity = s.sweepParity := by unfold State.writeFrame; split <;> rfl
@[simp] theorem State.writeFrame_deadline (s : State) (b : BitVec 1) (a : Nat) (d : BitVec 8) :
    (s.writeFrame b a d).deadline = s.deadline := by unfold State.writeFrame; split <;> rfl
@[simp] theorem State.writeFrame_wipeMin (s : State) (b : BitVec 1) (a : Nat) (d : BitVec 8) :
    (s.writeFrame b a d).wipeMin = s.wipeMin := by unfold State.writeFrame; split <;> rfl
@[simp] theorem State.writeFrame_halt (s : State) (b : BitVec 1) (a : Nat) (d : BitVec 8) :
    (s.writeFrame b a d).halt = s.halt := by unfold State.writeFrame; split <;> rfl
@[simp] theorem State.writeFrame_fatalCode (s : State) (b : BitVec 1) (a : Nat) (d : BitVec 8) :
    (s.writeFrame b a d).fatalCode = s.fatalCode := by unfold State.writeFrame; split <;> rfl
@[simp] theorem State.writeFrame_errOwn (s : State) (b : BitVec 1) (a : Nat) (d : BitVec 8) :
    (s.writeFrame b a d).errOwn = s.errOwn := by unfold State.writeFrame; split <;> rfl
@[simp] theorem State.writeFrame_errAddr (s : State) (b : BitVec 1) (a : Nat) (d : BitVec 8) :
    (s.writeFrame b a d).errAddr = s.errAddr := by unfold State.writeFrame; split <;> rfl
@[simp] theorem State.writeFrame_errCmd (s : State) (b : BitVec 1) (a : Nat) (d : BitVec 8) :
    (s.writeFrame b a d).errCmd = s.errCmd := by unfold State.writeFrame; split <;> rfl
@[simp] theorem State.writeFrame_seq (s : State) (b : BitVec 1) (a : Nat) (d : BitVec 8) :
    (s.writeFrame b a d).seq = s.seq := by unfold State.writeFrame; split <;> rfl
@[simp] theorem State.writeFrame_fi (s : State) (b : BitVec 1) (a : Nat) (d : BitVec 8) :
    (s.writeFrame b a d).fi = s.fi := by unfold State.writeFrame; split <;> rfl
@[simp] theorem State.writeFrame_lum (s : State) (b : BitVec 1) (a : Nat) (d : BitVec 8) :
    (s.writeFrame b a d).lum = s.lum := by unfold State.writeFrame; split <;> rfl
@[simp] theorem State.writeFrame_mini (s : State) (b : BitVec 1) (a : Nat) (d : BitVec 8) :
    (s.writeFrame b a d).mini = s.mini := by unfold State.writeFrame; split <;> rfl
@[simp] theorem State.writeFrame_head (s : State) (b : BitVec 1) (a : Nat) (d : BitVec 8) :
    (s.writeFrame b a d).head = s.head := by unfold State.writeFrame; split <;> rfl
@[simp] theorem State.writeFrame_wipeRaw (s : State) (b : BitVec 1) (a : Nat) (d : BitVec 8) :
    (s.writeFrame b a d).wipeRaw = s.wipeRaw := by unfold State.writeFrame; split <;> rfl
@[simp] theorem State.writeFrame_wipeOff (s : State) (b : BitVec 1) (a : Nat) (d : BitVec 8) :
    (s.writeFrame b a d).wipeOff = s.wipeOff := by unfold State.writeFrame; split <;> rfl
@[simp] theorem State.writeFrame_ovCount (s : State) (b : BitVec 1) (a : Nat) (d : BitVec 8) :
    (s.writeFrame b a d).ovCount = s.ovCount := by unfold State.writeFrame; split <;> rfl
@[simp] theorem State.writeFrame_now (s : State) (b : BitVec 1) (a : Nat) (d : BitVec 8) :
    (s.writeFrame b a d).now = s.now := by unfold State.writeFrame; split <;> rfl
@[simp] theorem State.writeFrame_panel (s : State) (b : BitVec 1) (a : Nat) (d : BitVec 8) :
    (s.writeFrame b a d).panel = s.panel := by unfold State.writeFrame; split <;> rfl
@[simp] theorem State.writeFrame_debugLog (s : State) (b : BitVec 1) (a : Nat) (d : BitVec 8) :
    (s.writeFrame b a d).debugLog = s.debugLog := by unfold State.writeFrame; split <;> rfl
@[simp] theorem State.writeFrame_fb0 (s : State) (b : BitVec 1) (a : Nat) (d : BitVec 8) :
    (s.writeFrame b a d).fb0 = if b = 0#1 then Memory.write (Space.unlisted (.frame b)) s.fb0 a d else s.fb0 := by unfold State.writeFrame; split <;> rfl
@[simp] theorem State.writeFrame_fb1 (s : State) (b : BitVec 1) (a : Nat) (d : BitVec 8) :
    (s.writeFrame b a d).fb1 = if b = 0#1 then s.fb1 else Memory.write (Space.unlisted (.frame b)) s.fb1 a d := by unfold State.writeFrame; split <;> rfl
@[simp] theorem State.writeFrame_field (s : State) (b : BitVec 1) (a : Nat) (d : BitVec 8) :
    (s.writeFrame b a d).field = s.field := by unfold State.writeFrame; split <;> rfl
@[simp] theorem State.writeFrame_ovrec (s : State) (b : BitVec 1) (a : Nat) (d : BitVec 8) :
    (s.writeFrame b a d).ovrec = s.ovrec := by unfold State.writeFrame; split <;> rfl
@[simp] theorem State.writeFrame_port (s : State) (b : BitVec 1) (a : Nat) (d : BitVec 8) :
    (s.writeFrame b a d).port = s.port := by unfold State.writeFrame; split <;> rfl
@[simp] theorem State.writeFrame_pubPhase (s : State) (b : BitVec 1) (a : Nat) (d : BitVec 8) :
    (s.writeFrame b a d).pubPhase = s.pubPhase := by unfold State.writeFrame; split <;> rfl
@[simp] theorem State.writeFrame_response (s : State) (b : BitVec 1) (a : Nat) (d : BitVec 8) :
    (s.writeFrame b a d).response = s.response := by unfold State.writeFrame; split <;> rfl
@[simp] theorem State.writeFrame_commands (s : State) (b : BitVec 1) (a : Nat) (d : BitVec 8) :
    (s.writeFrame b a d).commands = s.commands := by unfold State.writeFrame; split <;> rfl
@[simp] theorem State.writeFrame_turns (s : State) (b : BitVec 1) (a : Nat) (d : BitVec 8) :
    (s.writeFrame b a d).turns = s.turns := by unfold State.writeFrame; split <;> rfl
@[simp] theorem State.writeFrame_transport (s : State) (b : BitVec 1) (a : Nat) (d : BitVec 8) :
    (s.writeFrame b a d).transport = s.transport := by unfold State.writeFrame; split <;> rfl
@[simp] theorem State.writeFrame_powerUp (s : State) (b : BitVec 1) (a : Nat) (d : BitVec 8) :
    (s.writeFrame b a d).powerUp = s.powerUp := by unfold State.writeFrame; split <;> rfl
@[simp] theorem State.writeFrame_freeCount (s : State) (b : BitVec 1) (a : Nat) (d : BitVec 8) :
    (s.writeFrame b a d).freeCount = s.freeCount := by unfold State.writeFrame; split <;> rfl

/-! ## advanceTime -/

@[simp] theorem State.advanceTime_cfg (s : State) (t : BitVec 64) :
    (s.advanceTime t).cfg = s.cfg := by unfold State.advanceTime; split <;> rfl
@[simp] theorem State.advanceTime_sem (s : State) (t : BitVec 64) :
    (s.advanceTime t).sem = s.sem := by unfold State.advanceTime; split <;> rfl
@[simp] theorem State.advanceTime_dispHolds (s : State) (t : BitVec 64) :
    (s.advanceTime t).dispHolds = s.dispHolds := by unfold State.advanceTime; split <;> rfl
@[simp] theorem State.advanceTime_prodHolds (s : State) (t : BitVec 64) :
    (s.advanceTime t).prodHolds = s.prodHolds := by unfold State.advanceTime; split <;> rfl
@[simp] theorem State.advanceTime_nextVt (s : State) (t : BitVec 64) :
    (s.advanceTime t).nextVt = s.nextVt := by unfold State.advanceTime; split <;> rfl
@[simp] theorem State.advanceTime_nextFb (s : State) (t : BitVec 64) :
    (s.advanceTime t).nextFb = s.nextFb := by unfold State.advanceTime; split <;> rfl
@[simp] theorem State.advanceTime_nextOv (s : State) (t : BitVec 64) :
    (s.advanceTime t).nextOv = s.nextOv := by unfold State.advanceTime; split <;> rfl
@[simp] theorem State.advanceTime_curVt (s : State) (t : BitVec 64) :
    (s.advanceTime t).curVt = s.curVt := by unfold State.advanceTime; split <;> rfl
@[simp] theorem State.advanceTime_curFb (s : State) (t : BitVec 64) :
    (s.advanceTime t).curFb = s.curFb := by unfold State.advanceTime; split <;> rfl
@[simp] theorem State.advanceTime_curOv (s : State) (t : BitVec 64) :
    (s.advanceTime t).curOv = s.curOv := by unfold State.advanceTime; split <;> rfl
@[simp] theorem State.advanceTime_palReq (s : State) (t : BitVec 64) :
    (s.advanceTime t).palReq = s.palReq := by unfold State.advanceTime; split <;> rfl
@[simp] theorem State.advanceTime_palPending (s : State) (t : BitVec 64) :
    (s.advanceTime t).palPending = s.palPending := by unfold State.advanceTime; split <;> rfl
@[simp] theorem State.advanceTime_gammaLevel (s : State) (t : BitVec 64) :
    (s.advanceTime t).gammaLevel = s.gammaLevel := by unfold State.advanceTime; split <;> rfl
@[simp] theorem State.advanceTime_sweepParity (s : State) (t : BitVec 64) :
    (s.advanceTime t).sweepParity = s.sweepParity := by unfold State.advanceTime; split <;> rfl
@[simp] theorem State.advanceTime_deadline (s : State) (t : BitVec 64) :
    (s.advanceTime t).deadline = s.deadline := by unfold State.advanceTime; split <;> rfl
@[simp] theorem State.advanceTime_wipeMin (s : State) (t : BitVec 64) :
    (s.advanceTime t).wipeMin = s.wipeMin := by unfold State.advanceTime; split <;> rfl
@[simp] theorem State.advanceTime_halt (s : State) (t : BitVec 64) :
    (s.advanceTime t).halt = s.halt := by unfold State.advanceTime; split <;> rfl
@[simp] theorem State.advanceTime_fatalCode (s : State) (t : BitVec 64) :
    (s.advanceTime t).fatalCode = s.fatalCode := by unfold State.advanceTime; split <;> rfl
@[simp] theorem State.advanceTime_errOwn (s : State) (t : BitVec 64) :
    (s.advanceTime t).errOwn = s.errOwn := by unfold State.advanceTime; split <;> rfl
@[simp] theorem State.advanceTime_errAddr (s : State) (t : BitVec 64) :
    (s.advanceTime t).errAddr = s.errAddr := by unfold State.advanceTime; split <;> rfl
@[simp] theorem State.advanceTime_errCmd (s : State) (t : BitVec 64) :
    (s.advanceTime t).errCmd = s.errCmd := by unfold State.advanceTime; split <;> rfl
@[simp] theorem State.advanceTime_seq (s : State) (t : BitVec 64) :
    (s.advanceTime t).seq = s.seq := by unfold State.advanceTime; split <;> rfl
@[simp] theorem State.advanceTime_fi (s : State) (t : BitVec 64) :
    (s.advanceTime t).fi = s.fi := by unfold State.advanceTime; split <;> rfl
@[simp] theorem State.advanceTime_lum (s : State) (t : BitVec 64) :
    (s.advanceTime t).lum = s.lum := by unfold State.advanceTime; split <;> rfl
@[simp] theorem State.advanceTime_mini (s : State) (t : BitVec 64) :
    (s.advanceTime t).mini = s.mini := by unfold State.advanceTime; split <;> rfl
@[simp] theorem State.advanceTime_head (s : State) (t : BitVec 64) :
    (s.advanceTime t).head = s.head := by unfold State.advanceTime; split <;> rfl
@[simp] theorem State.advanceTime_wipeRaw (s : State) (t : BitVec 64) :
    (s.advanceTime t).wipeRaw = s.wipeRaw := by unfold State.advanceTime; split <;> rfl
@[simp] theorem State.advanceTime_wipeOff (s : State) (t : BitVec 64) :
    (s.advanceTime t).wipeOff = s.wipeOff := by unfold State.advanceTime; split <;> rfl
@[simp] theorem State.advanceTime_ovCount (s : State) (t : BitVec 64) :
    (s.advanceTime t).ovCount = s.ovCount := by unfold State.advanceTime; split <;> rfl
@[simp] theorem State.advanceTime_now (s : State) (t : BitVec 64) :
    (s.advanceTime t).now = if s.now.toNat < t.toNat then t else s.now := by unfold State.advanceTime; split <;> rfl
@[simp] theorem State.advanceTime_panel (s : State) (t : BitVec 64) :
    (s.advanceTime t).panel = s.panel := by unfold State.advanceTime; split <;> rfl
@[simp] theorem State.advanceTime_debugLog (s : State) (t : BitVec 64) :
    (s.advanceTime t).debugLog = s.debugLog := by unfold State.advanceTime; split <;> rfl
@[simp] theorem State.advanceTime_fb0 (s : State) (t : BitVec 64) :
    (s.advanceTime t).fb0 = s.fb0 := by unfold State.advanceTime; split <;> rfl
@[simp] theorem State.advanceTime_fb1 (s : State) (t : BitVec 64) :
    (s.advanceTime t).fb1 = s.fb1 := by unfold State.advanceTime; split <;> rfl
@[simp] theorem State.advanceTime_field (s : State) (t : BitVec 64) :
    (s.advanceTime t).field = s.field := by unfold State.advanceTime; split <;> rfl
@[simp] theorem State.advanceTime_ovrec (s : State) (t : BitVec 64) :
    (s.advanceTime t).ovrec = s.ovrec := by unfold State.advanceTime; split <;> rfl
@[simp] theorem State.advanceTime_port (s : State) (t : BitVec 64) :
    (s.advanceTime t).port = s.port := by unfold State.advanceTime; split <;> rfl
@[simp] theorem State.advanceTime_pubPhase (s : State) (t : BitVec 64) :
    (s.advanceTime t).pubPhase = s.pubPhase := by unfold State.advanceTime; split <;> rfl
@[simp] theorem State.advanceTime_response (s : State) (t : BitVec 64) :
    (s.advanceTime t).response = s.response := by unfold State.advanceTime; split <;> rfl
@[simp] theorem State.advanceTime_commands (s : State) (t : BitVec 64) :
    (s.advanceTime t).commands = s.commands := by unfold State.advanceTime; split <;> rfl
@[simp] theorem State.advanceTime_turns (s : State) (t : BitVec 64) :
    (s.advanceTime t).turns = s.turns := by unfold State.advanceTime; split <;> rfl
@[simp] theorem State.advanceTime_transport (s : State) (t : BitVec 64) :
    (s.advanceTime t).transport = s.transport := by unfold State.advanceTime; split <;> rfl
@[simp] theorem State.advanceTime_powerUp (s : State) (t : BitVec 64) :
    (s.advanceTime t).powerUp = s.powerUp := by unfold State.advanceTime; split <;> rfl
@[simp] theorem State.advanceTime_freeCount (s : State) (t : BitVec 64) :
    (s.advanceTime t).freeCount = s.freeCount := by unfold State.advanceTime; split <;> rfl

end Sys2Proof.Machine
end

