-- ==== Sys2Proof/Laws/Ops.lean ====
section
/-! SUPPORT. What each shared operation can do, said once: memory through the frame and field
accessors, the end of a sweep-start step, the deadline, and the three sweep-start operations. -/

namespace Sys2Proof.Machine

/-! ## Memory -/

/-- A frame byte after a write of one frame byte. -/
theorem State.readFrame_writeFrame (s : State) (b b' : BitVec 1) (a a' : Nat) (d : BitVec 8) :
    (s.writeFrame b a d).readFrame b' a' =
      if b' = b ∧ a' = a then d else s.readFrame b' a' := by
  have hb : ∀ x : BitVec 1, x = 0#1 ∨ x = 1#1 := by decide
  rcases hb b with rfl | rfl <;> rcases hb b' with rfl | rfl <;>
    simp [State.readFrame, State.frameMem, Space.unlisted, Memory.read_write_none] <;>
    (split <;> simp_all)

/-- A field byte after the whole field buffer is written. -/
theorem State.readField_writeField (s : State) (f : Nat → BitVec 8) (k : Nat) :
    (s.writeField f).readField k = if k < s.cfg.fieldLen then f k else 0#8 := by
  simp only [State.readField, State.writeField_field, Memory.read_fill, Space.unlisted]
  split <;> rfl

theorem State.length_fieldBytes (s : State) : s.fieldBytes.length = s.cfg.fieldLen := by
  simp [State.fieldBytes]

/-! ## Sweep-start steps -/

/-- How a micro-operation that can raise a fatal ends. -/
theorem finishStep_next {succ : BitVec 4} {r : MicroResult} {t : State}
    (h : finishStep succ r = .next t) :
    ∃ s, (r = .ok (s, none) ∧ t = s.setSeq succ) ∨ ∃ f, r = .ok (s, some f) ∧ t = s.fatal f := by
  match r, h with
  | .ok (s, none), h => exact ⟨s, .inl ⟨rfl, by simpa [finishStep] using h.symm⟩⟩
  | .ok (s, some f), h => exact ⟨s, .inr ⟨f, rfl, by simpa [finishStep] using h.symm⟩⟩
  | .error _, h => simp [finishStep] at h

/-- Everything a sweep-start step can do: skip its operation, end it, or enter a fatal. -/
theorem sweepStartStep_next {op : State → MicroResult} {succ : BitVec 4} {s t : State}
    (h : sweepStartStep op succ s = .next t) :
    (s.curVt = vtSaving ∧ t = s.setSeq succ) ∨
      (s.curVt ≠ vtSaving ∧ ∃ u, (op s = .ok (u, none) ∧ t = u.setSeq succ) ∨
        ∃ f, op s = .ok (u, some f) ∧ t = u.fatal f) := by
  unfold sweepStartStep at h
  split at h
  · exact .inl ⟨‹_›, by simpa using h.symm⟩
  · exact .inr ⟨‹_›, finishStep_next h⟩

/-! ## Time -/

/-- A deadline one period on, where it fits 64 bits. -/
theorem addPeriod_eq_some {c : Config} {t u : BitVec 64} :
    addPeriod c t = some u ↔
      t.toNat + c.fieldPeriod < 2 ^ 64 ∧ u = BitVec.ofNat 64 (t.toNat + c.fieldPeriod) := by
  unfold addPeriod
  split <;> simp_all [eq_comm]

theorem addPeriod_toNat {c : Config} {t u : BitVec 64} (h : addPeriod c t = some u) :
    u.toNat = t.toNat + c.fieldPeriod := by
  obtain ⟨h1, rfl⟩ := addPeriod_eq_some.1 h
  simpa using h1

/-! ## APPLYPAL -/

theorem miniLoop_length (s : State) (ps : List Patch) (m : List (List (BitVec 8))) :
    m.length = ps.length → (miniLoop s ps m).1.length = ps.length := by
  induction ps generalizing m with
  | nil => intro h; simpa [miniLoop] using h
  | cons p ps ih =>
    intro h
    unfold miniLoop
    split
    · simpa using ih m.tail (by simp [h])
    · exact h

theorem miniLoop_entries (s : State) (ps : List Patch) (m : List (List (BitVec 8))) :
    (∀ t ∈ m, t.length = 16) → ∀ t ∈ (miniLoop s ps m).1, t.length = 16 := by
  induction ps generalizing m with
  | nil => intro h; simpa [miniLoop] using h
  | cons p ps ih =>
    intro h
    unfold miniLoop
    split
    · intro t ht
      rcases List.mem_cons.1 ht with rfl | ht
      · simp [miniOf]
      · exact ih m.tail (fun u hu => h u (List.mem_of_mem_tail hu)) t ht
    · exact h

/-- With every patch valid the loop recomputes every table and raises nothing. -/
theorem miniLoop_valid (s : State) (ps : List Patch) (m : List (List (BitVec 8)))
    (hm : m.length = ps.length) (hp : ∀ p ∈ ps, patchValid p = true) :
    miniLoop s ps m = (ps.map (miniOf s), none) := by
  induction ps generalizing m with
  | nil => simp_all [miniLoop]
  | cons p ps ih =>
    have := ih m.tail (by simp [hm]) fun q hq => hp q (by simp [hq])
    simp [miniLoop, hp p (by simp), this]

/-- The first patch that is not valid ends the loop: the tables before it are new, the others keep
their values. -/
theorem miniLoop_invalid (s : State) (ps : List Patch) (m : List (List (BitVec 8)))
    (hm : m.length = ps.length) {k : Nat} {p : Patch} (hk : ps[k]? = some p)
    (hp : patchValid p = false) (hq : ∀ q ∈ ps.take k, patchValid q = true) :
    miniLoop s ps m = ((ps.take k).map (miniOf s) ++ m.drop k, some .patch) := by
  induction ps generalizing m k with
  | nil => simp at hk
  | cons q ps ih =>
    cases k with
    | zero =>
      simp only [List.getElem?_cons_zero, Option.some.injEq] at hk
      subst hk
      simp [miniLoop, hp]
    | succ k =>
      have hv : patchValid q = true := hq q (by simp)
      have := ih m.tail (by simp [hm]) (k := k) (by simpa using hk)
        (fun r hr => hq r (by simp [hr]))
      simp [miniLoop, hv, this]

theorem miniLoop_fatal (s : State) (ps : List Patch) (m : List (List (BitVec 8))) :
    (miniLoop s ps m).2 = none ∨ (miniLoop s ps m).2 = some .patch := by
  induction ps generalizing m with
  | nil => exact .inl rfl
  | cons p ps ih =>
    unfold miniLoop
    split
    · exact ih m.tail
    · exact .inr rfl

/-- Everything APPLYPAL can do. -/
theorem applyPalette_ok {s u : State} {f : Option FatalCause} (h : applyPalette s = .ok (u, f)) :
    (s.palPending = false ∧ u = s ∧ f = none) ∨
      (s.palPending = true ∧
        u = { s with
          palPending := false, lum := (List.range 256).map (newLum s.cfg s.gammaLevel s.palReq),
          mini := u.mini } ∧
        (s.mini.length = s.cfg.patches.length → u.mini.length = s.cfg.patches.length) ∧
        ((∀ t ∈ s.mini, t.length = 16) → ∀ t ∈ u.mini, t.length = 16) ∧
        (f = none ∨ f = some .patch)) := by
  unfold applyPalette at h
  split at h
  · split at h
    · simp at h
    · simp only [Except.ok.injEq, Prod.mk.injEq] at h
      obtain ⟨rfl, rfl⟩ := h
      exact .inr ⟨‹_›, rfl, miniLoop_length _ _ _, miniLoop_entries _ _ _, miniLoop_fatal _ _ _⟩
  · simp only [Except.ok.injEq, Prod.mk.injEq] at h
    simp_all

/-! ## REBUILDOV -/

theorem linkRecord_head_length (head : List (BitVec 16)) (recs : List OvRecord) (i r : Nat) :
    (linkRecord head recs i r).1.length = head.length := by simp [linkRecord]

theorem linkRecord_recs_length (head : List (BitVec 16)) (recs : List OvRecord) (i r : Nat) :
    (linkRecord head recs i r).2.length = recs.length := by simp [linkRecord]

/-- Linking a record changes no row field. -/
theorem linkRecord_rows (head : List (BitVec 16)) (recs : List OvRecord) (i r j : Nat) :
    (linkRecord head recs i r).2[j]?.map OvRecord.row = recs[j]?.map OvRecord.row := by
  simp only [linkRecord, List.getElem?_modify]
  cases recs[j]? with
  | none => rfl
  | some x => by_cases h : i = j <;> simp [h]

/-- What the reverse scan keeps: the table sizes, the row fields, and the records from the scan's start
on. -/
theorem linkDown_frame (rows n : Nat) (head : List (BitVec 16)) (recs : List OvRecord) :
    (linkDown rows n head recs).1.1.length = head.length ∧
      (linkDown rows n head recs).1.2.length = recs.length ∧
      (∀ j : Nat, (linkDown rows n head recs).1.2[j]?.map OvRecord.row = recs[j]?.map OvRecord.row) ∧
      (∀ j : Nat, n ≤ j → (linkDown rows n head recs).1.2[j]? = recs[j]?) ∧
      ((linkDown rows n head recs).2 = none ∨ (linkDown rows n head recs).2 = some .overlayRow) := by
  induction n generalizing head recs with
  | zero => simp [linkDown]
  | succ i ih =>
    unfold linkDown
    simp only
    split
    · simp
    · obtain ⟨h1, h2, h3, h4, h5⟩ :=
        ih (linkRecord head recs i (recs.getD i ⟨0#16, ovNil⟩).row.toNat).1
          (linkRecord head recs i (recs.getD i ⟨0#16, ovNil⟩).row.toNat).2
      refine ⟨by simpa [linkRecord] using h1, by simpa [linkRecord] using h2, fun j => ?_,
        fun j hj => ?_, h5⟩
      · rw [h3, linkRecord_rows]
      · rw [h4 j (by omega)]
        have : ¬ i = j := by omega
        simp [linkRecord, this]

/-- Everything REBUILDOV can do, apart from the order of the chains. -/
theorem rebuildOverlays_ok {s u : State} {f : Option FatalCause}
    (h : rebuildOverlays s = .ok (u, f)) :
    u = { s with head := u.head, ovrec := s.ovrec.set s.curOv.toNat (u.ovSet s.curOv.toNat) } ∨
      (s.ovrec.length ≤ s.curOv.toNat ∧ u = { s with head := u.head }) := by
  unfold rebuildOverlays at h
  simp only [Except.ok.injEq, Prod.mk.injEq] at h
  obtain ⟨rfl, rfl⟩ := h
  by_cases hl : s.curOv.toNat < s.ovrec.length
  · left
    simp [State.ovSet, hl]
  · right
    refine ⟨by omega, ?_⟩
    simp [List.set_eq_of_length_le (by omega : s.ovrec.length ≤ s.curOv.toNat)]

/-! ## ADVWIPE -/

theorem minOffset_le (offs : List (BitVec 16)) (m : Nat) :
    offs.foldl (fun m off => min m off.toNat) m ≤ m ∧
      ∀ o ∈ offs, offs.foldl (fun m off => min m off.toNat) m ≤ o.toNat := by
  induction offs generalizing m with
  | nil => simp
  | cons x xs ih =>
    obtain ⟨h1, h2⟩ := ih (min m x.toNat)
    refine ⟨?_, fun o ho => ?_⟩
    · exact Nat.le_trans h1 (Nat.min_le_left _ _)
    · rcases List.mem_cons.1 ho with rfl | ho
      · exact Nat.le_trans h1 (Nat.min_le_right _ _)
      · exact h2 o ho

theorem minOffset_attained (offs : List (BitVec 16)) (m : Nat) :
    offs.foldl (fun m off => min m off.toNat) m = m ∨
      ∃ o ∈ offs, offs.foldl (fun m off => min m off.toNat) m = o.toNat := by
  induction offs generalizing m with
  | nil => simp
  | cons x xs ih =>
    rcases ih (min m x.toNat) with h | ⟨o, ho, h⟩
    · rcases Nat.le_total m x.toNat with hm | hm
      · left; simpa [hm] using h
      · right
        exact ⟨x, by simp, by simpa [hm] using h⟩
    · right
      exact ⟨o, by simp [ho], h⟩

/-- The least offset of a table that is not empty is one of its offsets and below or equal to all. -/
theorem minOffset_spec {offs : List (BitVec 16)} (h : offs ≠ []) :
    (∀ o ∈ offs, minOffset offs ≤ o.toNat) ∧ ∃ o ∈ offs, minOffset offs = o.toNat := by
  refine ⟨(minOffset_le offs _).2, ?_⟩
  rcases minOffset_attained offs 0xFFFF with e | ⟨o, ho, e⟩
  · obtain ⟨o, ho⟩ := List.exists_mem_of_ne_nil _ h
    refine ⟨o, ho, ?_⟩
    have h1 := (minOffset_le offs 0xFFFF).2 o ho
    have h2 := o.isLt
    unfold minOffset
    omega
  · exact ⟨o, ho, e⟩

/-- Everything ADVWIPE can do. -/
theorem advanceWipe_ok {s u : State} {f : Option FatalCause} (h : advanceWipe s = .ok (u, f)) :
    (s.cfg.wipeT < s.wipeMin.toNat ∧ u = s ∧ f = none) ∨
      (s.wipeMin.toNat ≤ s.cfg.wipeT ∧
        u = { s with
          wipeRaw := s.wipeRaw.map fun r => (advanceColumn s.cfg s.sweepParity r).1,
          wipeOff := s.wipeRaw.map fun r => (advanceColumn s.cfg s.sweepParity r).2,
          wipeMin := u.wipeMin } ∧
        ((minOffset u.wipeOff < s.wipeMin.toNat ∧ u.wipeMin = s.wipeMin ∧ f = some .wipeMin) ∨
          (s.wipeMin.toNat ≤ minOffset u.wipeOff ∧
            u.wipeMin = BitVec.ofNat 16 (minOffset u.wipeOff) ∧ f = none))) := by
  unfold advanceWipe at h
  split at h
  · simp only [Except.ok.injEq, Prod.mk.injEq] at h
    obtain ⟨rfl, rfl⟩ := h
    exact .inl ⟨‹_›, rfl, rfl⟩
  · right
    refine ⟨by omega, ?_⟩
    simp only [List.map_map] at h
    split at h
    · simp only [Except.ok.injEq, Prod.mk.injEq] at h
      obtain ⟨rfl, rfl⟩ := h
      exact ⟨rfl, .inl ⟨‹_›, rfl, rfl⟩⟩
    · simp only [Except.ok.injEq, Prod.mk.injEq] at h
      obtain ⟨rfl, rfl⟩ := h
      rename_i h1 h2
      exact ⟨rfl, .inr ⟨by simpa using h2, rfl, rfl⟩⟩

end Sys2Proof.Machine
end

