-- ==== Sys2Proof/Laws/Fetch.lean ====
section
/-! SUPPORT. What a step can do, said once: which operations each format decodes to, and the cases of
a step. -/

namespace Sys2Proof.Machine

/-! ## Formats -/

/-- A decoded sequencer code is a micro-operation, and the code says which. -/
theorem decodeMicro_ok {c : BitVec 4} {i : Instr} (h : decodeMicro c = .ok i) :
    (c = seqInit ∧ i = .init) ∨ (c = seqWaitsync ∧ i = .waitsync) ∨ (c = seqPal ∧ i = .applypal) ∨
    (c = seqOvl ∧ i = .rebuildov) ∨ (c = seqWipe ∧ i = .advwipe) ∨ (c = seqEncode ∧ i = .encode) ∨
    (c = seqPark ∧ i = .park) ∨ (c = seqRun ∧ i = .run) ∨ (c = seqRelease ∧ i = .release) ∨
    (c = seqPace ∧ i = .pace) ∨ (c = seqHalt ∧ i = .halt) := by
  unfold decodeMicro at h
  repeat' split at h
  all_goals simp_all

/-- A decoded transaction is TXCMD or TXDATA of at least one byte. -/
theorem decodeTransaction_ok {syms : List (BitVec 9)} {i : Instr}
    (h : decodeTransaction syms = .ok i) :
    syms ≠ [] ∧ (i = .txcmd (syms.map symbolByte) ∨ i = .txdata (syms.map symbolByte)) := by
  unfold decodeTransaction at h
  repeat' split at h
  all_goals simp_all

/-- A decoded command word is one of the ten commands. -/
theorem decodeCommand_ok {w : BitVec 32} {i : Instr} (h : decodeCommand w = .ok i) :
    (∃ b a d, i = .pxw b a d) ∨ (∃ b a, i = .pxr b a) ∨ (∃ id, i = .palreq id) ∨
    (∃ g, i = .gamma g) ∨ (∃ vt ov fb, i = .publish vt ov fb) ∨ (∃ os j r, i = .ovw os j r) ∨
    (∃ os n, i = .ovn os n) ∨ (∃ x r, i = .wipew x r) ∨ (∃ m, i = .wipemin m) ∨ i = .rdstat := by
  unfold decodeCommand at h
  repeat' split at h
  all_goals first | (simp at h; done) | (cases h; simp)

/-! ## Turns -/

/-- Taking a turn changes nothing but the turns to come and the count of free choices. -/
theorem takeTurn_frame (s : State) :
    (takeTurn s).2 = { s with turns := (takeTurn s).2.turns, freeCount := (takeTurn s).2.freeCount } := by
  unfold takeTurn
  split <;> rfl

/-- Presenting a word: the one on the port stays; otherwise a new one comes to the port and the last
response goes, or there is none. -/
theorem presentWord_cases (s : State) :
    (∃ w, s.port = some w ∧ presentWord s = (some w, s)) ∨
    (s.port = none ∧ ∃ w ws n, presentWord s =
      (some w, { s with port := some w, commands := ws, response := none, freeCount := n })) ∨
    (s.port = none ∧ ∃ n, presentWord s = (none, { s with freeCount := n })) := by
  unfold presentWord
  cases hp : s.port with
  | some w => exact .inl ⟨w, rfl, rfl⟩
  | none =>
    right
    cases hc : s.commands with
    | cons w ws => exact .inl ⟨rfl, w, ws, s.freeCount, rfl⟩
    | nil =>
      simp only
      cases hf : Config.freeCommand s.freeCount with
      | some w => exact .inl ⟨trivial, w, [], s.freeCount + 1, rfl⟩
      | none => exact .inr ⟨trivial, s.freeCount + 1, rfl⟩

/-- The cases of a step that answers a next state. `u` is the state after the turn is taken. -/
theorem step_cases {s t : State} (h : step s = .next t) :
    (s.transport ≠ [] ∧ ∃ i, decodeTransaction s.transport = .ok i ∧
      exec i { s with transport := [] } = .next t) ∨
    (s.transport = [] ∧ ∃ u, u = (takeTurn s).2 ∧
      (((takeTurn s).1 = .producer ∧
          ((∃ w v i, presentWord u = (some w, v) ∧ decodeCommand w = .ok i ∧ exec i v = .next t) ∨
           (∃ w v e, presentWord u = (some w, v) ∧ decodeCommand w = .error e ∧
              t = v.refuse .cmd) ∨
           presentWord u = (none, t))) ∨
        ((takeTurn s).1 = .display ∧ ∃ i, decodeMicro u.seq = .ok i ∧ exec i u = .next t) ∨
        (∃ now, (takeTurn s).1 = .time now ∧ t = u.advanceTime now) ∨
        ((takeTurn s).1 = .reset ∧ t = u.pulseReset))) := by
  unfold step fetch at h
  by_cases ht : s.transport = []
  · right
    refine ⟨ht, (takeTurn s).2, rfl, ?_⟩
    simp only [ht, List.isEmpty_nil, if_true, fetchTurn] at h
    cases hT : (takeTurn s).1 with
    | producer =>
      left
      simp only [hT, fetchCommand, decode] at h
      refine ⟨rfl, ?_⟩
      rcases hp : presentWord (takeTurn s).2 with ⟨_ | w, v⟩
      · simp only [hp, Host.Outcome.next.injEq] at h
        subst h
        exact .inr (.inr rfl)
      · rcases hd : decodeCommand w with e | i
        · simp only [hp, hd, Host.Outcome.next.injEq] at h
          exact .inr (.inl ⟨w, v, e, rfl, hd, h.symm⟩)
        · simp only [hp, hd] at h
          exact .inl ⟨w, v, i, rfl, hd, h⟩
    | display =>
      right; left
      simp only [hT, fetchMicro, decode] at h
      refine ⟨rfl, ?_⟩
      rcases hd : decodeMicro (takeTurn s).2.seq with e | i
      · simp [hd] at h
      · simp only [hd] at h
        exact ⟨i, rfl, h⟩
    | time now =>
      right; right; left
      simp only [hT, Host.Outcome.next.injEq] at h
      exact ⟨now, rfl, h.symm⟩
    | reset =>
      right; right; right
      simp only [hT, Host.Outcome.next.injEq] at h
      exact ⟨rfl, h.symm⟩
  · left
    refine ⟨ht, ?_⟩
    have : s.transport.isEmpty = false := by simpa using ht
    simp only [this, Bool.false_eq_true, if_false, fetchTransaction, decode] at h
    rcases hd : decodeTransaction s.transport with e | i
    · simp [hd] at h
    · simp only [hd] at h
      exact ⟨i, rfl, h⟩

end Sys2Proof.Machine
end

