-- ==== Sys2Proof/Laws/PerInstr.lean ====
section
/-! SUPPORT. Statements about every instruction, one lemma per constructor: the words of each
instruction lie in its row of the opcode table. -/

namespace Sys2Proof.Laws

/-- What the opcode table says of a row's words: the mask and the fixed bits of a command word, the
sequencer code, or the data/command bit of the symbols. -/
inductive EncodeLegal.Row where
  | command (mask bits : BitVec 32)
  | micro (code : BitVec 4)
  | transaction (isData : Bool)

/-- The row of the opcode table of each operation (30_encoding.md R98, R102, R103). -/
def EncodeLegal.row : Instr → EncodeLegal.Row
  | .pxw _ _ _ => .command 0xF0000000#32 0x10000000#32
  | .pxr _ _ => .command 0xF00000FF#32 0x20000000#32
  | .palreq _ => .command 0xFFFFFF00#32 0x30000000#32
  | .gamma _ => .command 0xFFFFFF00#32 0x40000000#32
  | .publish _ _ _ => .command 0xFF0000FE#32 0x50000000#32
  | .ovw _ _ _ => .command 0xF0000000#32 0x60000000#32
  | .ovn _ _ => .command 0xF3FFF800#32 0x70000000#32
  | .wipew _ _ => .command 0xF0000000#32 0x80000000#32
  | .wipemin _ => .command 0xFFFF0000#32 0x90000000#32
  | .rdstat => .command 0xFFFFFFFF#32 0xA0000000#32
  | .init => .micro 0x0#4
  | .waitsync => .micro 0x1#4
  | .applypal => .micro 0x2#4
  | .rebuildov => .micro 0x3#4
  | .advwipe => .micro 0x4#4
  | .encode => .micro 0x5#4
  | .park => .micro 0x6#4
  | .run => .micro 0x7#4
  | .release => .micro 0x8#4
  | .pace => .micro 0x9#4
  | .halt => .micro 0xF#4
  | .txcmd _ => .transaction false
  | .txdata _ => .transaction true

/-- A well-formed operation's words lie in its row: the fixed bits of its command word, its code, or
one or more symbols all with its data/command bit. -/
def EncodeLegal.Statement (i : Instr) : Prop :=
  i.wellFormed = true →
  match EncodeLegal.row i with
  | .command mask bits => ∃ w, encode i = .command w ∧ w &&& mask = bits
  | .micro code => encode i = .micro code
  | .transaction isData =>
    ∃ syms, encode i = .transaction syms ∧ syms ≠ [] ∧ ∀ sym ∈ syms, sym.getLsbD 8 = isData

theorem EncodeLegal.pxw (b : BitVec 1) (a : BitVec 19) (d : BitVec 8) : EncodeLegal.Statement (.pxw b a d) := fun _ => ⟨_, rfl, by
  apply BitVec.eq_of_getLsbD_eq
  intro k hk
  simp only [BitVec.getLsbD_and, BitVec.getLsbD_append]
  interval_cases k <;> simp⟩

theorem EncodeLegal.pxr (b : BitVec 1) (a : BitVec 19) : EncodeLegal.Statement (.pxr b a) := fun _ => ⟨_, rfl, by
  apply BitVec.eq_of_getLsbD_eq
  intro k hk
  simp only [BitVec.getLsbD_and, BitVec.getLsbD_append]
  interval_cases k <;> simp⟩

theorem EncodeLegal.palreq (id : BitVec 8) : EncodeLegal.Statement (.palreq id) := fun _ => ⟨_, rfl, by
  apply BitVec.eq_of_getLsbD_eq
  intro k hk
  simp only [BitVec.getLsbD_and, BitVec.getLsbD_append]
  interval_cases k <;> simp⟩

theorem EncodeLegal.gamma (g : BitVec 8) : EncodeLegal.Statement (.gamma g) := fun _ => ⟨_, rfl, by
  apply BitVec.eq_of_getLsbD_eq
  intro k hk
  simp only [BitVec.getLsbD_and, BitVec.getLsbD_append]
  interval_cases k <;> simp⟩

theorem EncodeLegal.publish (vt : BitVec 8) (ov : BitVec 8) (fb : BitVec 1) : EncodeLegal.Statement (.publish vt ov fb) := fun _ => ⟨_, rfl, by
  apply BitVec.eq_of_getLsbD_eq
  intro k hk
  simp only [BitVec.getLsbD_and, BitVec.getLsbD_append]
  interval_cases k <;> simp⟩

theorem EncodeLegal.ovw (os : BitVec 2) (i : BitVec 10) (row : BitVec 16) : EncodeLegal.Statement (.ovw os i row) := fun _ => ⟨_, rfl, by
  apply BitVec.eq_of_getLsbD_eq
  intro k hk
  simp only [BitVec.getLsbD_and, BitVec.getLsbD_append]
  interval_cases k <;> simp⟩

theorem EncodeLegal.ovn (os : BitVec 2) (n : BitVec 11) : EncodeLegal.Statement (.ovn os n) := fun _ => ⟨_, rfl, by
  apply BitVec.eq_of_getLsbD_eq
  intro k hk
  simp only [BitVec.getLsbD_and, BitVec.getLsbD_append]
  interval_cases k <;> simp⟩

theorem EncodeLegal.wipew (x : BitVec 12) (raw : BitVec 16) : EncodeLegal.Statement (.wipew x raw) := fun _ => ⟨_, rfl, by
  apply BitVec.eq_of_getLsbD_eq
  intro k hk
  simp only [BitVec.getLsbD_and, BitVec.getLsbD_append]
  interval_cases k <;> simp⟩

theorem EncodeLegal.wipemin (m : BitVec 16) : EncodeLegal.Statement (.wipemin m) := fun _ => ⟨_, rfl, by
  apply BitVec.eq_of_getLsbD_eq
  intro k hk
  simp only [BitVec.getLsbD_and, BitVec.getLsbD_append]
  interval_cases k <;> simp⟩

theorem EncodeLegal.rdstat : EncodeLegal.Statement .rdstat := fun _ => ⟨_, rfl, by decide⟩

theorem EncodeLegal.init : EncodeLegal.Statement .init := fun _ => rfl

theorem EncodeLegal.waitsync : EncodeLegal.Statement .waitsync := fun _ => rfl

theorem EncodeLegal.applypal : EncodeLegal.Statement .applypal := fun _ => rfl

theorem EncodeLegal.rebuildov : EncodeLegal.Statement .rebuildov := fun _ => rfl

theorem EncodeLegal.advwipe : EncodeLegal.Statement .advwipe := fun _ => rfl

theorem EncodeLegal.encode : EncodeLegal.Statement .encode := fun _ => rfl

theorem EncodeLegal.park : EncodeLegal.Statement .park := fun _ => rfl

theorem EncodeLegal.run : EncodeLegal.Statement .run := fun _ => rfl

theorem EncodeLegal.release : EncodeLegal.Statement .release := fun _ => rfl

theorem EncodeLegal.pace : EncodeLegal.Statement .pace := fun _ => rfl

theorem EncodeLegal.halt : EncodeLegal.Statement .halt := fun _ => rfl

theorem EncodeLegal.txcmd (seq : List (BitVec 8)) : EncodeLegal.Statement (.txcmd seq) := fun h =>
  ⟨_, rfl, by simpa [Instr.wellFormed] using h, fun _ hs => by
    obtain ⟨b, -, rfl⟩ := List.mem_map.1 hs
    simp only [cmdSymbol, BitVec.getLsbD_append]
    simp⟩

theorem EncodeLegal.txdata (buf : List (BitVec 8)) : EncodeLegal.Statement (.txdata buf) := fun h =>
  ⟨_, rfl, by simpa [Instr.wellFormed] using h, fun _ hs => by
    obtain ⟨b, -, rfl⟩ := List.mem_map.1 hs
    simp only [dataSymbol, BitVec.getLsbD_append]
    simp⟩

end Sys2Proof.Laws
end

