-- ==== Sys2Proof/Laws/Transport.lean ====
section
/-! SUPPORT. The serial form of the panel stream: what one event does to the lines and what is sampled
from it, said once. -/

namespace Sys2Proof.Machine

@[simp] theorem clockIdle_sck (cs : Bool) (dc : Option Bool) : (clockIdle cs dc).sck = false := rfl

/-- The serial form of an event ends with the clock idle. -/
theorem serialForm_ends_idle (e : PanelEvent) :
    ∃ xs cs dc, serialForm e = xs ++ [clockIdle cs dc] := by
  cases e with
  | csAssert => exact ⟨[], false, none, rfl⟩
  | csDeassert => exact ⟨[], true, none, rfl⟩
  | byte dc b => exact ⟨_, false, some dc.level, rfl⟩

/-- Chip select is low at every level of a byte and of an assert; the clock is low where it is high. -/
theorem serialForm_clock_low {e : PanelEvent} {l : LineLevels} (h : l ∈ serialForm e)
    (hcs : l.cs = true) : l.sck = false := by
  cases e with
  | csAssert => simp_all [serialForm, clockIdle]
  | csDeassert => simp_all [serialForm, clockIdle]
  | byte dc b =>
    simp only [serialForm, clockPulse, clockIdle, List.mem_append, List.mem_flatMap,
      List.mem_cons, List.not_mem_nil, or_false] at h
    rcases h with ⟨_, _, rfl | rfl⟩ | rfl <;> simp_all

/-- From an idle clock the serial form of an event gives that event's samples, and leaves the clock
idle for what follows. -/
theorem risingEdges_serialForm (e : PanelEvent) (rest : List LineLevels) :
    risingEdges false (serialForm e ++ rest) = eventSamples e ++ risingEdges false rest := by
  cases e with
  | csAssert => rfl
  | csDeassert => rfl
  | byte dc b => cases dc <;> rfl

end Sys2Proof.Machine
end

