-- ==== Sys2Proof/Tests/Slice0.lean ====
section
/-! SUPPORT. Tests: words written out from spec/30_encoding.md, one-step results of
spec/95_test_vectors.md (the vector is named at each), and one witness for each statement with
hypotheses. -/

namespace Sys2Proof.Tests

open Sys2Proof.Machine

-- The theorems are checked one after another: in parallel their threads reserve too much memory.
set_option Elab.async false

/-- The state a step answers with. -/
def nextOf : Host.Outcome State Fault Refusal → Option State
  | .next s => some s
  | .fault _ => none
  | .refused _ => none

/-- The refusal a step answers with. -/
def refusalOf : Host.Outcome State Fault Refusal → Option Refusal
  | .next _ => none
  | .fault _ => none
  | .refused r => some r

/-- The state after `exec`, read by `f`. -/
def after {α : Type} (i : Instr) (s : State) (f : State → α) : Option α :=
  (nextOf (exec i s)).map f

/-- The response status and the three error flags. -/
def answer (s : State) : Option (BitVec 2) × Bool × Bool × Bool :=
  (s.response.map Response.status, s.errOwn, s.errAddr, s.errCmd)

/-- CFG-B after reset. -/
def base : State := State.reset

/-- CFG-B with a sweep active on `FB1` and overlay set 0 (V12). -/
def sweep : State :=
  { base with sem := false, dispHolds := true, curFb := 1#1, nextFb := 1#1, seq := seqPal }

/-- CFG-B with frame 1 the grey ramp of V5 and its luminances. -/
def ramp : State :=
  { sweep with
    fb1 := (List.range 16).map fun a => (a, BitVec.ofNat 8 (16 * a)),
    lum := (List.range 256).map fun i => BitVec.ofNat 8 (min 255 (11 * i / 8)),
    seq := seqEncode }

/-- The parameters of V9. -/
def wipeConfig : Config := { Config.default with wipeCols := 4, wipeH := 20, wipeT := 19 }

/-- A wipe in progress with the raw offsets and the minimum given (V9). -/
def wiping (raw : List (BitVec 16)) (m : BitVec 16) (parity : Bool) : State :=
  { State.resetWith wipeConfig 0#64 0 with
    sem := false, dispHolds := true, seq := seqWipe, wipeRaw := raw, wipeMin := m,
    sweepParity := parity }

/-- Overlay set 0 holds records with the rows given (V8). -/
def overlaid (rows : List Nat) : State :=
  { sweep with
    seq := seqOvl,
    ovCount := [BitVec.ofNat 11 rows.length, 0#11],
    ovrec := [rows.map (fun r => ⟨BitVec.ofNat 16 r, 0x1234#16⟩)
        ++ List.replicate (8 - rows.length) ⟨0#16, 0x1234#16⟩,
      List.replicate 8 ⟨0#16, 0#16⟩] }

/-- The patches of V3c. -/
def patched (depth1 : BitVec 8) : State :=
  let c := { Config.default with patches :=
    [⟨4#8, true, true, (List.range 16).map fun j => BitVec.ofNat 8 (16 * j)⟩,
     ⟨depth1, true, true, List.replicate 16 0#8⟩, ⟨4#8, true, true, List.replicate 16 255#8⟩] }
  { State.resetWith c 0#64 0 with sem := false, dispHolds := true, seq := seqPal, palPending := true }

/-- A step of the machine after reset whose first operation is the command word given. -/
def firstCommand (w : Nat) : Option State := nextOf (step (base.withFetchWord 32 w))

/-! ## Decoding: every row, from a word written out from 30_encoding.md R97, R102, R103 (V10) -/

theorem test_decode_pxw :
    decode (.command 0b0001_1_0000000000000000111_00000001#32) = .ok (.pxw 1#1 7#19 1#8) := by decide
theorem test_decode_pxw_fields :
    decode (.command 0x17FFFFFF#32) = .ok (.pxw 0#1 0x7FFFF#19 0xFF#8) := by decide
theorem test_decode_pxr :
    decode (.command 0b0010_1_0000000000000000111_00000000#32) = .ok (.pxr 1#1 7#19) := by decide
theorem test_decode_palreq :
    decode (.command 0b0011_00000000000000000000_00001000#32) = .ok (.palreq 8#8) := by decide
theorem test_decode_gamma :
    decode (.command 0b0100_00000000000000000000_00000010#32) = .ok (.gamma 2#8) := by decide
theorem test_decode_publish :
    decode (.command 0b0101_0000_00000010_00000001_0000000_1#32) = .ok (.publish 2#8 1#8 1#1) := by
  decide
theorem test_decode_ovw :
    decode (.command 0b0110_01_0000000010_0000000000000001#32) = .ok (.ovw 1#2 2#10 1#16) := by decide
theorem test_decode_ovn :
    decode (.command 0b0111_01_000000000000000_00000000011#32) = .ok (.ovn 1#2 3#11) := by decide
theorem test_decode_wipew :
    decode (.command 0b1000_000000000011_1111111111111110#32) = .ok (.wipew 3#12 (-2#16)) := by decide
theorem test_decode_wipemin :
    decode (.command 0b1001_000000000000_1111111111111111#32) = .ok (.wipemin 65535#16) := by decide
theorem test_decode_rdstat :
    decode (.command 0b1010_0000000000000000000000000000#32) = .ok .rdstat := by decide
theorem test_decode_init : decode (.micro 0b0000#4) = .ok .init := by decide
theorem test_decode_waitsync : decode (.micro 0b0001#4) = .ok .waitsync := by decide
theorem test_decode_applypal : decode (.micro 0b0010#4) = .ok .applypal := by decide
theorem test_decode_rebuildov : decode (.micro 0b0011#4) = .ok .rebuildov := by decide
theorem test_decode_advwipe : decode (.micro 0b0100#4) = .ok .advwipe := by decide
theorem test_decode_encode : decode (.micro 0b0101#4) = .ok .encode := by decide
theorem test_decode_park : decode (.micro 0b0110#4) = .ok .park := by decide
theorem test_decode_run : decode (.micro 0b0111#4) = .ok .run := by decide
theorem test_decode_release : decode (.micro 0b1000#4) = .ok .release := by decide
theorem test_decode_pace : decode (.micro 0b1001#4) = .ok .pace := by decide
theorem test_decode_halt : decode (.micro 0b1111#4) = .ok .halt := by decide
theorem test_decode_txcmd :
    decode (.transaction [0b0_10101000#9, 0b0_00000000#9]) = .ok (.txcmd [0xA8#8, 0#8]) := by decide
theorem test_decode_txdata :
    decode (.transaction [0b1_01010101#9]) = .ok (.txdata [0x55#8]) := by decide

/-- The illegal words of V10. -/
theorem test_decode_illegal :
    ([0x00000000#32, 0xFFFFFFFF#32, 0xB0000000#32, 0xE0000000#32, 0xF0000000#32, 0x02800100#32,
      0x20000001#32, 0x30000100#32, 0x40000100#32, 0x50000002#32, 0x51000000#32, 0x70000800#32,
      0x72000000#32, 0x90010000#32, 0xA0000001#32].map fun w => decode (.command w)) =
    List.replicate 15 (.error .illegalCommand) := by decide +kernel

theorem test_decode_reserved_codes :
    ∀ c ∈ [0xA#4, 0xB#4, 0xC#4, 0xD#4, 0xE#4], decode (.micro c) = .error .reservedCode := by decide

theorem test_decode_bad_transactions :
    decode (.transaction []) = .error .emptyTransaction ∧
    decode (.transaction [0x0A8#9, 0x155#9]) = .error .mixedTransaction := by decide

theorem test_decodeTableWord :
    decodeTableWord 32 0x64020001 = some (.ovw 1#2 2#10 1#16) ∧ decodeTableWord 8 0x5 = some .encode ∧
    decodeTableWord 16 0x155 = some (.txdata [0x55#8]) ∧ decodeTableWord 8 0xA = none := by
  decide +kernel

/-! ## WellFormed: an ill-formed term for each check -/

theorem test_wellFormed_txcmd_empty : (Instr.txcmd []).wellFormed = false := by decide
theorem test_wellFormed_txdata_empty : (Instr.txdata []).wellFormed = false := by decide

/-! ## Producer commands -/

theorem test_default_valid : Config.default.valid = true := by decide +kernel

theorem test_step_pxw_first :
    (firstCommand 0x10000F80).map (fun t => (t.readFrame 0#1 15, answer t)) =
      some (0x80#8, some 0#2, false, false, false) := by decide +kernel
theorem test_pxw_range_before_ownership :
    after (.pxw 1#1 16#19 0#8) sweep answer = some (some 2#2, false, true, false) := by
  decide +kernel
theorem test_pxr_owned :
    after (.pxr 1#1 3#19) ramp answer = some (some 1#2, true, false, false) := by decide +kernel
theorem test_pxr_reads :
    after (.pxr 1#1 3#19) { ramp with dispHolds := false } State.response =
      some (some ⟨0#2, 0x30#32⟩) := by decide +kernel
theorem test_palreq_pal_n :
    after (.palreq 13#8) base (fun t => (t.palReq, t.palPending)) = some (13#8, true) := by
  decide +kernel
theorem test_palreq_refused :
    after (.palreq 14#8) base answer = some (some 3#2, false, false, true) := by decide +kernel
theorem test_gamma_refused :
    after (.gamma 1#8) base answer = some (some 3#2, false, false, true) := by decide +kernel
theorem test_gamma_sets :
    after (.gamma 1#8)
      { base with cfg := { base.cfg with gammaTables := [[], []] } }
      (fun t => (t.gammaLevel, t.palPending)) = some (1#8, false) := by decide +kernel
theorem test_publish_acquires :
    after (.publish 0xFF#8 1#8 1#1) base (fun t => (t.sem, t.prodHolds, t.nextFb, t.response)) =
      some (false, true, 0#1, none) := by decide +kernel
theorem test_publish_range_before_wait :
    after (.publish 0#8 2#8 0#1) sweep answer = some (some 3#2, false, false, true) := by
  decide +kernel
theorem test_ovw_last_record :
    after (.ovw 1#2 7#10 0xFFFF#16) (overlaid [2, 0]) (fun t => t.ovrec.map List.getLast?) =
      some [some ⟨0#16, 0x1234#16⟩, some ⟨0xFFFF#16, 0#16⟩] := by decide +kernel
theorem test_ovw_range_before_ownership :
    after (.ovw 0#2 1023#10 0#16) sweep answer = some (some 2#2, false, true, false) := by
  decide +kernel
theorem test_ovn_ov_max :
    after (.ovn 1#2 8#11) sweep State.ovCount = some [0#11, 8#11] := by decide +kernel
theorem test_ovn_owned :
    after (.ovn 0#2 0#11) sweep answer = some (some 1#2, true, false, false) := by decide +kernel
theorem test_wipew_most_negative :
    after (.wipew 1#12 0x8000#16) base (fun t => (t.wipeRaw, t.wipeOff)) =
      some ([8#16, 0x8000#16], [8#16, 8#16]) := by decide +kernel
theorem test_wipew_column_first :
    after (.wipew 4095#12 32767#16) base answer = some (some 2#2, false, true, false) := by
  decide +kernel
theorem test_wipemin :
    after (.wipemin 65535#16) base State.wipeMin = some 65535#16 := by decide +kernel
/-- V11, 0x000D80E0. -/
theorem test_rdstat :
    after .rdstat
      { base with errAddr := true, errCmd := true, palPending := true, palReq := 13#8 }
      State.response = some (some ⟨0#2, 0x000D80E0#32⟩) := by decide +kernel
/-- V11, 0x00000F13. -/
theorem test_rdstat_halted :
    after .rdstat
      { base with errOwn := true, halt := true, fatalCode := 1#3, seq := seqHalt, sem := false }
      State.response = some (some ⟨0#2, 0x00000F13#32⟩) := by decide +kernel
theorem test_step_illegal_first :
    (firstCommand 0x72000000).map answer = some (some 3#2, false, false, true) := by decide +kernel

/-! ## Display micro-operations -/

/-- P1, D1: 21 events, `DEADLINE = 6000` from `NOW = 1000`. -/
theorem test_init :
    after .init { base with now := 1000#64 } (fun t => (t.deadline, t.panel.length, t.seq)) =
      some (6000#64, 21, 1#4) := by decide +kernel
theorem test_waitsync :
    after .waitsync { base with nextVt := 9#8, nextFb := 1#1, nextOv := 1#8, seq := seqWaitsync }
      (fun t => (t.sem, t.dispHolds, t.curVt, t.curFb, t.curOv, t.seq)) =
      some (false, true, 9#8, 1#1, 1#8, 2#4) := by decide +kernel
/-- V3: lump GREY, `PAL_REQ = 8`. -/
theorem test_applypal_fade :
    after .applypal { sweep with palPending := true, palReq := 8#8 }
      (fun t => (t.readLum 0#8, t.readLum 0x80#8, t.readLum 255#8, t.palPending)) =
      some (141#8, 160#8, 180#8, false) := by decide +kernel
/-- V3c: patch 1 has the wrong depth. -/
theorem test_applypal_patch_fatal :
    after .applypal (patched 8#8) (fun t => (t.mini.map (·.getD 1 7#8), t.debugLog, t.status)) =
      some ([22#8, 0#8, 0#8], [2#3], 0x00000F05#32) := by decide +kernel
/-- V8, third row. -/
theorem test_rebuildov :
    after .rebuildov (overlaid [2, 0, 2, 2, 1])
      (fun t => (t.head, ((t.ovSet 0).take 6).map OvRecord.next)) =
      some ([1#16, 4#16, 0#16, 0xFFFF#16],
        [2#16, 0xFFFF#16, 3#16, 0xFFFF#16, 0xFFFF#16, 0x1234#16]) := by decide +kernel
/-- V8, fifth row. -/
theorem test_rebuildov_fatal :
    after .rebuildov (overlaid [3, 4, 1])
      (fun t => (t.head, ((t.ovSet 0).take 3).map OvRecord.next, t.fatalCode)) =
      some ([0xFFFF#16, 2#16, 0xFFFF#16, 0xFFFF#16], [0x1234#16, 0x1234#16, 0xFFFF#16], 1#3) := by
  decide +kernel
/-- V9, call 1. -/
theorem test_advwipe :
    after .advwipe (wiping [-2#16, 0#16, 5#16, 19#16] 0#16 false)
      (fun t => (t.wipeRaw, t.wipeOff, t.wipeMin, t.seq)) =
      some ([-1#16, 1#16, 11#16, 20#16], [0#16, 1#16, 11#16, 20#16], 0#16, 5#4) := by decide +kernel
/-- V9, second fatal case. -/
theorem test_advwipe_fatal :
    after .advwipe (wiping [3#16, 3#16, 3#16, 3#16] 10#16 true)
      (fun t => (t.wipeOff, t.wipeMin, t.fatalCode, t.seq)) =
      some ([7#16, 7#16, 7#16, 7#16], 10#16, 3#3, 0xF#4) := by decide +kernel
/-- V5, parity 0, field 2. -/
theorem test_encode_ramp :
    after .encode { ramp with fi := 2#2 } (fun t => (t.fieldBytes, t.seq)) =
      some ([0x1F#8, 0x8F#8], 6#4) := by decide +kernel
/-- V6, parity 0, field 0. -/
theorem test_encode_supersampled :
    after .encode
      { ramp with
        cfg := { Config.default with srcW := 4, srcH := 4, ss := 2 },
        fb1 := [0, 255, 100, 100, 255, 0, 100, 100, 50, 60, 200, 210, 70, 80, 220, 230].zipIdx.map
          fun p => (p.2, BitVec.ofNat 8 p.1) }
      State.fieldBytes = some [0x00#8, 0x03#8] := by decide +kernel
theorem test_park :
    after .park base (fun t => (t.panel, t.seq)) =
      some ([.csAssert, .byte .cmd 0xA8#8, .byte .cmd 0#8, .csDeassert], 7#4) := by decide +kernel
/-- P2, D16: RUN(2) with `FIELD = [0x55, 0]`. -/
theorem test_run_last_field :
    after .run { base with fi := 2#2, field := [(0, 0x55#8)] } (fun t => (t.panel, t.seq)) =
      some ([.csAssert, .byte .cmd 0x81#8, .byte .cmd 0x3F#8, .byte .cmd 0xA8#8, .byte .cmd 0x08#8,
        .csDeassert, .csAssert, .byte .data 0x55#8, .byte .data 0#8, .csDeassert], 8#4) := by
  decide +kernel
/-- V11, 0x00006980. -/
theorem test_release :
    after .release { sweep with seq := seqRelease, fi := 2#2 } State.status = some 0x00006980#32 := by
  decide +kernel
/-- V13: `NOW` jumps from 5999 to 9000. -/
theorem test_pace_late :
    after .pace { sweep with seq := seqPace, deadline := 6000#64, now := 9000#64 }
      (fun t => (t.deadline, t.fi, t.seq)) = some (11000#64, 1#2, 5#4) := by decide +kernel
theorem test_pace_held :
    after .pace { sweep with seq := seqPace, deadline := 6000#64, now := 5999#64 }
      (fun t => (t.deadline, t.fi, t.seq)) = some (6000#64, 0#2, 9#4) := by decide +kernel
theorem test_halt :
    after .halt { sweep with seq := seqHalt, halt := true } (fun t => (t.seq, t.panel, t.halt)) =
      some (0xF#4, [], true) := by decide +kernel
theorem test_txcmd :
    after (.txcmd [0xA8#8]) base State.panel =
      some [.csAssert, .byte .cmd 0xA8#8, .csDeassert] := by decide +kernel
theorem test_txdata :
    after (.txdata [0x55#8]) base State.panel =
      some [.csAssert, .byte .data 0x55#8, .csDeassert] := by decide +kernel
/-- 30_encoding.md R104: the first pulse of a command byte 0x80, on lines that idle before it. -/
theorem test_serial_first_pulse :
    (({ base with panel := transactionEvents .cmd [0x80#8] } : State).serialStream.take 5) =
      [⟨true, none, false, none⟩, ⟨false, none, false, none⟩, ⟨false, some false, false, some true⟩,
        ⟨false, some false, true, some true⟩, ⟨false, some false, false, some false⟩] := by
  decide +kernel
/-- 43_display_transport.md R189: eight pulses a byte, bit 7 first, and none outside a frame. -/
theorem test_serial_samples :
    risingEdges false ({ base with panel := transactionEvents .data [0x01#8] } : State).serialStream =
      List.replicate 7 (some true, some false) ++ [(some true, some true)] := by decide +kernel
theorem test_step_micro_first :
    (nextOf (step (base.withFetchWord 8 0x6))).map State.seq = some 7#4 := by decide +kernel
theorem test_step_symbol_first :
    (nextOf (step (base.withFetchWord 16 0x155))).map State.panel =
      some [.csAssert, .byte .data 0x55#8, .csDeassert] := by decide +kernel

/-! ## Witnesses: for each statement with hypotheses, states and operands that meet them together -/

theorem next_of_any {o : Host.Outcome State Fault Refusal} {p : State → Bool}
    (h : (nextOf o).any p = true) : ∃ t, o = .next t ∧ p t = true :=
  match o, h with
  | .next s, h => ⟨s, rfl, h⟩

theorem next_of_isSome {o : Host.Outcome State Fault Refusal} (h : (nextOf o).isSome = true) :
    ∃ t, o = .next t :=
  match o, h with
  | .next s, _ => ⟨s, rfl⟩

/-- A Bool test of `TableInv` for states with no PUBLISH in progress. -/
def tableOk (s : State) : Bool :=
  s.cfg.valid && s.lum.length == 256 && s.mini.length == s.cfg.numShared
    && s.mini.all (·.length == 16) && s.head.length == s.cfg.ovRows
    && s.head.all (fun h => h == ovNil || decide (h.toNat < s.cfg.ovMax))
    && s.wipeRaw.length == s.cfg.wipeCols && s.wipeOff.length == s.cfg.wipeCols
    && s.wipeRaw.all (fun r => decide (r.toInt ≤ s.cfg.wipeH))
    && s.wipeOff.all (fun o => decide (o.toNat ≤ s.cfg.wipeH))
    && s.ovCount.length == s.cfg.numOvSets
    && s.ovCount.all (fun n => decide (n.toNat ≤ s.cfg.ovMax))
    && s.ovrec.length == s.cfg.numOvSets && s.ovrec.all (·.length == s.cfg.ovMax)
    && decide (s.palReq.toNat ≤ s.cfg.palN) && decide (s.gammaLevel.toNat < s.cfg.nGamma)
    && decide (s.nextOv.toNat < s.cfg.numOvSets) && decide (s.curOv.toNat < s.cfg.numOvSets)
    && s.pubPhase == .acquire

theorem tableInv_of_ok {s : State} (h : tableOk s = true) : TableInv s := by
  simp only [tableOk, Bool.and_eq_true, List.all_eq_true, decide_eq_true_eq, beq_iff_eq,
    Bool.or_eq_true] at h
  obtain ⟨⟨⟨⟨⟨⟨⟨⟨⟨⟨⟨⟨⟨⟨⟨⟨⟨⟨h1, h2⟩, h3⟩, h4⟩, h5⟩, h6⟩, h7⟩, h8⟩, h9⟩, h10⟩, h11⟩, h12⟩, h13⟩, h14⟩,
    h15⟩, h16⟩, h17⟩, h18⟩, h19⟩ := h
  exact ⟨h1, h2, ⟨h3, h4⟩, h5, h6, h7, h8, h9, h10, h11, h12, ⟨h13, h14⟩, h15, h16, h17, h18,
    fun hp => absurd h19 hp⟩

/-- A Bool test of `CoreInv`, but for the PUBLISH in progress. -/
def coreOk (s : State) : Bool :=
  s.sem == (!s.dispHolds && !s.prodHolds) && !(s.dispHolds && s.prodHolds)
    && s.prodHolds == (s.pubPhase != .acquire) && s.dispHolds == sweepActiveAt s.seq s.fi
    && (!s.dispHolds || (s.curVt == s.nextVt && s.curFb == s.nextFb && s.curOv == s.nextOv))
    && (decode (.micro s.seq)).toOption.isSome && s.fi != 3#2
    && (s.fi == 0#2 || !(s.seq == seqInit || s.seq == seqWaitsync || s.seq == seqPal
      || s.seq == seqOvl || s.seq == seqWipe || s.seq == seqHalt))
    && (s.seq != seqRelease || s.fi == 2#2) && s.halt == (s.seq == seqHalt)
    && (if s.halt then s.fatalCode == 1#3 || s.fatalCode == 2#3 || s.fatalCode == 3#3
      else s.fatalCode == 0#3)
    && s.debugLog == (if s.halt then [s.fatalCode] else [])

theorem coreInv_of_ok {s : State} (h : coreOk s = true)
    (hp : s.pubPhase ≠ .acquire → publishInProgress s) : CoreInv s := by
  simp only [coreOk, Bool.and_eq_true] at h
  obtain ⟨⟨⟨⟨⟨⟨⟨⟨⟨⟨⟨h1, h2⟩, h3⟩, h4⟩, h5⟩, h6⟩, h7⟩, h8⟩, h9⟩, h10⟩, h11⟩, h12⟩ := h
  refine ⟨by simpa using h1, by revert h2; cases s.dispHolds <;> simp, by simpa using h3, hp, by simpa using h4, ?_, h6,
    by simpa using h7, ?_, ?_, by simpa using h10, ?_, by simpa using h12⟩
  · intro hd; simpa [hd, and_assoc] using h5
  · intro hs
    rcases hs with hs | hs | hs | hs | hs | hs <;> simpa [hs] using h8
  · intro hs; simpa [hs] using h9
  · revert h11; cases s.halt <;> simp [or_assoc]

/-- A producer's turn comes and the word stands on the port. -/
def onPort (s : State) (w : BitVec 32) : State := { s with turns := [.producer], port := some w }

/-- The display sequencer's turn comes. -/
def onTurn (s : State) : State := { s with turns := [.display] }

theorem witness_DecodeEncodeRoundTrip :
    (Instr.pxw 1#1 0x7FFFF#19 0xFF#8).wellFormed = true ∧ Instr.halt.wellFormed = true ∧
    (Instr.txdata [0xFF#8]).wellFormed = true := by decide

theorem witness_EncodeDecodeWords :
    decode (.command 0x6FFFFFFF#32) = .ok (.ovw 3#2 1023#10 0xFFFF#16) ∧
    decode (.micro 0xF#4) = .ok .halt ∧ decode (.transaction [0x1FF#9]) = .ok (.txdata [0xFF#8]) := by
  decide

/-- A word of the OVN row, and one that differs from it in a must-be-zero bit. -/
theorem witness_CommandRowsExact :
    0x7C0007FF#32 &&& 0xF3FFF800#32 = 0x70000000#32 ∧
    0x7E0007FF#32 &&& 0xF3FFF800#32 ≠ 0x70000000#32 := by decide +kernel

theorem witness_IllegalWordRefused :
    let s := onPort sweep 0x70000800#32
    s.transport = [] ∧ s.turns = [.producer] ∧ s.port = some 0x70000800#32 ∧
    decode (.command 0x70000800#32) = .error .illegalCommand := by decide +kernel

theorem witness_StepRunsDecodedOperation :
    (let s := onPort base 0xA0000000#32
     s.transport = [] ∧ s.turns = [.producer] ∧ s.port = some 0xA0000000#32) ∧
    (let s := { base with turns := [.producer], commands := [0xA0000000#32] }
     s.transport = [] ∧ s.port = none ∧ s.commands = [0xA0000000#32]) ∧
    decode (.command 0xA0000000#32) = .ok .rdstat ∧
    (let s := onTurn { base with seq := seqHalt }
     s.transport = [] ∧ s.turns = [.display] ∧ decode (.micro s.seq) = .ok .halt) ∧
    (let s := { base with transport := [0x1FF#9] }
     s.transport ≠ [] ∧ decode (.transaction s.transport) = .ok (.txdata [0xFF#8])) := by
  decide +kernel

theorem witness_TimeAndResetTurns :
    (let s := { base with turns := [.time 1#64] }
     s.transport = [] ∧ s.turns = [.time 1#64] ∧ s.now.toNat < (1#64).toNat) ∧
    (let s := { base with turns := [.time 0#64] }
     s.turns = [.time 0#64] ∧ (0#64).toNat ≤ s.now.toNat) ∧
    ({ sweep with turns := [.reset] } : State).turns = [.reset] := by decide +kernel

/-- The last pixel of the buffer the producer owns, during a sweep; a pixel of the buffer shown, with
no sweep. -/
theorem witness_PxwWritesOnePixel :
    ((15#19).toNat < sweep.cfg.srcW * sweep.cfg.srcH ∧
      ¬(sweep.dispHolds = true ∧ 0#1 = sweep.curFb)) ∧
    ((0#19).toNat < base.cfg.srcW * base.cfg.srcH ∧
      ¬(base.dispHolds = true ∧ 0#1 = base.curFb)) := by decide +kernel

theorem witness_PxrReturnsPixel :
    (15#19).toNat < sweep.cfg.srcW * sweep.cfg.srcH ∧
      ¬(sweep.dispHolds = true ∧ 0#1 = sweep.curFb) := by decide +kernel

/-- The producer's own buffer during a sweep on the other one, and both buffers with no sweep. -/
theorem witness_PxrReadsBackPxw :
    ((15#19).toNat < sweep.cfg.srcW * sweep.cfg.srcH ∧
      (0#19).toNat < sweep.cfg.srcW * sweep.cfg.srcH ∧
      ¬(sweep.dispHolds = true ∧ 0#1 = sweep.curFb)) ∧
    (¬(base.dispHolds = true ∧ 0#1 = base.curFb) ∧ ¬(base.dispHolds = true ∧ 1#1 = base.curFb)) := by
  decide +kernel

theorem witness_PalreqRecordsRequest : (13#8).toNat ≤ base.cfg.fade.length := by decide +kernel

theorem witness_GammaSetsLevelOnly : (0#8).toNat < base.cfg.gammaTables.length := by decide +kernel

theorem witness_OvwWritesRow :
    (1#2).toNat < sweep.cfg.numOvSets ∧ (7#10).toNat < sweep.cfg.ovMax ∧
    ¬(sweep.dispHolds = true ∧ (1#2).toNat = sweep.curOv.toNat) := by decide +kernel

theorem witness_OvnSetsCount :
    (1#2).toNat < sweep.cfg.numOvSets ∧ (8#11).toNat ≤ sweep.cfg.ovMax ∧
    ¬(sweep.dispHolds = true ∧ (1#2).toNat = sweep.curOv.toNat) := by decide +kernel

theorem witness_WipewSetsRaw :
    (1#12).toNat < base.cfg.wipeCols ∧ (8#16).toInt ≤ base.cfg.wipeH ∧
    (0x8000#16).toInt ≤ base.cfg.wipeH := by decide +kernel

theorem witness_PublishPhases :
    (base.pubPhase = .acquire ∧ (1#8).toNat < base.cfg.numOvSets ∧ base.sem = true) ∧
    ({ base with pubPhase := .write } : State).pubPhase = .write ∧
    ({ base with pubPhase := .release } : State).pubPhase = .release := by decide +kernel

theorem witness_PublishThreeTurnsComplete :
    let s := { base with
      turns := [.producer, .producer, .producer], port := some 0x50000101#32 }
    s.transport = [] ∧ decode (.command 0x50000101#32) = .ok (.publish 0#8 1#8 1#1) ∧
    (1#8).toNat < s.cfg.numOvSets ∧ s.pubPhase = .acquire ∧ s.sem = true := by decide +kernel

theorem witness_PublishWaitsOrIsRefused :
    sweep.pubPhase = .acquire ∧ sweep.cfg.numOvSets ≤ (2#8).toNat ∧
    (1#8).toNat < sweep.cfg.numOvSets ∧ sweep.sem = false := by decide +kernel

/-- A command that raises the flag and one that does not. -/
theorem witness_ErrOwnRaisedExactly :
    isCommandOp (.pxw 1#1 15#19 0#8) = true ∧ isCommandOp .rdstat = true ∧ sweep.response = none ∧
    sweep.dispHolds = true ∧ (15#19).toNat < sweep.cfg.srcW * sweep.cfg.srcH ∧ 1#1 = sweep.curFb := by
  decide +kernel

theorem witness_ErrAddrRaisedExactly :
    isCommandOp (.pxw 1#1 16#19 0#8) = true ∧ isCommandOp (.ovn 0#2 8#11) = true ∧
    sweep.response = none ∧ sweep.cfg.srcW * sweep.cfg.srcH ≤ (16#19).toNat := by decide +kernel

theorem witness_ErrCmdRaisedExactly :
    (isCommandOp (.wipew 1#12 9#16) = true ∧ isCommandOp (.wipew 2#12 9#16) = true ∧
      base.response = none ∧ base.pubPhase = .acquire ∧ (1#12).toNat < base.cfg.wipeCols ∧
      (base.cfg.wipeH : Int) < (9#16).toInt) ∧
    (let s := onPort base 0x50000002#32
     s.transport = [] ∧ s.turns = [.producer] ∧
      decode (.command 0x50000002#32) = .error .illegalCommand) := by decide +kernel

theorem witness_RefusalChangesNothingElse :
    isCommandOp (.palreq 14#8) = true ∧ base.response = none ∧
    (∃ t, exec (.palreq 14#8) base = .next t ∧
      decide (t.response = some ⟨3#2, 0#32⟩) = true) ∧ 3#2 ≠ 0#2 :=
  ⟨rfl, rfl, next_of_any (by decide +kernel), by decide⟩

theorem witness_InitStep :
    let s := { base with now := BitVec.ofNat 64 (2 ^ 64 - 5001) }
    s.now.toNat + s.cfg.fieldPeriod < 2 ^ 64 := by decide +kernel

theorem witness_UnmodelledCasesStop :
    (let s := { base with now := BitVec.ofNat 64 (2 ^ 64 - 5000) }
     2 ^ 64 ≤ s.now.toNat + s.cfg.fieldPeriod) ∧
    (let s := { base with
       now := BitVec.ofNat 64 (2 ^ 64 - 1), deadline := BitVec.ofNat 64 (2 ^ 64 - 5000) }
     s.deadline.toNat ≤ s.now.toNat ∧ s.fi ≠ 3#2 ∧
       2 ^ 64 ≤ s.deadline.toNat + s.cfg.fieldPeriod) ∧
    (let s := { base with
       cfg := { base.cfg with lump := List.replicate 767 0#8 }, palPending := true }
     s.curVt ≠ 0x01#8 ∧ s.palPending = true ∧ s.cfg.lump.length <
       (if s.palReq = 0#8 ∨ s.cfg.lump.length ≠ 768 then 768 * s.palReq.toNat else 0) + 768) ∧
    (let s := { base with fi := 3#2 }
     s.fi = 3#2 ∧ s.deadline.toNat ≤ s.now.toNat) ∧
    (let s := onTurn { base with seq := 0xA#4 }
     s.transport = [] ∧ s.turns = [.display] ∧ 0xA ≤ s.seq.toNat ∧ s.seq.toNat ≤ 0xE) := by
  decide +kernel

theorem witness_WaitsyncStep : base.sem = true ∧ sweep.sem = false := by decide +kernel

theorem witness_SavingTypeSkipsSweepStart :
    ({ sweep with curVt := 0x01#8, palPending := true } : State).curVt = 0x01#8 := by decide +kernel

theorem witness_ApplypalIdle : sweep.palPending = false := by decide +kernel

/-- Direct mode, and a special palette. -/
theorem witness_ApplypalRecomputes :
    ∀ id ∈ [0#8, 13#8],
    let s := { patched 4#8 with palReq := id }
    s.cfg.valid = true ∧ s.curVt ≠ 0x01#8 ∧ s.palPending = true ∧
    s.palReq.toNat ≤ s.cfg.fade.length ∧ s.mini.length = s.cfg.patches.length ∧
    (∀ p ∈ s.cfg.patches, p.depth = 4#8 ∧ p.flat = true ∧ p.hasPal = true) ∧
    (if s.palReq = 0#8 ∨ s.cfg.lump.length ≠ 768 then 768 * s.palReq.toNat else 0) + 768
      ≤ s.cfg.lump.length := by decide +kernel

theorem witness_ApplypalPatchFatal :
    let s := patched 8#8
    s.curVt ≠ 0x01#8 ∧ s.palPending = true ∧ s.mini.length = s.cfg.patches.length ∧
    (if s.palReq = 0#8 ∨ s.cfg.lump.length ≠ 768 then 768 * s.palReq.toNat else 0) + 768
      ≤ s.cfg.lump.length ∧
    (∃ p, s.cfg.patches[1]? = some p ∧ ¬(p.depth = 4#8 ∧ p.flat = true ∧ p.hasPal = true)) ∧
    (∀ q ∈ s.cfg.patches.take 1, q.depth = 4#8 ∧ q.flat = true ∧ q.hasPal = true) :=
  ⟨by decide +kernel, by decide +kernel, by decide +kernel, by decide +kernel,
    ⟨_, rfl, by decide⟩, by decide +kernel⟩

theorem witness_BlendBetween : (255 : Nat) ≤ 255 ∧ (256 : Nat) ≤ 256 ∧ (65536 : Nat) ≤ 65536 := by decide

theorem witness_LuminanceReduction :
    let c := Config.default
    c.lumWr = 5 ∧ c.lumWg = 3 ∧ c.lumWb = 3 ∧ c.lumShift = 3 ∧ 186 ≤ 186 ∧ 256 ≤ 256 := by
  decide +kernel

theorem witness_RebuildovLinksChains :
    let s := overlaid [2, 0, 2, 2, 1]
    TableInv s ∧ s.curVt ≠ 0x01#8 ∧ s.ovCountOf s.curOv.toNat = 5 ∧
    ∀ i < 5, rowOf (s.ovSet s.curOv.toNat) i < s.cfg.ovRows :=
  ⟨tableInv_of_ok (by decide +kernel), by decide +kernel, by decide +kernel, by decide +kernel⟩

theorem witness_RebuildovRowFatal :
    let s := overlaid [3, 4, 1]
    TableInv s ∧ s.curVt ≠ 0x01#8 ∧ s.ovCountOf s.curOv.toNat = 3 ∧
    s.cfg.ovRows ≤ rowOf (s.ovSet s.curOv.toNat) 1 ∧
    ∀ j < 3, 1 < j → rowOf (s.ovSet s.curOv.toNat) j < s.cfg.ovRows :=
  ⟨tableInv_of_ok (by decide +kernel), by decide +kernel, by decide +kernel, by decide +kernel,
    by decide +kernel⟩

/-- A finished wipe at `WIPE_MIN = WIPE_T + 1`, and an active one whose new offsets are 0, 1, 11, 20. -/
theorem witness_AdvwipeAdvancesColumns :
    (let s := wiping [-2#16, 0#16, 5#16, 19#16] 20#16 false
     TableInv s ∧ s.curVt ≠ 0x01#8 ∧ s.cfg.wipeT < s.wipeMin.toNat) ∧
    (let s := wiping [-2#16, 0#16, 5#16, 19#16] 0#16 false
     TableInv s ∧ s.curVt ≠ 0x01#8 ∧ s.wipeMin.toNat ≤ s.cfg.wipeT ∧
     ∀ x < 4, (s.wipeMin.toNat : Int) ≤
       if (s.wipeRaw.getD x 0#16).toInt < 0 then (0 : Int) else
         min (s.cfg.wipeH : Int)
           ((s.wipeRaw.getD x 0#16).toInt + min ((s.wipeRaw.getD x 0#16).toInt + 1) s.cfg.wipeStepCap)) :=
  ⟨⟨tableInv_of_ok (by decide +kernel), by decide +kernel, by decide +kernel⟩,
    tableInv_of_ok (by decide +kernel), by decide +kernel, by decide +kernel, by decide +kernel⟩

theorem witness_AdvwipeMinFatal :
    let s := wiping [-2#16, 0#16, 5#16, 19#16] 19#16 false
    TableInv s ∧ s.curVt ≠ 0x01#8 ∧ s.wipeMin.toNat ≤ s.cfg.wipeT ∧ 2 < s.cfg.wipeCols ∧
    min (s.cfg.wipeH : Int)
      ((s.wipeRaw.getD 2 0#16).toInt + min ((s.wipeRaw.getD 2 0#16).toInt + 1) s.cfg.wipeStepCap)
      < (s.wipeMin.toNat : Int) :=
  ⟨tableInv_of_ok (by decide +kernel), by decide +kernel, by decide +kernel, by decide +kernel,
    by decide +kernel⟩

/-- V9, after call 1. -/
def settled : State :=
  { wiping [-1#16, 1#16, 11#16, 20#16] 0#16 true with wipeOff := [0#16, 1#16, 11#16, 20#16] }

theorem settled_all : (settled.wipeRaw.all (fun r => decide (r.toInt ≤ settled.cfg.wipeH)) &&
    settled.wipeOff.all (fun o => decide (settled.wipeMin.toNat ≤ o.toNat)) &&
    settled.wipeOff.contains settled.wipeMin) = true := by decide +kernel

theorem wipeSettled_settled : WipeSettled settled := by
  have h := settled_all
  simp only [Bool.and_eq_true, List.all_eq_true, decide_eq_true_eq, List.contains_iff_mem] at h
  exact ⟨by decide +kernel, by decide +kernel, h.1.1, by decide +kernel, h.1.2, _, h.2, rfl⟩

/-- A settled wipe whose coming step is the display sequencer's ADVWIPE. -/
def settledTurn : State := onTurn settled

/-- An active ADVWIPE that raises no fatal; a settled wipe and a step that is neither reset nor a write
of the wipe registers. -/
theorem witness_WipeMinNeverDecreases :
    (let s := wiping [-2#16, 0#16, 5#16, 19#16] 0#16 false
     TableInv s ∧ s.curVt ≠ 0x01#8 ∧ s.wipeMin.toNat ≤ s.cfg.wipeT ∧
     ∃ t, exec .advwipe s = .next t ∧ decide (t.seq = 0x5#4) = true) ∧
    (WipeSettled settledTurn ∧ (∃ t, step settledTurn = .next t) ∧ ¬resetComes settledTurn ∧
      ¬wipeWriteComes settledTurn) ∧ WipeSettled settled := by
  refine ⟨⟨tableInv_of_ok (by decide +kernel), by decide +kernel, by decide +kernel,
    next_of_any (by decide +kernel)⟩, ⟨?_, next_of_isSome (by decide +kernel), ?_, ?_⟩,
    wipeSettled_settled⟩
  · exact ⟨wipeSettled_settled.valid, wipeSettled_settled.cols, wipeSettled_settled.rawRange,
      wipeSettled_settled.offs, wipeSettled_settled.wipeMin⟩
  · exact fun h => absurd h.2 (by decide +kernel)
  · have h : comingOp settledTurn = some .advwipe := by decide +kernel
    rintro (⟨x, raw, e⟩ | ⟨m, e⟩) <;> rw [h] at e <;> exact absurd e (by simp)

theorem witness_EncodePixels : ramp.cfg.valid = true ∧ ramp.fi ≠ 3#2 := by decide +kernel

theorem witness_BlackEncodeIgnoresFrame : base.fi ≠ 3#2 ∧ ∀ l ∈ base.lum, l = 0#8 := by
  decide +kernel

theorem witness_ParkStep : base.cfg.parkSeq = [0xA8#8, 0x00#8] := by decide +kernel

theorem witness_RunStep : ({ base with fi := 2#2 } : State).fi ≠ 3#2 := by decide +kernel

theorem witness_PaceStep :
    (let s := { base with now := 5999#64, deadline := 6000#64 }
     s.now.toNat < s.deadline.toNat) ∧
    (let s := { base with
       now := BitVec.ofNat 64 (2 ^ 64 - 5001), deadline := BitVec.ofNat 64 (2 ^ 64 - 5001), fi := 2#2 }
     s.deadline.toNat ≤ s.now.toNat ∧ s.fi ≠ 3#2 ∧
       s.deadline.toNat + s.cfg.fieldPeriod < 2 ^ 64) := by decide +kernel

theorem witness_TransactionOperations : [0xFF#8] ≠ [] := by decide

/-! For the statements about every step: a state of each kind with a step that answers a next state. -/

/-- PACE at its deadline. -/
theorem witness_DeadlinesDriftFree :
    let s := onTurn { sweep with seq := seqPace, deadline := 6000#64, now := 6000#64 }
    s.transport = [] ∧ ∃ t, step s = .next t ∧ decide (t.deadline = 11000#64) = true :=
  ⟨rfl, next_of_any (by decide +kernel)⟩

/-- A machine halted by `F_OVERLAY_ROW` (P4). -/
def halted : State :=
  { sweep with
    seq := seqHalt, halt := true, fatalCode := 1#3, debugLog := [1#3], nextFb := 1#1 }

/-- A producer command after the fatal. -/
theorem witness_HaltIsForEver :
    let s := { halted with turns := [.producer], port := some 0x18000000#32 }
    CoreInv s ∧ s.halt = true ∧ s.transport = [] ∧ ∃ t, step s = .next t :=
  ⟨coreInv_of_ok (by decide +kernel) (fun h => absurd (by decide +kernel) h), by decide +kernel,
    by decide +kernel, next_of_isSome (by decide +kernel)⟩

theorem witness_ErrorFlagsSticky :
    let s := onPort { base with errOwn := true, errAddr := true, errCmd := true } 0xA0000000#32
    s.errOwn = true ∧ s.errAddr = true ∧ s.errCmd = true ∧ ∃ t, step s = .next t :=
  ⟨rfl, rfl, rfl, next_of_isSome (by decide +kernel)⟩

theorem witness_DisplayNeverWritesProducerState :
    isMicroOp .encode = true ∧ ∃ t, exec .encode ramp = .next t := ⟨rfl, next_of_isSome (by decide +kernel)⟩

theorem witness_ProducerNeverWritesDisplayState :
    isCommandOp (.ovw 1#2 7#10 3#16) = true ∧ ∃ t, exec (.ovw 1#2 7#10 3#16) sweep = .next t :=
  ⟨rfl, next_of_isSome (by decide +kernel)⟩

/-- A producer that writes the same address of the other buffer. -/
theorem witness_FrameStableDuringSweep :
    let s := onPort sweep 0x10000080#32
    s.dispHolds = true ∧
    ∃ t, step s = .next t ∧ decide (t.readFrame 0#1 0 = 0x80#8) = true :=
  ⟨rfl, next_of_any (by decide +kernel)⟩

theorem witness_StepKeepsMemoryInv :
    let s := onPort { ramp with field := [(0, 1#8)], dispHolds := false } 0x18000055#32
    MemoryInv s ∧ ∃ t, step s = .next t :=
  ⟨by constructor <;> decide +kernel, next_of_isSome (by decide +kernel)⟩

theorem witness_StepKeepsTableInv :
    let s := onTurn (overlaid [2, 0, 2, 2, 1])
    TableInv s ∧ ∃ t, step s = .next t :=
  ⟨tableInv_of_ok (by decide +kernel), next_of_isSome (by decide +kernel)⟩

/-- A PUBLISH that has acquired. -/
theorem witness_StepKeepsCoreInv :
    let s := { onPort base 0x50000101#32 with sem := false, prodHolds := true, pubPhase := .write }
    CoreInv s ∧ ∃ t, step s = .next t :=
  ⟨coreInv_of_ok (by decide +kernel)
      (fun _ => ⟨0x50000101#32, 0#8, 1#8, 1#1, rfl, by decide +kernel, by decide +kernel⟩),
    next_of_isSome (by decide +kernel)⟩

theorem witness_StepKeepsPanelFramed :
    let s := onTurn { base with seq := seqPark, panel := transactionEvents .cmd [0xAF#8] }
    s.cfg.valid = true ∧ panelFramed s.panel = true ∧ ∃ t, step s = .next t :=
  ⟨by decide +kernel, by decide +kernel, next_of_isSome (by decide +kernel)⟩

/-- `WIPE_T + 1 = WIPE_H`, and `WIPE_T` beyond `WIPE_H`. -/
theorem witness_ResetMeetsInvariants :
    Config.default.valid = true ∧ { Config.default with wipeT := 65534 }.valid = true := by
  decide +kernel

end Sys2Proof.Tests
end

section
/-! SUPPORT. What the next state of an operation can be, said once for the producer commands and once
for the display micro-operations, and the induction over the cases of a step. -/

namespace Sys2Proof.Machine

/-! ## Producer commands -/

/-- What one command of the producer can leave (45_producer_port.md R222 to R232): the next state, with
the checks that have passed. The phases of PUBLISH stand each on its own; only its first can refuse. -/
inductive CommandEffect (s : State) : Instr → State → Prop where
  | refused {i : Instr} {e : ErrKind}
      (phase : ∀ vt ov fb, i = .publish vt ov fb → s.pubPhase = .acquire) :
      CommandEffect s i (s.refuse e)
  | pixelWritten {b : BitVec 1} {a : BitVec 19} {d : BitVec 8}
      (range : pixelOutOfRange s.cfg a = false) (own : s.ownsFrame b = false) :
      CommandEffect s (.pxw b a d) ((s.writeFrame b a.toNat d).respond 0#2 0#32)
  | pixelRead {b : BitVec 1} {a : BitVec 19}
      (range : pixelOutOfRange s.cfg a = false) (own : s.ownsFrame b = false) :
      CommandEffect s (.pxr b a) (s.respond 0#2 ((s.readFrame b a.toNat).setWidth 32))
  | paletteRequested {id : BitVec 8} (range : paletteOutOfRange s.cfg id = false) :
      CommandEffect s (.palreq id)
        (({ s with palReq := id, palPending := true } : State).respond 0#2 0#32)
  | gammaSet {g : BitVec 8} (range : gammaOutOfRange s.cfg g = false) :
      CommandEffect s (.gamma g) (({ s with gammaLevel := g } : State).respond 0#2 0#32)
  | publishHeld {vt ov : BitVec 8} {fb : BitVec 1} (phase : s.pubPhase = .acquire)
      (range : publishOutOfRange s.cfg ov = false) (sem : s.sem = false) :
      CommandEffect s (.publish vt ov fb) s
  | publishAcquired {vt ov : BitVec 8} {fb : BitVec 1} (phase : s.pubPhase = .acquire)
      (range : publishOutOfRange s.cfg ov = false) (sem : s.sem = true) :
      CommandEffect s (.publish vt ov fb) { s.acquireProducer with pubPhase := .write }
  | publishWritten {vt ov : BitVec 8} {fb : BitVec 1} (phase : s.pubPhase = .write) :
      CommandEffect s (.publish vt ov fb)
        { s with nextVt := vt, nextFb := fb, nextOv := ov, pubPhase := .release }
  | publishReleased {vt ov : BitVec 8} {fb : BitVec 1} (phase : s.pubPhase = .release) :
      CommandEffect s (.publish vt ov fb)
        (({ s.releaseProducer with pubPhase := .acquire } : State).respond 0#2 0#32)
  | rowWritten {os : BitVec 2} {j : BitVec 10} {row : BitVec 16}
      (set : setOutOfRange s.cfg os = false) (range : recordOutOfRange s.cfg j = false)
      (own : s.ownsSet os = false) :
      CommandEffect s (.ovw os j row)
        (({ s with
          ovrec := s.ovrec.modify os.toNat (fun recs =>
            recs.modify j.toNat (fun r => { r with row := row })) } : State).respond 0#2 0#32)
  | countSet {os : BitVec 2} {n : BitVec 11}
      (set : setOutOfRange s.cfg os = false) (range : countOutOfRange s.cfg n = false)
      (own : s.ownsSet os = false) :
      CommandEffect s (.ovn os n)
        (({ s with ovCount := s.ovCount.set os.toNat n } : State).respond 0#2 0#32)
  | columnSet {x : BitVec 12} {raw : BitVec 16}
      (column : columnOutOfRange s.cfg x = false) (range : rawOutOfRange s.cfg raw = false) :
      CommandEffect s (.wipew x raw)
        (({ s with wipeRaw := s.wipeRaw.set x.toNat raw } : State).respond 0#2 0#32)
  | wipeMinSet {m : BitVec 16} :
      CommandEffect s (.wipemin m) (({ s with wipeMin := m } : State).respond 0#2 0#32)
  | statusRead : CommandEffect s .rdstat (s.respond 0#2 s.status)

theorem execPxw_effect {b : BitVec 1} {a : BitVec 19} {d : BitVec 8} {s t : State}
    (h : execPxw b a d s = .next t) : CommandEffect s (.pxw b a d) t := by
  unfold execPxw at h
  split_ifs at h with range own <;> cases h
  · exact .refused nofun
  · exact .refused nofun
  · exact .pixelWritten (by simpa using range) (by simpa using own)

theorem execPxr_effect {b : BitVec 1} {a : BitVec 19} {s t : State}
    (h : execPxr b a s = .next t) : CommandEffect s (.pxr b a) t := by
  unfold execPxr at h
  split_ifs at h with range own <;> cases h
  · exact .refused nofun
  · exact .refused nofun
  · exact .pixelRead (by simpa using range) (by simpa using own)

theorem execPalreq_effect {id : BitVec 8} {s t : State} (h : execPalreq id s = .next t) :
    CommandEffect s (.palreq id) t := by
  unfold execPalreq at h
  split_ifs at h with range <;> cases h
  · exact .refused nofun
  · exact .paletteRequested (by simpa using range)

theorem execGamma_effect {g : BitVec 8} {s t : State} (h : execGamma g s = .next t) :
    CommandEffect s (.gamma g) t := by
  unfold execGamma at h
  split_ifs at h with range <;> cases h
  · exact .refused nofun
  · exact .gammaSet (by simpa using range)

theorem execPublish_effect {vt ov : BitVec 8} {fb : BitVec 1} {s t : State}
    (h : execPublish vt ov fb s = .next t) : CommandEffect s (.publish vt ov fb) t := by
  unfold execPublish at h
  split at h
  next phase =>
    split_ifs at h with range sem <;> cases h
    · exact .refused fun _ _ _ _ => phase
    · exact .publishAcquired phase (by simpa using range) sem
    · exact .publishHeld phase (by simpa using range) (by simpa using sem)
  next phase =>
    cases h
    exact .publishWritten phase
  next phase =>
    cases h
    exact .publishReleased phase

theorem execOvw_effect {os : BitVec 2} {j : BitVec 10} {row : BitVec 16} {s t : State}
    (h : execOvw os j row s = .next t) : CommandEffect s (.ovw os j row) t := by
  unfold execOvw at h
  split_ifs at h with set range own <;> cases h
  · exact .refused nofun
  · exact .refused nofun
  · exact .refused nofun
  · exact .rowWritten (by simpa using set) (by simpa using range) (by simpa using own)

theorem execOvn_effect {os : BitVec 2} {n : BitVec 11} {s t : State}
    (h : execOvn os n s = .next t) : CommandEffect s (.ovn os n) t := by
  unfold execOvn at h
  split_ifs at h with set range own <;> cases h
  · exact .refused nofun
  · exact .refused nofun
  · exact .refused nofun
  · exact .countSet (by simpa using set) (by simpa using range) (by simpa using own)

theorem execWipew_effect {x : BitVec 12} {raw : BitVec 16} {s t : State}
    (h : execWipew x raw s = .next t) : CommandEffect s (.wipew x raw) t := by
  unfold execWipew at h
  split_ifs at h with column range <;> cases h
  · exact .refused nofun
  · exact .refused nofun
  · exact .columnSet (by simpa using column) (by simpa using range)

/-- The next state of a decoded command is one of its effects. -/
theorem exec_commandEffect {w : BitVec 32} {i : Instr} {s t : State}
    (hd : decodeCommand w = .ok i) (h : exec i s = .next t) : CommandEffect s i t := by
  rcases decodeCommand_ok hd with ⟨b, a, d, rfl⟩ | ⟨b, a, rfl⟩ | ⟨id, rfl⟩ | ⟨g, rfl⟩ |
    ⟨vt, ov, fb, rfl⟩ | ⟨os, j, row, rfl⟩ | ⟨os, n, rfl⟩ | ⟨x, raw, rfl⟩ | ⟨m, rfl⟩ | rfl
  · exact execPxw_effect h
  · exact execPxr_effect h
  · exact execPalreq_effect h
  · exact execGamma_effect h
  · exact execPublish_effect h
  · exact execOvw_effect h
  · exact execOvn_effect h
  · exact execWipew_effect h
  · cases h
    exact .wipeMinSet
  · cases h
    exact .statusRead

/-! ## Display micro-operations -/

/-- The operations of the three sweep-start steps, each with its code and its successor
(44_scheduler.md R204 to R206). -/
inductive SweepStart : (State → MicroResult) → BitVec 4 → BitVec 4 → Prop where
  | palette : SweepStart applyPalette seqPal seqOvl
  | overlays : SweepStart rebuildOverlays seqOvl seqWipe
  | wipe : SweepStart advanceWipe seqWipe seqEncode

/-- What one step of the display sequencer can leave (44_scheduler.md R201 to R216). -/
inductive MicroEffect (s : State) : State → Prop where
  | held (idle : displayEnabled s = false) : MicroEffect s s
  | started {d : BitVec 64} (code : s.seq = seqInit) (period : addPeriod s.cfg s.now = some d) :
      MicroEffect s
        (({ s.txCmd s.cfg.initSeq with deadline := d, fi := 0#2 } : State).setSeq seqWaitsync)
  | acquired (code : s.seq = seqWaitsync) (sem : s.sem = true) :
      MicroEffect s (({ s.acquireDisplay with
        curVt := s.nextVt, curFb := s.nextFb, curOv := s.nextOv } : State).setSeq seqPal)
  | skipped {op : State → MicroResult} {succ : BitVec 4} (start : SweepStart op s.seq succ)
      (saving : s.curVt = vtSaving) : MicroEffect s (s.setSeq succ)
  | ended {op : State → MicroResult} {succ : BitVec 4} {u : State} (start : SweepStart op s.seq succ)
      (type : s.curVt ≠ vtSaving) (result : op s = .ok (u, none)) : MicroEffect s (u.setSeq succ)
  | fatal {op : State → MicroResult} {succ : BitVec 4} {u : State} {f : FatalCause}
      (start : SweepStart op s.seq succ) (type : s.curVt ≠ vtSaving)
      (result : op s = .ok (u, some f)) :
      MicroEffect s (u.fatal f)
  | encoded (code : s.seq = seqEncode) (field : s.fi ≠ 3#2) :
      MicroEffect s ((s.writeField (s.bitplaneByte s.fi.toNat)).setSeq seqPark)
  | parked (code : s.seq = seqPark) : MicroEffect s ((s.txCmd s.cfg.parkSeq).setSeq seqRun)
  | ran (code : s.seq = seqRun) (field : s.fi ≠ 3#2) :
      MicroEffect s (((s.txCmd (s.cfg.fieldSeq s.fi)).txData s.fieldBytes).setSeq
        (if s.fi = 2#2 then seqRelease else seqPace))
  | released (code : s.seq = seqRelease) :
      MicroEffect s
        (({ s.releaseDisplay with sweepParity := !s.sweepParity } : State).setSeq seqPace)
  | paced {d : BitVec 64} (code : s.seq = seqPace) (due : s.deadline.toNat ≤ s.now.toNat)
      (field : s.fi ≠ 3#2) (period : addPeriod s.cfg s.deadline = some d) :
      MicroEffect s (({ s with deadline := d, fi := nextField s.fi } : State).setSeq
        (if nextField s.fi = 0#2 then seqWaitsync else seqEncode))

theorem sweepStartStep_effect {op : State → MicroResult} {succ : BitVec 4} {s t : State}
    (start : SweepStart op s.seq succ) (h : sweepStartStep op succ s = .next t) :
    MicroEffect s t := by
  rcases sweepStartStep_next h with ⟨saving, rfl⟩ | ⟨type, u, ⟨hu, rfl⟩ | ⟨f, hu, rfl⟩⟩
  · exact .skipped start saving
  · exact .ended start type hu
  · exact .fatal start type hu

theorem displayEnabled_waitsync {s : State} (code : s.seq = seqWaitsync) :
    displayEnabled s = s.sem := by
  simp [displayEnabled, code]

theorem displayEnabled_pace {s : State} (code : s.seq = seqPace) :
    displayEnabled s = decide (s.deadline.toNat ≤ s.now.toNat) := by
  simp [displayEnabled, code, seqPace, seqWaitsync]

theorem displayEnabled_halt {s : State} (code : s.seq = seqHalt) : displayEnabled s = false := by
  simp [displayEnabled, code, seqHalt, seqPace, seqWaitsync]

theorem execInit_effect {s t : State} (code : s.seq = seqInit) (h : execInit s = .next t) :
    MicroEffect s t := by
  unfold execInit at h
  split at h
  next => cases h
  next d period =>
    cases h
    exact .started code period

theorem execWaitsync_effect {s t : State} (code : s.seq = seqWaitsync)
    (h : execWaitsync s = .next t) : MicroEffect s t := by
  unfold execWaitsync at h
  split_ifs at h with sem <;> cases h
  · exact .acquired code sem
  · exact .held ((displayEnabled_waitsync code).trans (by simpa using sem))

theorem execEncode_effect {s t : State} (code : s.seq = seqEncode) (h : execEncode s = .next t) :
    MicroEffect s t := by
  unfold execEncode at h
  split_ifs at h with field
  cases h
  exact .encoded code field

theorem execRun_effect {s t : State} (code : s.seq = seqRun) (h : execRun s = .next t) :
    MicroEffect s t := by
  unfold execRun at h
  split at h
  next => cases h
  next field =>
    cases h
    exact .ran code field

theorem execPace_effect {s t : State} (code : s.seq = seqPace) (h : execPace s = .next t) :
    MicroEffect s t := by
  unfold execPace at h
  split at h
  next early =>
    cases h
    exact .held (displayEnabled_pace code |>.trans (decide_eq_false (Nat.not_le.2 early)))
  next due =>
    split at h
    next => cases h
    next field =>
      split at h
      next => cases h
      next d period =>
        cases h
        exact .paced code (Nat.not_lt.1 due) field period

/-- The next state of the micro-operation that stands in `SEQ` is one of its effects. -/
theorem exec_microEffect {i : Instr} {s t : State} (hd : decodeMicro s.seq = .ok i)
    (h : exec i s = .next t) : MicroEffect s t := by
  rcases decodeMicro_ok hd with ⟨code, rfl⟩ | ⟨code, rfl⟩ | ⟨code, rfl⟩ | ⟨code, rfl⟩ | ⟨code, rfl⟩ |
    ⟨code, rfl⟩ | ⟨code, rfl⟩ | ⟨code, rfl⟩ | ⟨code, rfl⟩ | ⟨code, rfl⟩ | ⟨code, rfl⟩
  · exact execInit_effect code h
  · exact execWaitsync_effect code h
  · exact sweepStartStep_effect (code ▸ .palette) h
  · exact sweepStartStep_effect (code ▸ .overlays) h
  · exact sweepStartStep_effect (code ▸ .wipe) h
  · exact execEncode_effect code h
  · cases h
    exact .parked code
  · exact execRun_effect code h
  · cases h
    exact .released code
  · exact execPace_effect code h
  · cases h
    exact .held (displayEnabled_halt code)

/-- The operation of a sweep-start step writes the tables of the sweep and no other register
(44_scheduler.md R204 to R206). -/
theorem SweepStart.frame {op : State → MicroResult} {c succ : BitVec 4}
    (start : SweepStart op c succ) {s u : State} {f : Option FatalCause} (h : op s = .ok (u, f)) :
    u = { s with
      palPending := u.palPending, lum := u.lum, mini := u.mini, head := u.head, ovrec := u.ovrec,
      wipeRaw := u.wipeRaw, wipeOff := u.wipeOff, wipeMin := u.wipeMin } := by
  cases start with
  | palette =>
    rcases applyPalette_ok h with ⟨-, rfl, -⟩ | ⟨-, hu, -⟩
    · rfl
    · rw [hu]
  | overlays =>
    rcases rebuildOverlays_ok h with hu | ⟨-, hu⟩ <;> rw [hu]
  | wipe =>
    rcases advanceWipe_ok h with ⟨-, rfl, -⟩ | ⟨-, hu, -⟩
    · rfl
    · rw [hu]

/-! ## Steps -/

/-- Everything a step does, the reset input apart, keeps `P`: taking a turn, presenting a word, a
command, an illegal word, a micro-operation, a transaction, and time. -/
structure KeptByAgents (P : State → Prop) : Prop where
  turn : ∀ {s : State} (ts : List Turn) (n : Nat), P s → P { s with turns := ts, freeCount := n }
  present : ∀ {s : State} (w : BitVec 32) (ws : List (BitVec 32)) (n : Nat), s.port = none → P s →
    P { s with port := some w, commands := ws, response := none, freeCount := n }
  command : ∀ {s t : State} {w : BitVec 32} {i : Instr}, P s → s.port = some w →
    decodeCommand w = .ok i → CommandEffect s i t → P t
  illegal : ∀ {s : State} {w : BitVec 32} {e : DecodeError}, P s → s.port = some w →
    decodeCommand w = .error e → P (s.refuse .cmd)
  micro : ∀ {s t : State}, P s → MicroEffect s t → P t
  txCmd : ∀ {s : State} (bytes : List (BitVec 8)), P s →
    P (({ s with transport := [] } : State).txCmd bytes)
  txData : ∀ {s : State} (bytes : List (BitVec 8)), P s →
    P (({ s with transport := [] } : State).txData bytes)
  time : ∀ {s : State} (now : BitVec 64), P s → P (s.advanceTime now)

namespace KeptByAgents

variable {P : State → Prop} {s t : State}

theorem takeTurn (k : KeptByAgents P) (h : P s) : P (takeTurn s).2 := by
  rw [takeTurn_frame]
  exact k.turn _ _ h

/-- The word on the port that the producer's turn goes on with, and `P` there. -/
theorem presentWord_some (k : KeptByAgents P) {w : BitVec 32} (h : P s)
    (hw : presentWord s = (some w, t)) : P t ∧ t.port = some w := by
  rcases presentWord_cases s with ⟨w', port, e⟩ | ⟨port, w', ws, n, e⟩ | ⟨-, n, e⟩ <;>
    rw [e] at hw <;> cases hw
  · exact ⟨h, port⟩
  · exact ⟨k.present w ws n port h, rfl⟩

theorem presentWord_none (k : KeptByAgents P) (h : P s) (hw : presentWord s = (none, t)) : P t := by
  rcases presentWord_cases s with ⟨w, -, e⟩ | ⟨-, w, ws, n, e⟩ | ⟨-, n, e⟩ <;>
    rw [e] at hw <;> cases hw
  exact k.turn s.turns n h

/-- The induction over the cases of a step: a step keeps `P`, or it is a pulse of the reset input. -/
theorem step (k : KeptByAgents P) (h : P s) (hs : Machine.step s = .next t) :
    P t ∨ resetComes s ∧ ∃ u, P u ∧ t = u.pulseReset := by
  have hu := k.takeTurn h
  rcases step_cases hs with ⟨-, i, hd, ht⟩ | ⟨transport, u, rfl, ⟨-, command | illegal | idle⟩ |
    ⟨-, i, hd, ht⟩ | ⟨now, -, rfl⟩ | ⟨turn, rfl⟩⟩
  · obtain ⟨-, rfl | rfl⟩ := decodeTransaction_ok hd <;> cases ht
    · exact .inl (k.txCmd _ h)
    · exact .inl (k.txData _ h)
  · obtain ⟨w, v, i, hw, hd, ht⟩ := command
    obtain ⟨hv, port⟩ := k.presentWord_some hu hw
    exact .inl (k.command hv port hd (exec_commandEffect hd ht))
  · obtain ⟨w, v, e, hw, hd, rfl⟩ := illegal
    obtain ⟨hv, port⟩ := k.presentWord_some hu hw
    exact .inl (k.illegal hv port hd)
  · exact .inl (k.presentWord_none hu idle)
  · exact .inl (k.micro hu (exec_microEffect hd ht))
  · exact .inl (k.time now hu)
  · exact .inr ⟨⟨transport, turn⟩, _, hu, rfl⟩

/-- A predicate that the reset input keeps too is kept by every step. -/
theorem step_of_reset (k : KeptByAgents P) (reset : ∀ {u : State}, P u → P u.pulseReset) (h : P s)
    (hs : Machine.step s = .next t) : P t := by
  rcases k.step h hs with ht | ⟨-, u, hu, rfl⟩
  · exact ht
  · exact reset hu

end KeptByAgents

end Sys2Proof.Machine
end

section
/-! PROOFS. Reset and time (10_state.md R51, R60), the sticky error flags (R37), and the canonical form
of the memories (R57, R58). -/

namespace Sys2Proof.Machine

/-! ## Turns of time and of the reset input -/

theorem takeTurn_of_turns {s : State} {turn : Turn} {ts : List Turn} (h : s.turns = turn :: ts) :
    takeTurn s = (turn, { s with turns := ts }) := by
  simp only [takeTurn, h]

theorem fetch_of_turns {s : State} {turn : Turn} {ts : List Turn} (ht : s.transport = [])
    (h : s.turns = turn :: ts) :
    fetch s = fetchTurn turn { s with turns := ts } := by
  simp [fetch, ht, takeTurn_of_turns h]

theorem step_time {s : State} {now : BitVec 64} {ts : List Turn} (ht : s.transport = [])
    (h : s.turns = .time now :: ts) :
    step s = .next (({ s with turns := ts } : State).advanceTime now) := by
  simp only [step, fetch_of_turns ht h, fetchTurn]

theorem step_reset {s : State} {ts : List Turn} (ht : s.transport = [])
    (h : s.turns = .reset :: ts) :
    step s = .next ({ s with turns := ts } : State).pulseReset := by
  simp only [step, fetch_of_turns ht h, fetchTurn]

theorem State.advanceTime_of_lt {s : State} {now : BitVec 64} (h : s.now.toNat < now.toNat) :
    s.advanceTime now = { s with now := now } := if_pos h

theorem State.advanceTime_of_le {s : State} {now : BitVec 64} (h : now.toNat ≤ s.now.toNat) :
    s.advanceTime now = s := if_neg (Nat.not_lt.2 h)

/-- Settles O7: the turn listed first is taken, and then does what it says. -/
theorem timeAndResetTurns : Obligations.TimeAndResetTurns := by
  intro s ts now ht
  refine ⟨fun h later => ?_, fun h earlier => ?_, fun h => step_reset ht h⟩
  · rw [step_time ht h, State.advanceTime_of_lt (s := { s with turns := ts }) later]
  · rw [step_time ht h, State.advanceTime_of_le (s := { s with turns := ts }) earlier]

/-! ## The state after reset -/

theorem resetWipeMin_of_lt {c : Config} (h : c.wipeT < c.wipeH) :
    resetWipeMin c = BitVec.ofNat 16 c.wipeH := if_neg (Nat.not_le.2 h)

theorem resetWipeMin_of_le {c : Config} (h : c.wipeH ≤ c.wipeT) :
    resetWipeMin c = BitVec.ofNat 16 (c.wipeT + 1) := if_pos h

section
variable (c : Config) (now : BitVec 64) (k : Nat)

theorem readField_resetWith (a : Nat) : (State.resetWith c now k).readField a = 0#8 := rfl

/-- A frame byte that no PXW has written is the free value of the power-up. -/
theorem readFrame_resetWith (b : BitVec 1) (a : Nat) :
    (State.resetWith c now k).readFrame b a = Config.powerUpByte k b a := by
  have hmem : (State.resetWith c now k).frameMem b = [] := by
    unfold State.frameMem
    split <;> rfl
  simp only [State.readFrame, hmem]
  rfl

theorem ovSet_resetWith {o i : Nat} (ho : o < c.numOvSets) (hi : i < c.ovMax) :
    ((State.resetWith c now k).ovSet o)[i]? =
      some ⟨Config.powerUpRow k o i, Config.powerUpNext k o i⟩ := by
  simp [State.ovSet, State.resetWith, powerUpRecords, ho, hi]

end

/-- Settles O60, register by register. -/
theorem resetState : Obligations.ResetState := by
  intro c now k
  have filled {α : Type} (n : Nat) (a : α) :
      (List.replicate n a).length = n ∧ ∀ x ∈ List.replicate n a, x = a :=
    ⟨List.length_replicate, fun _ => List.eq_of_mem_replicate⟩
  exact ⟨⟨rfl, rfl, rfl⟩, ⟨rfl, rfl, rfl⟩, ⟨rfl, rfl, rfl⟩, ⟨rfl, rfl, rfl, rfl⟩, rfl,
    resetWipeMin_of_lt, resetWipeMin_of_le, ⟨rfl, rfl⟩, ⟨rfl, rfl, rfl⟩, ⟨rfl, rfl⟩,
    filled _ _, filled _ _, filled _ _, filled _ _, filled _ _, filled _ _,
    readField_resetWith c now k, rfl, rfl, readFrame_resetWith c now k,
    fun _ ho _ hi => ovSet_resetWith c now k ho hi, rfl, rfl⟩

/-! ## The error flags -/

/-- The error flags of `s` stand in `t`. -/
structure FlagsKept (s t : State) : Prop where
  own : s.errOwn = true → t.errOwn = true
  addr : s.errAddr = true → t.errAddr = true
  cmd : s.errCmd = true → t.errCmd = true

theorem FlagsKept.congr {s t u : State} (h : FlagsKept s t) (hown : u.errOwn = t.errOwn := by simp)
    (haddr : u.errAddr = t.errAddr := by simp) (hcmd : u.errCmd = t.errCmd := by simp) :
    FlagsKept s u :=
  ⟨fun e => hown.trans (h.own e), fun e => haddr.trans (h.addr e), fun e => hcmd.trans (h.cmd e)⟩

/-- A refusal only raises flags (60_exceptions.md R255). -/
theorem FlagsKept.refuse {s t : State} (h : FlagsKept s t) (e : ErrKind) :
    FlagsKept s (t.refuse e) where
  own hs := by simp [h.own hs]
  addr hs := by simp [h.addr hs]
  cmd hs := by simp [h.cmd hs]

theorem FlagsKept.command {s t u : State} {i : Instr} (h : FlagsKept s t)
    (effect : CommandEffect t i u) : FlagsKept s u := by
  cases effect with
  | refused => exact h.refuse _
  | _ => exact h.congr

theorem FlagsKept.micro {s t u : State} (h : FlagsKept s t) (effect : MicroEffect t u) :
    FlagsKept s u := by
  cases effect with
  | ended start _ result =>
    rw [start.frame result]
    exact h.congr
  | fatal start _ result =>
    rw [start.frame result]
    exact h.congr
  | _ => exact h.congr

theorem flagsKept_keptByAgents (s : State) : KeptByAgents (FlagsKept s) where
  turn _ _ h := h.congr
  present _ _ _ _ h := h.congr
  command h _ _ effect := h.command effect
  illegal h _ _ := h.refuse .cmd
  micro h effect := h.micro effect
  txCmd _ h := h.congr
  txData _ h := h.congr
  time _ h := h.congr

/-- Settles O51: only the reset input clears a flag. -/
theorem errorFlagsSticky : Obligations.ErrorFlagsSticky := by
  intro s t h
  rcases (flagsKept_keptByAgents s).step ⟨id, id, id⟩ h with kept | ⟨reset, -⟩
  · exact .inr ⟨kept.own, kept.addr, kept.cmd⟩
  · exact .inl reset

/-! ## The memories -/

theorem MemoryInv.congr {s t : State} (h : MemoryInv s) (hcfg : t.cfg = s.cfg := by simp)
    (hfb0 : t.fb0 = s.fb0 := by simp) (hfb1 : t.fb1 = s.fb1 := by simp)
    (hfield : t.field = s.field := by simp) : MemoryInv t where
  fb0 := by rw [hfb0, hcfg]; exact h.fb0
  fb1 := by rw [hfb1, hcfg]; exact h.fb1
  field := by rw [hfield, hcfg]; exact h.field

/-- A write of a pixel that exists keeps the frame buffers canonical (20_memory.md R72). -/
theorem MemoryInv.writeFrame {s : State} (h : MemoryInv s) {a : Nat} (ha : a < s.cfg.fbLen)
    (b : BitVec 1) (d : BitVec 8) : MemoryInv (s.writeFrame b a d) where
  fb0 := by
    simp only [State.writeFrame_fb0, State.writeFrame_cfg]
    split
    · exact Memory.wf_write h.fb0 ha d
    · exact h.fb0
  fb1 := by
    simp only [State.writeFrame_fb1, State.writeFrame_cfg]
    split
    · exact h.fb1
    · exact Memory.wf_write h.fb1 ha d
  field := by simpa using h.field

theorem MemoryInv.writeField {s : State} (h : MemoryInv s) (f : Nat → BitVec 8) :
    MemoryInv (s.writeField f) where
  fb0 := h.fb0
  fb1 := h.fb1
  field := Memory.wf_fill _ _ _

theorem pixel_lt_of_inRange {c : Config} {a : BitVec 19} (h : pixelOutOfRange c a = false) :
    a.toNat < c.fbLen := by
  simpa [pixelOutOfRange] using h

/-- PXW is the only command that writes a memory. -/
theorem MemoryInv.command {s t : State} {i : Instr} (h : MemoryInv s)
    (effect : CommandEffect s i t) : MemoryInv t := by
  cases effect with
  | @pixelWritten b a d range => exact (h.writeFrame (pixel_lt_of_inRange range) b d).congr
  | _ => exact h.congr

/-- ENCODE is the only micro-operation that writes a memory. -/
theorem MemoryInv.micro {s t : State} (h : MemoryInv s) (effect : MicroEffect s t) :
    MemoryInv t := by
  cases effect with
  | encoded => exact (h.writeField (s.bitplaneByte s.fi.toNat)).congr
  | ended start _ result =>
    rw [start.frame result]
    exact h.congr
  | fatal start _ result =>
    rw [start.frame result]
    exact h.congr
  | _ => exact h.congr

theorem memoryInv_keptByAgents : KeptByAgents MemoryInv where
  turn _ _ h := h.congr
  present _ _ _ _ h := h.congr
  command h _ _ effect := h.command effect
  illegal h _ _ := h.congr
  micro h effect := h.micro effect
  txCmd _ h := h.congr
  txData _ h := h.congr
  time _ h := h.congr

theorem memoryInv_resetWith (c : Config) (now : BitVec 64) (k : Nat) :
    MemoryInv (State.resetWith c now k) :=
  ⟨Memory.wf_nil _ _, Memory.wf_nil _ _, Memory.wf_nil _ _⟩

theorem memoryInv_pulseReset (s : State) : MemoryInv s.pulseReset :=
  (memoryInv_resetWith s.cfg s.now (s.powerUp + 1)).congr rfl rfl rfl rfl

/-- Settles O55: of all agents only PXW and ENCODE write a memory, and reset empties them. -/
theorem stepKeepsMemoryInv : Obligations.StepKeepsMemoryInv :=
  fun _ _ h => memoryInv_keptByAgents.step_of_reset (fun {u} _ => memoryInv_pulseReset u) h

end Sys2Proof.Machine
end

section
/-! PROOFS. The sequencer and semaphore invariant (10_state.md R27, R41, 20_memory.md R89,
44_scheduler.md R201, 60_exceptions.md R252). -/

namespace Sys2Proof.Machine

/-! ## The PUBLISH in progress -/

theorem publishInProgress_congr {s t : State} (h : publishInProgress s) (hport : t.port = s.port)
    (hcfg : t.cfg = s.cfg) : publishInProgress t := by
  unfold publishInProgress
  rwa [hport, hcfg]

/-- No PUBLISH is in progress while the port is empty. -/
theorem pubPhase_of_port_none {s : State} (h : s.pubPhase ≠ .acquire → publishInProgress s)
    (hport : s.port = none) : s.pubPhase = .acquire := by
  by_contra hne
  obtain ⟨w, -, -, -, hw, -⟩ := h hne
  simp [hport] at hw

/-- No PUBLISH is in progress while an illegal word stands on the port. -/
theorem pubPhase_of_illegal {s : State} {w : BitVec 32} {e : DecodeError}
    (h : s.pubPhase ≠ .acquire → publishInProgress s) (hport : s.port = some w)
    (hd : decodeCommand w = .error e) : s.pubPhase = .acquire := by
  by_contra hne
  obtain ⟨w', vt, ov, fb, hw, hd', -⟩ := h hne
  cases hport.symm.trans hw
  cases hd.symm.trans hd'

/-- The PUBLISH in progress is the command on the port, and its operand is in range. -/
theorem publish_of_pubPhase {s : State} {w : BitVec 32} {i : Instr}
    (h : s.pubPhase ≠ .acquire → publishInProgress s) (hport : s.port = some w)
    (hd : decodeCommand w = .ok i) (hne : s.pubPhase ≠ .acquire) :
    ∃ vt ov fb, i = .publish vt ov fb ∧ publishOutOfRange s.cfg ov = false := by
  obtain ⟨w', vt, ov, fb, hw, hd', range⟩ := h hne
  cases hport.symm.trans hw
  cases hd.symm.trans hd'
  exact ⟨vt, ov, fb, rfl, range⟩

/-- A command that is no PUBLISH past its first phase finds none in progress. -/
theorem pubPhase_of_command {s : State} {w : BitVec 32} {i : Instr}
    (h : s.pubPhase ≠ .acquire → publishInProgress s) (hport : s.port = some w)
    (hd : decodeCommand w = .ok i)
    (phase : ∀ vt ov fb, i = .publish vt ov fb → s.pubPhase = .acquire) : s.pubPhase = .acquire := by
  by_contra hne
  obtain ⟨vt, ov, fb, hi, -⟩ := publish_of_pubPhase h hport hd hne
  exact hne (phase vt ov fb hi)

/-! ## Positions of the sequencer -/

/-- The code and the field index allow each other: `SEQ` holds a code of 30_encoding.md R102, `FI` is
not 3, and the states that 44_scheduler.md R201 visits with one field index only have it. -/
abbrev PositionOk (c : BitVec 4) (f : BitVec 2) : Prop :=
  (decodeMicro c).toOption.isSome = true ∧ f ≠ 3#2 ∧
    ((c = seqInit ∨ c = seqWaitsync ∨ c = seqPal ∨ c = seqOvl ∨ c = seqWipe ∨ c = seqHalt) →
      f = 0#2) ∧
    (c = seqRelease → f = 2#2)

/-- A move of the running sequencer to an allowed position that leaves the sweep active exactly when it
was. -/
abbrev Moves (c : BitVec 4) (f : BitVec 2) (c' : BitVec 4) (f' : BitVec 2) : Prop :=
  c ≠ seqHalt ∧ c' ≠ seqHalt ∧ sweepActiveAt c' f' = sweepActiveAt c f ∧ PositionOk c' f'

theorem moves_init : Moves seqInit 0#2 seqWaitsync 0#2 := by decide

theorem SweepStart.moves {op : State → MicroResult} {c succ : BitVec 4}
    (start : SweepStart op c succ) : Moves c 0#2 succ 0#2 := by
  cases start with
  | palette => decide
  | overlays => decide
  | wipe => decide

theorem moves_encode : ∀ f : BitVec 2, f ≠ 3#2 → Moves seqEncode f seqPark f := by decide

theorem moves_park : ∀ f : BitVec 2, f ≠ 3#2 → Moves seqPark f seqRun f := by decide

theorem moves_run : ∀ f : BitVec 2, f ≠ 3#2 →
    Moves seqRun f (if f = 2#2 then seqRelease else seqPace) f := by decide

theorem moves_pace : ∀ f : BitVec 2, f ≠ 3#2 →
    Moves seqPace f (if nextField f = 0#2 then seqWaitsync else seqEncode) (nextField f) := by
  decide

/-! ## Updates that keep the invariant -/

/-- `CoreInv` reads nothing but the registers named here, and the port only while a PUBLISH is in
progress. -/
theorem CoreInv.congr {s t : State} (h : CoreInv s) (hcfg : t.cfg = s.cfg := by simp)
    (hsem : t.sem = s.sem := by simp) (hdisp : t.dispHolds = s.dispHolds := by simp)
    (hprod : t.prodHolds = s.prodHolds := by simp) (hphase : t.pubPhase = s.pubPhase := by simp)
    (hnextVt : t.nextVt = s.nextVt := by simp) (hnextFb : t.nextFb = s.nextFb := by simp)
    (hnextOv : t.nextOv = s.nextOv := by simp) (hcurVt : t.curVt = s.curVt := by simp)
    (hcurFb : t.curFb = s.curFb := by simp) (hcurOv : t.curOv = s.curOv := by simp)
    (hseq : t.seq = s.seq := by simp) (hfi : t.fi = s.fi := by simp)
    (hhalt : t.halt = s.halt := by simp) (hcode : t.fatalCode = s.fatalCode := by simp)
    (hlog : t.debugLog = s.debugLog := by simp)
    (hport : s.pubPhase ≠ .acquire → t.port = s.port := by simp) : CoreInv t where
  sem := by rw [hsem, hdisp, hprod]; exact h.sem
  exclusive := by rw [hdisp, hprod]; exact h.exclusive
  prodHolds := by rw [hprod, hphase]; exact h.prodHolds
  publish := by
    rw [hphase]
    exact fun hne => publishInProgress_congr (h.publish hne) (hport hne) hcfg
  dispHolds := by rw [hdisp, hseq, hfi]; exact h.dispHolds
  selection := by
    rw [hdisp, hnextVt, hnextFb, hnextOv, hcurVt, hcurFb, hcurOv]
    exact h.selection
  seqCode := by rw [hseq]; exact h.seqCode
  fiRange := by rw [hfi]; exact h.fiRange
  fiZero := by rw [hseq, hfi]; exact h.fiZero
  fiTwo := by rw [hseq, hfi]; exact h.fiTwo
  halt := by rw [hhalt, hseq]; exact h.halt
  fatalCode := by rw [hhalt, hcode]; exact h.fatalCode
  debugLog := by rw [hlog, hhalt, hcode]; exact h.debugLog

theorem CoreInv.halt_eq_false {s : State} (h : CoreInv s) (hseq : s.seq ≠ seqHalt) :
    s.halt = false := by
  rw [h.halt]
  exact beq_false_of_ne hseq

/-- The semaphore is available, so neither agent holds it. -/
theorem CoreInv.holders_of_sem {s : State} (h : CoreInv s) (hsem : s.sem = true) :
    s.dispHolds = false ∧ s.prodHolds = false := by
  simpa [hsem] using h.sem

theorem CoreInv.prodHolds_of_dispHolds {s : State} (h : CoreInv s) (hdisp : s.dispHolds = true) :
    s.prodHolds = false := by
  simpa [hdisp] using h.exclusive

theorem CoreInv.dispHolds_of_pubPhase {s : State} (h : CoreInv s) (hne : s.pubPhase ≠ .acquire) :
    s.dispHolds = false := by
  have hprod : s.prodHolds = true := h.prodHolds.trans (bne_iff_ne.2 hne)
  simpa [hprod] using h.exclusive

theorem CoreInv.goto {s : State} (h : CoreInv s) {c c' : BitVec 4} {f f' : BitVec 2}
    (hseq : s.seq = c) (hfi : s.fi = f) (m : Moves c f c' f') :
    CoreInv { s with seq := c', fi := f' } := by
  subst hseq hfi
  obtain ⟨running, running', active, code, range, zero, two⟩ := m
  exact { h with
    dispHolds := h.dispHolds.trans active.symm
    seqCode := code
    fiRange := range
    fiZero := zero
    fiTwo := two
    halt := (h.halt_eq_false running).trans (beq_false_of_ne running').symm }

theorem CoreInv.setSeq {s : State} (h : CoreInv s) {c c' : BitVec 4} {f : BitVec 2}
    (hseq : s.seq = c) (hfi : s.fi = f) (m : Moves c f c' f) : CoreInv (s.setSeq c') := by
  subst hfi
  exact h.goto hseq rfl m

/-- WAITSYNC's acquire and snapshot (44_scheduler.md R202, R203). -/
theorem CoreInv.acquired {s : State} (h : CoreInv s) (hseq : s.seq = seqWaitsync)
    (hsem : s.sem = true) :
    CoreInv (({ s.acquireDisplay with
      curVt := s.nextVt, curFb := s.nextFb, curOv := s.nextOv } : State).setSeq seqPal) := by
  have hfi : s.fi = 0#2 := h.fiZero (.inr (.inl hseq))
  have hprod := (h.holders_of_sem hsem).2
  have hhalt : s.halt = false := h.halt_eq_false (by simp [hseq, seqWaitsync, seqHalt])
  exact { h with
    sem := rfl
    exclusive := by simpa using hprod
    dispHolds := rfl
    selection := fun _ => ⟨rfl, rfl, rfl⟩
    seqCode := rfl
    fiZero := fun _ => hfi
    fiTwo := nofun
    halt := hhalt }

/-- RELEASE (44_scheduler.md R210). -/
theorem CoreInv.released {s : State} (h : CoreInv s) (hseq : s.seq = seqRelease) :
    CoreInv (({ s.releaseDisplay with sweepParity := !s.sweepParity } : State).setSeq seqPace) := by
  have hfi : s.fi = 2#2 := h.fiTwo hseq
  have hdisp : s.dispHolds = true := by rw [h.dispHolds, hseq, hfi]; rfl
  have hprod := h.prodHolds_of_dispHolds hdisp
  have hhalt : s.halt = false := h.halt_eq_false (by simp [hseq, seqRelease, seqHalt])
  exact { h with
    sem := by simp [hprod]
    exclusive := rfl
    dispHolds := by simp [hfi]; rfl
    selection := nofun
    seqCode := rfl
    fiZero := nofun
    fiTwo := nofun
    halt := hhalt }

/-- A fatal in a sweep-start state halts the sequencer with the semaphore held (44_scheduler.md R212,
60_exceptions.md R250). -/
theorem CoreInv.fatal {s : State} (h : CoreInv s) (hfi : s.fi = 0#2) (hdisp : s.dispHolds = true)
    (hhalt : s.halt = false) (f : FatalCause) : CoreInv (s.fatal f) := by
  have hlog : s.debugLog = [] := by simpa [hhalt] using h.debugLog
  exact { h with
    dispHolds := hdisp
    seqCode := rfl
    fiZero := fun _ => hfi
    fiTwo := nofun
    halt := rfl
    fatalCode := by cases f <;> simp [FatalCause.code]
    debugLog := by simp [hlog] }

/-- Phase 1 of PUBLISH (45_producer_port.md R226). -/
theorem CoreInv.publishAcquired {s : State} (h : CoreInv s) (hsem : s.sem = true)
    (hpub : publishInProgress s) : CoreInv { s.acquireProducer with pubPhase := .write } :=
  have hdisp := (h.holders_of_sem hsem).1
  { h with
    sem := by simp
    exclusive := by simp [hdisp]
    prodHolds := rfl
    publish := fun _ => hpub }

/-- Phase 2 of PUBLISH writes the next triple, and no sweep is active. -/
theorem CoreInv.publishWritten {s : State} (h : CoreInv s) (phase : s.pubPhase = .write)
    (vt ov : BitVec 8) (fb : BitVec 1) :
    CoreInv { s with nextVt := vt, nextFb := fb, nextOv := ov, pubPhase := .release } := by
  have hne : s.pubPhase ≠ .acquire := by simp [phase]
  have hdisp := h.dispHolds_of_pubPhase hne
  exact { h with
    prodHolds := h.prodHolds.trans (bne_iff_ne.2 hne)
    publish := fun _ => h.publish hne
    selection := fun hd => by simp [hdisp] at hd }

/-- Phase 3 of PUBLISH. -/
theorem CoreInv.publishReleased {s : State} (h : CoreInv s) (phase : s.pubPhase = .release)
    (st : BitVec 2) (d : BitVec 32) :
    CoreInv (({ s.releaseProducer with pubPhase := .acquire } : State).respond st d) := by
  have hdisp := h.dispHolds_of_pubPhase (by simp [phase])
  exact { h with
    sem := by simp [hdisp]
    exclusive := by simp
    prodHolds := rfl
    publish := fun hne => absurd rfl hne }

/-! ## Every step -/

theorem CoreInv.command {s t : State} {w : BitVec 32} {i : Instr} (h : CoreInv s)
    (hport : s.port = some w) (hd : decodeCommand w = .ok i) (effect : CommandEffect s i t) :
    CoreInv t := by
  have idle := pubPhase_of_command h.publish hport hd
  cases effect with
  | publishHeld => exact h
  | @publishAcquired vt ov fb _ range sem =>
    exact h.publishAcquired sem ⟨w, vt, ov, fb, hport, hd, range⟩
  | publishWritten phase => exact h.publishWritten phase _ _ _
  | publishReleased phase => exact h.publishReleased phase _ _
  | refused phase => exact h.congr (hport := fun hne => absurd (idle phase) hne)
  | _ => exact h.congr (hport := fun hne => absurd (idle nofun) hne)

/-- A sweep-start state is visited with `FI = 0` only. -/
theorem CoreInv.fi_of_sweepStart {s : State} (h : CoreInv s) {op : State → MicroResult}
    {succ : BitVec 4} (start : SweepStart op s.seq succ) : s.fi = 0#2 := by
  apply h.fiZero
  generalize s.seq = c at start
  cases start <;> decide

theorem CoreInv.dispHolds_of_sweepStart {s : State} (h : CoreInv s) {op : State → MicroResult}
    {succ : BitVec 4} (start : SweepStart op s.seq succ) : s.dispHolds = true := by
  rw [h.dispHolds, h.fi_of_sweepStart start]
  generalize s.seq = c at start
  cases start <;> decide

/-- The operation of a sweep-start step writes none of the registers of `CoreInv`. -/
theorem CoreInv.sweepStart {s u : State} (h : CoreInv s) {op : State → MicroResult}
    {succ : BitVec 4} {f : Option FatalCause} (start : SweepStart op s.seq succ)
    (result : op s = .ok (u, f)) : CoreInv u ∧ SweepStart op u.seq succ := by
  rw [start.frame result]
  exact ⟨h.congr, start⟩

theorem CoreInv.micro {s t : State} (h : CoreInv s) (effect : MicroEffect s t) : CoreInv t := by
  cases effect with
  | held => exact h
  | @started d code =>
    have hfi : s.fi = 0#2 := h.fiZero (.inl code)
    have hu : CoreInv { s.txCmd s.cfg.initSeq with deadline := d } := h.congr
    exact hu.goto (by simpa using code) (by simpa using hfi) moves_init
  | acquired code sem => exact h.acquired code sem
  | skipped start => exact h.setSeq rfl (h.fi_of_sweepStart start) start.moves
  | @ended op succ u start _ result =>
    obtain ⟨hu, start⟩ := h.sweepStart start result
    exact hu.setSeq rfl (hu.fi_of_sweepStart start) start.moves
  | fatal start _ result =>
    obtain ⟨hu, start⟩ := h.sweepStart start result
    exact hu.fatal (hu.fi_of_sweepStart start) (hu.dispHolds_of_sweepStart start)
      (hu.halt_eq_false start.moves.1) _
  | encoded code field =>
    have hu : CoreInv (s.writeField (s.bitplaneByte s.fi.toNat)) := h.congr
    exact hu.setSeq code rfl (moves_encode s.fi field)
  | parked code =>
    have hu : CoreInv (s.txCmd s.cfg.parkSeq) := h.congr
    exact hu.setSeq (by simpa using code) rfl (moves_park _ hu.fiRange)
  | ran code field =>
    have hu : CoreInv ((s.txCmd (s.cfg.fieldSeq s.fi)).txData s.fieldBytes) := h.congr
    exact hu.setSeq (by simpa using code) (by simp) (moves_run s.fi field)
  | released code => exact h.released code
  | @paced d code _ field =>
    have hu : CoreInv { s with deadline := d } := h.congr
    exact hu.goto code rfl (moves_pace s.fi field)

theorem coreInv_keptByAgents : KeptByAgents CoreInv where
  turn _ _ h := h.congr
  present _ _ _ hport h :=
    h.congr (hport := fun hne => absurd (pubPhase_of_port_none h.publish hport) hne)
  command h hport hd effect := h.command hport hd effect
  illegal h hport hd :=
    h.congr (hport := fun hne => absurd (pubPhase_of_illegal h.publish hport hd) hne)
  micro h effect := h.micro effect
  txCmd _ h := h.congr
  txData _ h := h.congr
  time _ h := h.congr

theorem coreInv_resetWith (c : Config) (now : BitVec 64) (k : Nat) :
    CoreInv (State.resetWith c now k) where
  sem := rfl
  exclusive := rfl
  prodHolds := rfl
  publish hne := absurd rfl hne
  dispHolds := rfl
  selection := nofun
  seqCode := rfl
  fiRange := nofun
  fiZero _ := rfl
  fiTwo := nofun
  halt := rfl
  fatalCode := rfl
  debugLog := rfl

theorem coreInv_pulseReset (s : State) : CoreInv s.pulseReset :=
  { coreInv_resetWith s.cfg s.now (s.powerUp + 1) with }

/-- Settles O57, by the effects of commands and micro-operations on `CoreInv`. -/
theorem stepKeepsCoreInv : Obligations.StepKeepsCoreInv :=
  fun _ _ h => coreInv_keptByAgents.step_of_reset (fun {u} _ => coreInv_pulseReset u) h

end Sys2Proof.Machine
end

section
/-! PROOFS. The sizes of the tables and the ranges of the registers (10_state.md R28 to R32, R43 to R48,
R59), and that reset meets every invariant (R60). -/

namespace Sys2Proof.Machine

/-! ## Bounds of valid parameters -/

theorem Config.numOvSets_pos {c : Config} (h : c.valid = true) : 1 ≤ c.numOvSets := by
  simp only [Config.valid, Bool.and_eq_true, decide_eq_true_eq] at h
  omega

theorem Config.nGamma_pos {c : Config} (h : c.valid = true) : 1 ≤ c.nGamma := by
  simp only [Config.valid, Bool.and_eq_true, decide_eq_true_eq] at h
  unfold Config.nGamma
  omega

theorem Config.ovMax_le {c : Config} (h : c.valid = true) : c.ovMax ≤ 1024 := by
  simp only [Config.valid, Bool.and_eq_true, decide_eq_true_eq] at h
  omega

theorem Config.wipeH_le {c : Config} (h : c.valid = true) : c.wipeH ≤ 32767 := by
  simp only [Config.valid, Bool.and_eq_true, decide_eq_true_eq] at h
  omega

/-! ## Offsets of 16 bits -/

theorem toNat_ofInt_of_offset {x : Int} (h0 : 0 ≤ x) (h1 : x ≤ 32767) :
    ((BitVec.ofInt 16 x).toNat : Int) = x := by
  rw [BitVec.toNat_ofInt]
  omega

theorem toInt_ofInt_of_offset {x : Int} (h0 : -32768 ≤ x) (h1 : x ≤ 32767) :
    (BitVec.ofInt 16 x).toInt = x := by
  rw [BitVec.toInt_ofInt]
  exact Int.bmod_eq_of_le (by omega) (by omega)

theorem toNat_resetOffset {c : Config} (h : c.valid = true) :
    (BitVec.ofNat 16 c.wipeH).toNat = c.wipeH := by
  have := Config.wipeH_le h
  rw [BitVec.toNat_ofNat]
  omega

theorem toInt_resetOffset {c : Config} (h : c.valid = true) :
    (BitVec.ofNat 16 c.wipeH).toInt = c.wipeH := by
  have hle := Config.wipeH_le h
  rw [BitVec.toInt_eq_toNat_of_lt (by rw [toNat_resetOffset h]; omega), toNat_resetOffset h]

/-! ## ADVWIPE -/

/-- From an offset that is not negative a column goes forward, and not past `WIPE_H`
(41_overlay_wipe.md R150, R151). -/
theorem advanceColumn_of_nonneg {c : Config} (parity : Bool) {raw : BitVec 16}
    (h0 : 0 ≤ raw.toInt) (hraw : raw.toInt ≤ c.wipeH) :
    ∃ x : Int, 0 ≤ x ∧ x ≤ c.wipeH ∧
      advanceColumn c parity raw = (BitVec.ofInt 16 x, BitVec.ofInt 16 x) := by
  refine ⟨_, ?_, ?_, if_neg (Int.not_lt.2 h0)⟩ <;>
    · simp only [wipeStep]
      split_ifs <;> omega

/-- A negative offset rises by at most one and is displayed as 0. -/
theorem advanceColumn_of_neg {c : Config} (parity : Bool) {raw : BitVec 16} (h : raw.toInt < 0) :
    advanceColumn c parity raw =
      (BitVec.ofInt 16 (if parity then raw.toInt else raw.toInt + 1), 0#16) := if_pos h

theorem advanceColumn_range {c : Config} (hH : c.wipeH ≤ 32767) (parity : Bool) {raw : BitVec 16}
    (hraw : raw.toInt ≤ c.wipeH) :
    (advanceColumn c parity raw).1.toInt ≤ c.wipeH ∧
      (advanceColumn c parity raw).2.toNat ≤ c.wipeH := by
  rcases Int.lt_or_le raw.toInt 0 with neg | nonneg
  · have hlow := BitVec.le_toInt raw
    rw [advanceColumn_of_neg parity neg]
    refine ⟨?_, by simp⟩
    rw [toInt_ofInt_of_offset (by split <;> omega) (by split <;> omega)]
    split <;> omega
  · obtain ⟨x, h0, h1, hx⟩ := advanceColumn_of_nonneg parity nonneg hraw
    have hnat := toNat_ofInt_of_offset h0 (by omega)
    rw [hx, toInt_ofInt_of_offset (by omega) (by omega)]
    exact ⟨h1, Int.ofNat_le.1 (hnat.trans_le h1)⟩

/-! ## REBUILDOV -/

/-- Every entry of the head table is `NIL` or the index of a record. -/
theorem linkDown_heads {bound : Nat} (rows n : Nat) (head : List (BitVec 16))
    (recs : List OvRecord) (hn : n ≤ bound) (hb : bound ≤ 2 ^ 16)
    (hhead : ∀ h ∈ head, h = ovNil ∨ h.toNat < bound) :
    ∀ h ∈ (linkDown rows n head recs).1.1, h = ovNil ∨ h.toNat < bound := by
  induction n generalizing head recs with
  | zero => exact hhead
  | succ i ih =>
    unfold linkDown
    simp only
    split
    · exact hhead
    · refine ih _ _ (by omega) fun h hmem => ?_
      rcases List.mem_or_eq_of_mem_set hmem with old | rfl
      · exact hhead h old
      · right
        rw [BitVec.toNat_ofNat]
        omega

theorem ovCountOf_le {s : State} {bound : Nat} (h : ∀ n ∈ s.ovCount, n.toNat ≤ bound) (os : Nat) :
    s.ovCountOf os ≤ bound := by
  unfold State.ovCountOf
  rw [List.getD_eq_getElem?_getD]
  cases hget : s.ovCount[os]? with
  | none => simp
  | some n => exact h n (List.mem_of_getElem? hget)

/-! ## Updates that keep the invariant -/

/-- `TableInv` reads nothing but the registers named here, and the port only while a PUBLISH is in
progress. -/
theorem TableInv.congr {s t : State} (h : TableInv s) (hcfg : t.cfg = s.cfg := by simp)
    (hlum : t.lum = s.lum := by simp) (hmini : t.mini = s.mini := by simp)
    (hhead : t.head = s.head := by simp) (hraw : t.wipeRaw = s.wipeRaw := by simp)
    (hoff : t.wipeOff = s.wipeOff := by simp) (hcount : t.ovCount = s.ovCount := by simp)
    (hrec : t.ovrec = s.ovrec := by simp) (hpal : t.palReq = s.palReq := by simp)
    (hgamma : t.gammaLevel = s.gammaLevel := by simp) (hnext : t.nextOv = s.nextOv := by simp)
    (hcur : t.curOv = s.curOv := by simp) (hphase : t.pubPhase = s.pubPhase := by simp)
    (hport : s.pubPhase ≠ .acquire → t.port = s.port := by simp) : TableInv t where
  valid := by rw [hcfg]; exact h.valid
  lum := by rw [hlum]; exact h.lum
  mini := by rw [hmini, hcfg]; exact h.mini
  head := by rw [hhead, hcfg]; exact h.head
  headEntries := by rw [hhead, hcfg]; exact h.headEntries
  wipeRaw := by rw [hraw, hcfg]; exact h.wipeRaw
  wipeOff := by rw [hoff, hcfg]; exact h.wipeOff
  rawRange := by rw [hraw, hcfg]; exact h.rawRange
  offRange := by rw [hoff, hcfg]; exact h.offRange
  ovCount := by rw [hcount, hcfg]; exact h.ovCount
  countRange := by rw [hcount, hcfg]; exact h.countRange
  ovrec := by rw [hrec, hcfg]; exact h.ovrec
  palReq := by rw [hpal, hcfg]; exact h.palReq
  gammaLevel := by rw [hgamma, hcfg]; exact h.gammaLevel
  nextOv := by rw [hnext, hcfg]; exact h.nextOv
  curOv := by rw [hcur, hcfg]; exact h.curOv
  publish := by
    rw [hphase]
    exact fun hne => publishInProgress_congr (h.publish hne) (hport hne) hcfg

/-- A command that completes while no PUBLISH is in progress. -/
theorem TableInv.respond {s : State} (h : TableInv s) (idle : s.pubPhase = .acquire) (st : BitVec 2)
    (d : BitVec 32) : TableInv (s.respond st d) :=
  h.congr (hport := fun hne => absurd idle hne)

/-- Changing entries of a table within their sizes keeps the sizes. -/
theorem length_of_mem_modify {α : Type} {tables : List (List α)} {size : Nat} {f : List α → List α}
    (hf : ∀ l, (f l).length = l.length) (h : ∀ l ∈ tables, l.length = size) (i : Nat) :
    ∀ l ∈ tables.modify i f, l.length = size := by
  intro l hl
  obtain ⟨k, hk, rfl⟩ := List.getElem_of_mem hl
  rw [List.length_modify] at hk
  rw [List.getElem_modify]
  split
  · rw [hf]
    exact h _ (List.getElem_mem hk)
  · exact h _ (List.getElem_mem hk)

theorem TableInv.length_ovSet {s : State} (h : TableInv s) {o : Nat} (ho : o < s.cfg.numOvSets) :
    (s.ovSet o).length = s.cfg.ovMax := by
  obtain ⟨hlen, hsets⟩ := h.ovrec
  have hlt : o < s.ovrec.length := by omega
  apply hsets
  simp [State.ovSet, hlt]

/-! ## Every step -/

theorem TableInv.command {s t : State} {w : BitVec 32} {i : Instr} (h : TableInv s)
    (hport : s.port = some w) (hd : decodeCommand w = .ok i) (effect : CommandEffect s i t) :
    TableInv t := by
  have idle := pubPhase_of_command h.publish hport hd
  cases effect with
  | refused phase => exact h.congr (hport := fun hne => absurd (idle phase) hne)
  | pixelWritten => exact h.congr (hport := fun hne => absurd (idle nofun) hne)
  | pixelRead => exact h.respond (idle nofun) _ _
  | @paletteRequested id range =>
    have hu : TableInv { s with palReq := id, palPending := true } :=
      { h with palReq := by simpa [paletteOutOfRange] using range }
    exact hu.respond (idle nofun) _ _
  | @gammaSet g range =>
    have hu : TableInv { s with gammaLevel := g } :=
      { h with gammaLevel := by simpa [gammaOutOfRange] using range }
    exact hu.respond (idle nofun) _ _
  | publishHeld => exact h
  | @publishAcquired vt ov fb _ range =>
    exact { h with publish := fun _ => ⟨w, vt, ov, fb, hport, hd, range⟩ }
  | publishWritten phase =>
    have hne : s.pubPhase ≠ .acquire := by simp [phase]
    obtain ⟨vt, ov, fb, same, range⟩ := publish_of_pubPhase h.publish hport hd hne
    cases same
    exact { h with
      nextOv := by simpa [publishOutOfRange] using range
      publish := fun _ => h.publish hne }
  | publishReleased => exact { h with publish := fun hne => absurd rfl hne }
  | @rowWritten os j row =>
    have hu : TableInv { s with
        ovrec := s.ovrec.modify os.toNat (fun recs =>
          recs.modify j.toNat (fun r => { r with row := row })) } :=
      { h with
        ovrec := ⟨by simpa using h.ovrec.1,
          length_of_mem_modify (fun _ => List.length_modify ..) h.ovrec.2 os.toNat⟩ }
    exact hu.respond (idle nofun) _ _
  | @countSet os n _ range =>
    have hu : TableInv { s with ovCount := s.ovCount.set os.toNat n } :=
      { h with
        ovCount := by simpa using h.ovCount
        countRange := fun m hm => by
          rcases List.mem_or_eq_of_mem_set hm with old | rfl
          · exact h.countRange m old
          · simpa [countOutOfRange] using range }
    exact hu.respond (idle nofun) _ _
  | @columnSet x raw _ range =>
    have hu : TableInv { s with wipeRaw := s.wipeRaw.set x.toNat raw } :=
      { h with
        wipeRaw := by simpa using h.wipeRaw
        rawRange := fun r hr => by
          rcases List.mem_or_eq_of_mem_set hr with old | rfl
          · exact h.rawRange r old
          · simpa [rawOutOfRange] using range }
    exact hu.respond (idle nofun) _ _
  | @wipeMinSet m =>
    have hu : TableInv { s with wipeMin := m } := h.congr
    exact hu.respond (idle nofun) _ _
  | statusRead => exact h.respond (idle nofun) _ _

theorem TableInv.applyPalette {s u : State} {f : Option FatalCause} (h : TableInv s)
    (result : applyPalette s = .ok (u, f)) : TableInv u := by
  rcases applyPalette_ok result with ⟨-, rfl, -⟩ | ⟨-, hu, hlen, hentries, -⟩
  · exact h
  · obtain ⟨hsize, hsizes⟩ := h.mini
    rw [hu]
    exact { h with
      lum := by simp
      mini := ⟨hlen hsize, hentries hsizes⟩ }

theorem TableInv.rebuildOverlays {s u : State} {f : Option FatalCause} (h : TableInv s)
    (result : rebuildOverlays s = .ok (u, f)) : TableInv u := by
  simp only [Machine.rebuildOverlays, Except.ok.injEq, Prod.mk.injEq] at result
  obtain ⟨rfl, -⟩ := result
  obtain ⟨hhead, hrecs, -⟩ := linkDown_frame s.cfg.ovRows (s.ovCountOf s.curOv.toNat)
    (List.replicate s.cfg.ovRows ovNil) (s.ovSet s.curOv.toNat)
  exact { h with
    head := by simpa using hhead
    headEntries := linkDown_heads _ _ _ _ (ovCountOf_le h.countRange _)
      (Nat.le_trans (Config.ovMax_le h.valid) (by decide))
      fun _ hmem => .inl (List.eq_of_mem_replicate hmem)
    ovrec := by
      refine ⟨by simpa using h.ovrec.1, fun recs hmem => ?_⟩
      rcases List.mem_or_eq_of_mem_set hmem with old | rfl
      · exact h.ovrec.2 recs old
      · exact hrecs.trans (h.length_ovSet h.curOv) }

theorem TableInv.advanceWipe {s u : State} {f : Option FatalCause} (h : TableInv s)
    (result : advanceWipe s = .ok (u, f)) : TableInv u := by
  rcases advanceWipe_ok result with ⟨-, rfl, -⟩ | ⟨-, hu, -⟩
  · exact h
  · have range (r : BitVec 16) (hr : r ∈ s.wipeRaw) :=
      advanceColumn_range (Config.wipeH_le h.valid) s.sweepParity (h.rawRange r hr)
    rw [hu]
    exact { h with
      wipeRaw := by simpa using h.wipeRaw
      wipeOff := by simpa using h.wipeRaw
      rawRange := List.forall_mem_map.2 fun r hr => (range r hr).1
      offRange := List.forall_mem_map.2 fun r hr => (range r hr).2 }

theorem TableInv.sweepStart {s u : State} (h : TableInv s) {op : State → MicroResult}
    {c succ : BitVec 4} {f : Option FatalCause} (start : SweepStart op c succ)
    (result : op s = .ok (u, f)) : TableInv u := by
  cases start with
  | palette => exact h.applyPalette result
  | overlays => exact h.rebuildOverlays result
  | wipe => exact h.advanceWipe result

theorem TableInv.micro {s t : State} (h : TableInv s) (effect : MicroEffect s t) : TableInv t := by
  cases effect with
  | acquired => exact { h with curOv := h.nextOv }
  | ended start _ result => exact (h.sweepStart start result).congr
  | fatal start _ result => exact (h.sweepStart start result).congr
  | _ => exact h.congr

theorem tableInv_keptByAgents : KeptByAgents TableInv where
  turn _ _ h := h.congr
  present _ _ _ hport h :=
    h.congr (hport := fun hne => absurd (pubPhase_of_port_none h.publish hport) hne)
  command h hport hd effect := h.command hport hd effect
  illegal h hport hd :=
    h.congr (hport := fun hne => absurd (pubPhase_of_illegal h.publish hport hd) hne)
  micro h effect := h.micro effect
  txCmd _ h := h.congr
  txData _ h := h.congr
  time _ h := h.congr

/-! ## Reset -/

theorem tableInv_resetWith {c : Config} (hc : c.valid = true) (now : BitVec 64) (k : Nat) :
    TableInv (State.resetWith c now k) where
  valid := hc
  lum := List.length_replicate
  mini := ⟨List.length_replicate, fun t ht => by
    rw [List.eq_of_mem_replicate ht, List.length_replicate]⟩
  head := List.length_replicate
  headEntries h hmem := .inl (List.eq_of_mem_replicate hmem)
  wipeRaw := List.length_replicate
  wipeOff := List.length_replicate
  rawRange r hr := by
    rw [List.eq_of_mem_replicate hr]
    exact (toInt_resetOffset hc).le
  offRange o ho := by
    rw [List.eq_of_mem_replicate ho]
    exact (toNat_resetOffset hc).le
  ovCount := List.length_replicate
  countRange n hn := by
    rw [List.eq_of_mem_replicate hn]
    exact Nat.zero_le _
  ovrec := ⟨by simp [State.resetWith, powerUpRecords], fun recs hmem => by
    obtain ⟨os, -, rfl⟩ := List.mem_map.1 hmem
    simp [State.resetWith]⟩
  palReq := Nat.zero_le _
  gammaLevel := Config.nGamma_pos hc
  nextOv := Config.numOvSets_pos hc
  curOv := Config.numOvSets_pos hc
  publish hne := absurd rfl hne

theorem TableInv.pulseReset {s : State} (h : TableInv s) : TableInv s.pulseReset :=
  { tableInv_resetWith h.valid s.now (s.powerUp + 1) with }

/-- Settles O56, by the effects of commands and micro-operations on `TableInv`. -/
theorem stepKeepsTableInv : Obligations.StepKeepsTableInv :=
  fun _ _ h => tableInv_keptByAgents.step_of_reset TableInv.pulseReset h

/-- Settles O59, one invariant at a time. -/
theorem resetMeetsInvariants : Obligations.ResetMeetsInvariants :=
  fun c now k hc => ⟨memoryInv_resetWith c now k, tableInv_resetWith hc now k,
    coreInv_resetWith c now k, rfl⟩

end Sys2Proof.Machine
end

section
/-! PROOFS. What one step does, from the state after the turn and the word are taken, and the buffer
being shown during a sweep (20_memory.md R75, R76, R87). -/

namespace Sys2Proof.Machine

/-! ## The effect of a step -/

/-- `u` is `s` with a turn taken, and possibly a word presented or the waiting transaction begun: no
register of the CORE and no memory differs. -/
def TurnTaken (s u : State) : Prop :=
  u = { s with
    turns := u.turns, freeCount := u.freeCount, port := u.port, commands := u.commands,
    response := u.response, transport := u.transport }

theorem turnTaken_takeTurn (s : State) : TurnTaken s (takeTurn s).2 := by
  rw [TurnTaken, takeTurn_frame]

theorem TurnTaken.presentWord {s u v : State} {o : Option (BitVec 32)} (h : TurnTaken s u)
    (hw : presentWord u = (o, v)) : TurnTaken s v := by
  unfold TurnTaken at h ⊢
  rcases presentWord_cases u with ⟨w, -, e⟩ | ⟨-, w, ws, n, e⟩ | ⟨-, n, e⟩ <;>
    rw [e] at hw <;> cases hw <;> rw [h]

theorem port_of_presentWord {s t : State} {w : BitVec 32} (hw : presentWord s = (some w, t)) :
    t.port = some w := by
  rcases presentWord_cases s with ⟨w', port, e⟩ | ⟨-, w', ws, n, e⟩ | ⟨-, n, e⟩ <;>
    rw [e] at hw <;> cases hw
  · exact port
  · rfl

/-- What an agent whose turn is taken can leave, the reset input apart. -/
inductive AgentEffect (s : State) : State → Prop where
  | idle : AgentEffect s s
  | command {w : BitVec 32} {i : Instr} {t : State} (port : s.port = some w)
      (decoded : decodeCommand w = .ok i) (effect : CommandEffect s i t) : AgentEffect s t
  | illegal {w : BitVec 32} {e : DecodeError} (port : s.port = some w)
      (undecoded : decodeCommand w = .error e) : AgentEffect s (s.refuse .cmd)
  | micro {t : State} (effect : MicroEffect s t) : AgentEffect s t
  | commandsSent (bytes : List (BitVec 8)) : AgentEffect s (s.txCmd bytes)
  | dataSent (bytes : List (BitVec 8)) : AgentEffect s (s.txData bytes)
  | timePassed (now : BitVec 64) : AgentEffect s (s.advanceTime now)

/-- A step is a pulse of the reset input, or takes a turn and has the effect of that turn's agent. -/
theorem step_agentEffect {s t : State} (h : step s = .next t) :
    resetComes s ∨ ∃ u, TurnTaken s u ∧ AgentEffect u t := by
  have taken := turnTaken_takeTurn s
  rcases step_cases h with ⟨-, i, hd, ht⟩ | ⟨transport, u, rfl, ⟨-, command | illegal | idle⟩ |
    ⟨-, i, hd, ht⟩ | ⟨now, -, rfl⟩ | ⟨turn, -⟩⟩
  · obtain ⟨-, rfl | rfl⟩ := decodeTransaction_ok hd <;> cases ht
    · exact .inr ⟨{ s with transport := [] }, rfl, .commandsSent _⟩
    · exact .inr ⟨{ s with transport := [] }, rfl, .dataSent _⟩
  · obtain ⟨w, v, i, hw, hd, ht⟩ := command
    exact .inr ⟨v, taken.presentWord hw,
      .command (port_of_presentWord hw) hd (exec_commandEffect hd ht)⟩
  · obtain ⟨w, v, e, hw, hd, rfl⟩ := illegal
    exact .inr ⟨v, taken.presentWord hw, .illegal (port_of_presentWord hw) hd⟩
  · exact .inr ⟨t, taken.presentWord idle, .idle⟩
  · exact .inr ⟨_, taken, .micro (exec_microEffect hd ht)⟩
  · exact .inr ⟨_, taken, .timePassed now⟩
  · exact .inl ⟨transport, turn⟩

/-! ## The frame buffers -/

theorem readFrame_congr {s t : State} (b : BitVec 1) (a : Nat) (hfb0 : t.fb0 = s.fb0 := by simp)
    (hfb1 : t.fb1 = s.fb1 := by simp) (hpowerUp : t.powerUp = s.powerUp := by simp) :
    t.readFrame b a = s.readFrame b a := by
  simp only [State.readFrame, State.frameMem, hfb0, hfb1, hpowerUp]

theorem readFrame_writeFrame_of_ne (s : State) {b b' : BitVec 1} (h : b' ≠ b) (a a' : Nat)
    (d : BitVec 8) : (s.writeFrame b a d).readFrame b' a' = s.readFrame b' a' := by
  rw [State.readFrame_writeFrame, if_neg fun same => h same.1]

theorem ownsFrame_curFb {s : State} (h : s.dispHolds = true) : s.ownsFrame s.curFb = true := by
  simp [State.ownsFrame, h]

section
variable {s t : State} {b : BitVec 1}

theorem TurnTaken.ownsFrame (h : TurnTaken s t) : t.ownsFrame b = s.ownsFrame b := by
  rw [h]
  rfl

theorem TurnTaken.readFrame (h : TurnTaken s t) (a : Nat) : t.readFrame b a = s.readFrame b a := by
  rw [h]
  rfl

/-- No command changes a buffer that the display sequencer owns: PXW, the only command that writes a
frame buffer, passes its ownership check for the other one alone (20_memory.md R75, R76). -/
theorem CommandEffect.readFrame_of_owned {i : Instr} (effect : CommandEffect s i t)
    (owned : s.ownsFrame b = true) (a : Nat) : t.readFrame b a = s.readFrame b a := by
  cases effect with
  | @pixelWritten b' a' d range own =>
    have other : b ≠ b' := by
      rintro rfl
      simp [owned] at own
    exact (readFrame_congr b a).trans (readFrame_writeFrame_of_ne s other a'.toNat a d)
  | _ => exact readFrame_congr b a

/-- No micro-operation changes a frame buffer (60_exceptions.md R261). -/
theorem MicroEffect.readFrame (effect : MicroEffect s t) (a : Nat) :
    t.readFrame b a = s.readFrame b a := by
  cases effect with
  | ended start _ result =>
    rw [start.frame result]
    exact readFrame_congr b a
  | fatal start _ result =>
    rw [start.frame result]
    exact readFrame_congr b a
  | _ => exact readFrame_congr b a

/-- No agent changes a buffer that the display sequencer owns. -/
theorem AgentEffect.readFrame_of_owned (effect : AgentEffect s t) (owned : s.ownsFrame b = true)
    (a : Nat) : t.readFrame b a = s.readFrame b a := by
  cases effect with
  | command _ _ effect => exact effect.readFrame_of_owned owned a
  | micro effect => exact effect.readFrame a
  | _ => exact readFrame_congr b a

end

/-- Settles O54: during a sweep the display sequencer owns the buffer being shown, and no agent
changes an owned buffer. -/
theorem frameStableDuringSweep : Obligations.FrameStableDuringSweep := by
  intro s t a holds h
  rcases step_agentEffect h with reset | ⟨u, taken, effect⟩
  · exact .inl reset
  · have owned : u.ownsFrame s.curFb = true := taken.ownsFrame.trans (ownsFrame_curFb holds)
    exact .inr ((effect.readFrame_of_owned owned a).trans (taken.readFrame a))

end Sys2Proof.Machine
end

section
/-! PROOFS. The decoder and the encoder (30_encoding.md R95 to R103): the ten rows of command words,
the codes of `SEQ`, and the symbols of a transaction. -/

namespace Sys2Proof

open Machine
open BitVec (extractLsb'_append_eq_of_add_le extractLsb'_append_eq_of_le)

/-! ## Bits of a concatenation -/

section Bits

variable {m n k : Nat} {hi : BitVec m} {lo : BitVec n}

theorem getLsbD_append_of_lt (h : k < n) : (hi ++ lo).getLsbD k = lo.getLsbD k := by
  rw [BitVec.getLsbD_append, if_pos h]

theorem getLsbD_append_of_le (h : n ≤ k) : (hi ++ lo).getLsbD k = hi.getLsbD (k - n) := by
  rw [BitVec.getLsbD_append, if_neg (Nat.not_lt.2 h)]

end Bits

/-! ## The rows of command words -/

/-- A row of 30_encoding.md R98, with the command that a word of the row is (R97). -/
structure CommandRow where
  mnemonic : String
  bits : BitVec 32
  mask : BitVec 32
  command : BitVec 32 → Instr

namespace CommandRow

/-! Each row of R98, its fields where R97 puts them. -/

def pxw : CommandRow := ⟨"PXW", 0x10000000#32, 0xF0000000#32,
  fun w => .pxw (w.extractLsb' 27 1) (w.extractLsb' 8 19) (w.extractLsb' 0 8)⟩
def pxr : CommandRow := ⟨"PXR", 0x20000000#32, 0xF00000FF#32,
  fun w => .pxr (w.extractLsb' 27 1) (w.extractLsb' 8 19)⟩
def palreq : CommandRow := ⟨"PALREQ", 0x30000000#32, 0xFFFFFF00#32,
  fun w => .palreq (w.extractLsb' 0 8)⟩
def gamma : CommandRow := ⟨"GAMMA", 0x40000000#32, 0xFFFFFF00#32,
  fun w => .gamma (w.extractLsb' 0 8)⟩
def publish : CommandRow := ⟨"PUBLISH", 0x50000000#32, 0xFF0000FE#32,
  fun w => .publish (w.extractLsb' 16 8) (w.extractLsb' 8 8) (w.extractLsb' 0 1)⟩
def ovw : CommandRow := ⟨"OVW", 0x60000000#32, 0xF0000000#32,
  fun w => .ovw (w.extractLsb' 26 2) (w.extractLsb' 16 10) (w.extractLsb' 0 16)⟩
def ovn : CommandRow := ⟨"OVN", 0x70000000#32, 0xF3FFF800#32,
  fun w => .ovn (w.extractLsb' 26 2) (w.extractLsb' 0 11)⟩
def wipew : CommandRow := ⟨"WIPEW", 0x80000000#32, 0xF0000000#32,
  fun w => .wipew (w.extractLsb' 16 12) (w.extractLsb' 0 16)⟩
def wipemin : CommandRow := ⟨"WIPEMIN", 0x90000000#32, 0xFFFF0000#32,
  fun w => .wipemin (w.extractLsb' 0 16)⟩
def rdstat : CommandRow := ⟨"RDSTAT", 0xA0000000#32, 0xFFFFFFFF#32, fun _ => .rdstat⟩

/-- The rows in the order of the decoder. -/
def all : List CommandRow :=
  [pxw, pxr, palreq, gamma, publish, ovw, ovn, wipew, wipemin, rdstat]

/-- The word has the fixed bits of the row (30_encoding.md R98). -/
def Fits (r : CommandRow) (w : BitVec 32) : Prop := w &&& r.mask = r.bits

/-- A fact about each row is a fact about every row of the table. -/
theorem forall_mem_all {P : CommandRow → Prop} (hpxw : P pxw) (hpxr : P pxr) (hpalreq : P palreq)
    (hgamma : P gamma) (hpublish : P publish) (hovw : P ovw) (hovn : P ovn) (hwipew : P wipew)
    (hwipemin : P wipemin) (hrdstat : P rdstat) : ∀ r ∈ all, P r := by
  simp only [all, List.forall_mem_cons]
  exact ⟨hpxw, hpxr, hpalreq, hgamma, hpublish, hovw, hovn, hwipew, hwipemin, hrdstat, nofun⟩

/-- The command of the first row whose fixed bits the word has. -/
def firstFit (w : BitVec 32) : List CommandRow → Except DecodeError Instr
  | [] => .error .illegalCommand
  | r :: rows => if fitsRow w r.mask r.bits then .ok (r.command w) else firstFit w rows

theorem decodeCommand_eq_firstFit (w : BitVec 32) : decodeCommand w = firstFit w all := rfl

theorem fitsRow_iff {r : CommandRow} {w : BitVec 32} : fitsRow w r.mask r.bits = true ↔ r.Fits w :=
  beq_iff_eq

theorem fits_of_firstFit {w : BitVec 32} {i : Instr} {rows : List CommandRow}
    (h : firstFit w rows = .ok i) : ∃ r ∈ rows, r.Fits w ∧ r.command w = i := by
  induction rows with
  | nil => cases h
  | cons r rows ih =>
    unfold firstFit at h
    split at h
    next fits =>
      cases h
      exact ⟨r, .head _, fitsRow_iff.1 fits, rfl⟩
    next =>
      obtain ⟨r', hr', found⟩ := ih h
      exact ⟨r', .tail _ hr', found⟩

theorem firstFit_of_fits {w : BitVec 32} {r : CommandRow} {rows : List CommandRow} (hr : r ∈ rows)
    (fits : r.Fits w) (unique : ∀ r' ∈ rows, r'.Fits w → r' = r) :
    firstFit w rows = .ok (r.command w) := by
  induction rows with
  | nil => cases hr
  | cons r' rows ih =>
    unfold firstFit
    split
    next fits' => rw [unique r' (.head _) (fitsRow_iff.1 fits')]
    next misfit =>
      rcases List.mem_cons.1 hr with rfl | hr
      · exact absurd (fitsRow_iff.2 fits) misfit
      · exact ih hr fun r'' hr'' => unique r'' (.tail _ hr'')

/-! ## The fixed bits of a word -/

/-- A slice of the word that the mask covers is that slice of the row's fixed bits. -/
theorem Fits.extractLsb' {r : CommandRow} {w : BitVec 32} (fits : r.Fits w) (start len : Nat)
    (covered : r.mask.extractLsb' start len = BitVec.allOnes len) :
    w.extractLsb' start len = r.bits.extractLsb' start len := by
  rw [← show w &&& r.mask = r.bits from fits, BitVec.extractLsb'_and, covered, BitVec.and_allOnes]

theorem mask_opcode : ∀ r ∈ all, r.mask.extractLsb' 28 4 = BitVec.allOnes 4 :=
  forall_mem_all rfl rfl rfl rfl rfl rfl rfl rfl rfl rfl

/-- Bits 31 to 28 tell the rows apart (30_encoding.md R96, R98), so a word fits one row at most. -/
theorem Fits.unique {r r' : CommandRow} {w : BitVec 32} (hr : r ∈ all) (hr' : r' ∈ all)
    (fits : r.Fits w) (fits' : r'.Fits w) : r' = r := by
  have distinct : (all.map fun r => r.bits.extractLsb' 28 4).Nodup := by decide
  apply List.inj_on_of_nodup_map distinct hr' hr
  rw [← fits.extractLsb' 28 4 (mask_opcode r hr), ← fits'.extractLsb' 28 4 (mask_opcode r' hr')]

/-- The command word decoder, both ways (30_encoding.md R98, R99). -/
theorem decodeCommand_eq_ok {w : BitVec 32} {i : Instr} :
    decodeCommand w = .ok i ↔ ∃ r ∈ all, r.Fits w ∧ r.command w = i := by
  rw [decodeCommand_eq_firstFit]
  refine ⟨fits_of_firstFit, ?_⟩
  rintro ⟨r, hr, fits, rfl⟩
  exact firstFit_of_fits hr fits fun r' hr' fits' => fits.unique hr hr' fits'

/-! ## Words and fields -/

theorem mnemonicOf_command (w : BitVec 32) : ∀ r ∈ all, mnemonicOf (r.command w) = r.mnemonic :=
  forall_mem_all rfl rfl rfl rfl rfl rfl rfl rfl rfl rfl

theorem wellFormed_command (w : BitVec 32) : ∀ r ∈ all, (r.command w).wellFormed = true :=
  forall_mem_all rfl rfl rfl rfl rfl rfl rfl rfl rfl rfl

theorem mnemonic_injOn {r r' : CommandRow} (hr : r ∈ all) (hr' : r' ∈ all)
    (h : r.mnemonic = r'.mnemonic) : r = r' := by
  have distinct : (all.map mnemonic).Nodup := by decide
  exact List.inj_on_of_nodup_map distinct hr hr' h

/-- A word is the concatenation of its slices: the fixed ones are those of the row, the others
stand in the operation. -/
theorem encode_command {w : BitVec 32} :
    ∀ r ∈ all, r.Fits w → encode (r.command w) = .command w := by
  have join := @BitVec.extractLsb'_append_extractLsb'_eq_extractLsb' 32
  apply forall_mem_all
  case hpxw =>
    intro fits
    have opcode : w.extractLsb' 28 4 = 0x1#4 := fits.extractLsb' 28 4 rfl
    simp [encode, pxw, ← opcode, join]
  case hpxr =>
    intro fits
    have opcode : w.extractLsb' 28 4 = 0x2#4 := fits.extractLsb' 28 4 rfl
    have zero : w.extractLsb' 0 8 = 0#8 := fits.extractLsb' 0 8 rfl
    simp [encode, pxr, ← opcode, ← zero, join]
  case hpalreq =>
    intro fits
    have opcode : w.extractLsb' 28 4 = 0x3#4 := fits.extractLsb' 28 4 rfl
    have zero : w.extractLsb' 8 20 = 0#20 := fits.extractLsb' 8 20 rfl
    simp [encode, palreq, ← opcode, ← zero, join]
  case hgamma =>
    intro fits
    have opcode : w.extractLsb' 28 4 = 0x4#4 := fits.extractLsb' 28 4 rfl
    have zero : w.extractLsb' 8 20 = 0#20 := fits.extractLsb' 8 20 rfl
    simp [encode, gamma, ← opcode, ← zero, join]
  case hpublish =>
    intro fits
    have opcode : w.extractLsb' 28 4 = 0x5#4 := fits.extractLsb' 28 4 rfl
    have high : w.extractLsb' 24 4 = 0#4 := fits.extractLsb' 24 4 rfl
    have low : w.extractLsb' 1 7 = 0#7 := fits.extractLsb' 1 7 rfl
    simp [encode, publish, ← opcode, ← high, ← low, join]
  case hovw =>
    intro fits
    have opcode : w.extractLsb' 28 4 = 0x6#4 := fits.extractLsb' 28 4 rfl
    simp [encode, ovw, ← opcode, join]
  case hovn =>
    intro fits
    have opcode : w.extractLsb' 28 4 = 0x7#4 := fits.extractLsb' 28 4 rfl
    have zero : w.extractLsb' 11 15 = 0#15 := fits.extractLsb' 11 15 rfl
    simp [encode, ovn, ← opcode, ← zero, join]
  case hwipew =>
    intro fits
    have opcode : w.extractLsb' 28 4 = 0x8#4 := fits.extractLsb' 28 4 rfl
    simp [encode, wipew, ← opcode, join]
  case hwipemin =>
    intro fits
    have opcode : w.extractLsb' 28 4 = 0x9#4 := fits.extractLsb' 28 4 rfl
    have zero : w.extractLsb' 16 12 = 0#12 := fits.extractLsb' 16 12 rfl
    simp [encode, wipemin, ← opcode, ← zero, join]
  case hrdstat =>
    intro fits
    have opcode : w.extractLsb' 28 4 = 0xA#4 := fits.extractLsb' 28 4 rfl
    have zero : w.extractLsb' 0 28 = 0#28 := fits.extractLsb' 0 28 rfl
    simp [encode, rdstat, ← opcode, ← zero, join]

/-! A field of a word built from operands is its operand. The widths stay sums (no `Nat.reduceAdd`),
which is how the lemmas about `++` state them. -/

theorem command_pxw (b : BitVec 1) (a : BitVec 19) (d : BitVec 8) :
    pxw.command (0x1#4 ++ b ++ a ++ d) = .pxw b a d := by
  simp (disch := decide) [pxw, extractLsb'_append_eq_of_add_le, extractLsb'_append_eq_of_le,
    -Nat.reduceAdd]

theorem command_pxr (b : BitVec 1) (a : BitVec 19) :
    pxr.command (0x2#4 ++ b ++ a ++ 0#8) = .pxr b a := by
  simp (disch := decide) [pxr, extractLsb'_append_eq_of_add_le, extractLsb'_append_eq_of_le,
    -Nat.reduceAdd]

theorem command_palreq (id : BitVec 8) :
    palreq.command (0x3#4 ++ 0#20 ++ id) = .palreq id := by
  simp (disch := decide) [palreq, extractLsb'_append_eq_of_add_le, -Nat.reduceAdd]

theorem command_gamma (g : BitVec 8) :
    gamma.command (0x4#4 ++ 0#20 ++ g) = .gamma g := by
  simp (disch := decide) [gamma, extractLsb'_append_eq_of_add_le, -Nat.reduceAdd]

theorem command_publish (vt ov : BitVec 8) (fb : BitVec 1) :
    publish.command (0x5#4 ++ 0#4 ++ vt ++ ov ++ 0#7 ++ fb) = .publish vt ov fb := by
  simp (disch := decide) [publish, extractLsb'_append_eq_of_add_le, extractLsb'_append_eq_of_le,
    -Nat.reduceAdd]

theorem command_ovw (os : BitVec 2) (j : BitVec 10) (row : BitVec 16) :
    ovw.command (0x6#4 ++ os ++ j ++ row) = .ovw os j row := by
  simp (disch := decide) [ovw, extractLsb'_append_eq_of_add_le, extractLsb'_append_eq_of_le,
    -Nat.reduceAdd]

theorem command_ovn (os : BitVec 2) (n : BitVec 11) :
    ovn.command (0x7#4 ++ os ++ 0#15 ++ n) = .ovn os n := by
  simp (disch := decide) [ovn, extractLsb'_append_eq_of_add_le, extractLsb'_append_eq_of_le,
    -Nat.reduceAdd]

theorem command_wipew (x : BitVec 12) (raw : BitVec 16) :
    wipew.command (0x8#4 ++ x ++ raw) = .wipew x raw := by
  simp (disch := decide) [wipew, extractLsb'_append_eq_of_add_le, extractLsb'_append_eq_of_le,
    -Nat.reduceAdd]

theorem command_wipemin (m : BitVec 16) :
    wipemin.command (0x9#4 ++ 0#12 ++ m) = .wipemin m := by
  simp (disch := decide) [wipemin, extractLsb'_append_eq_of_add_le, -Nat.reduceAdd]

end CommandRow

open CommandRow

/-! ## Decoding an encoded operation -/

/-- A command whose word lies in a row and whose operands are that row's fields is decoded back. -/
theorem decode_encode_of_row {r : CommandRow} {i : Instr} {w : BitVec 32} (hr : r ∈ all)
    (word : encode i = .command w) (legal : ∃ w, encode i = .command w ∧ w &&& r.mask = r.bits)
    (fields : r.command w = i) : decode (encode i) = .ok i := by
  obtain ⟨w', word', fits⟩ := legal
  cases word.symm.trans word'
  rw [word]
  exact decodeCommand_eq_ok.2 ⟨r, hr, fits, fields⟩

section Symbols

variable (b : BitVec 8)

@[simp] theorem symbolIsData_cmdSymbol : symbolIsData (cmdSymbol b) = false :=
  getLsbD_append_of_le (Nat.le_refl 8)

@[simp] theorem symbolIsData_dataSymbol : symbolIsData (dataSymbol b) = true :=
  getLsbD_append_of_le (Nat.le_refl 8)

@[simp] theorem symbolByte_cmdSymbol : symbolByte (cmdSymbol b) = b :=
  (extractLsb'_append_eq_of_add_le (Nat.le_refl 8)).trans BitVec.extractLsb'_eq_self

@[simp] theorem symbolByte_dataSymbol : symbolByte (dataSymbol b) = b :=
  (extractLsb'_append_eq_of_add_le (Nat.le_refl 8)).trans BitVec.extractLsb'_eq_self

/-- A symbol is its data/command bit above its byte (30_encoding.md R103). -/
theorem cons_symbolByte (sym : BitVec 9) :
    BitVec.cons (symbolIsData sym) (symbolByte sym) = sym := by
  have byte : symbolByte sym = sym.setWidth 8 :=
    (BitVec.setWidth_eq_extractLsb' (by decide)).symm
  rw [byte]
  exact BitVec.cons_msb_setWidth sym

theorem cmdSymbol_symbolByte {sym : BitVec 9} (h : symbolIsData sym = false) :
    cmdSymbol (symbolByte sym) = sym := by
  conv_rhs => rw [← cons_symbolByte sym, h]
  rfl

theorem dataSymbol_symbolByte {sym : BitVec 9} (h : symbolIsData sym = true) :
    dataSymbol (symbolByte sym) = sym := by
  conv_rhs => rw [← cons_symbolByte sym, h]
  rfl

end Symbols

theorem decode_encode_txcmd {bytes : List (BitVec 8)} (h : bytes ≠ []) :
    decode (encode (.txcmd bytes)) = .ok (.txcmd bytes) := by
  have back : (bytes.map cmdSymbol).map symbolByte = bytes :=
    Function.LeftInverse.list_map symbolByte_cmdSymbol bytes
  simp only [encode, decode, decodeTransaction, back]
  simp [h]

theorem decode_encode_txdata {bytes : List (BitVec 8)} (h : bytes ≠ []) :
    decode (encode (.txdata bytes)) = .ok (.txdata bytes) := by
  have back : (bytes.map dataSymbol).map symbolByte = bytes :=
    Function.LeftInverse.list_map symbolByte_dataSymbol bytes
  obtain ⟨b, bs, rfl⟩ := List.exists_cons_of_ne_nil h
  simp only [encode, decode, decodeTransaction, back]
  simp

/-! ## Encoding a decoded operation -/

theorem encode_of_decodeCommand {w : BitVec 32} {i : Instr} (h : decodeCommand w = .ok i) :
    encode i = .command w ∧ i.wellFormed = true := by
  obtain ⟨r, hr, fits, rfl⟩ := decodeCommand_eq_ok.1 h
  exact ⟨encode_command r hr fits, wellFormed_command w r hr⟩

theorem encode_of_decodeMicro {c : BitVec 4} {i : Instr} (h : decodeMicro c = .ok i) :
    encode i = .micro c ∧ i.wellFormed = true := by
  rcases decodeMicro_ok h with ⟨rfl, rfl⟩ | ⟨rfl, rfl⟩ | ⟨rfl, rfl⟩ | ⟨rfl, rfl⟩ | ⟨rfl, rfl⟩ |
    ⟨rfl, rfl⟩ | ⟨rfl, rfl⟩ | ⟨rfl, rfl⟩ | ⟨rfl, rfl⟩ | ⟨rfl, rfl⟩ | ⟨rfl, rfl⟩ <;>
  exact ⟨rfl, rfl⟩

theorem map_symbolByte_eq_self {symbols : List (BitVec 9)} {f : BitVec 8 → BitVec 9}
    (h : ∀ sym ∈ symbols, f (symbolByte sym) = sym) : (symbols.map symbolByte).map f = symbols := by
  rw [List.map_map]
  exact (List.map_congr_left h).trans (List.map_id symbols)

theorem encode_of_decodeTransaction {symbols : List (BitVec 9)} {i : Instr}
    (h : decodeTransaction symbols = .ok i) :
    encode i = .transaction symbols ∧ i.wellFormed = true := by
  unfold decodeTransaction at h
  split_ifs at h with empty allCmd allData <;> cases h
  · have back : ∀ sym ∈ symbols, cmdSymbol (symbolByte sym) = sym :=
      fun sym hsym => cmdSymbol_symbolByte (by simpa using List.all_eq_true.1 allCmd sym hsym)
    exact ⟨congrArg Encoded.transaction (map_symbolByte_eq_self back),
      by simpa [Instr.wellFormed] using empty⟩
  · have back : ∀ sym ∈ symbols, dataSymbol (symbolByte sym) = sym :=
      fun sym hsym => dataSymbol_symbolByte (List.all_eq_true.1 allData sym hsym)
    exact ⟨congrArg Encoded.transaction (map_symbolByte_eq_self back),
      by simpa [Instr.wellFormed] using empty⟩

/-- Settles O2, format by format. -/
theorem encodeDecodeWords : Obligations.EncodeDecodeWords := by
  intro e i h
  cases e with
  | command w => exact encode_of_decodeCommand h
  | micro c => exact encode_of_decodeMicro h
  | transaction symbols => exact encode_of_decodeTransaction h

/-- A word is decoded to the mnemonic of a row exactly when it fits that row. -/
theorem exists_decode_mnemonic_iff {r : CommandRow} (hr : r ∈ all) (w : BitVec 32) :
    (∃ i, decode (.command w) = .ok i ∧ mnemonicOf i = r.mnemonic) ↔ r.Fits w := by
  constructor
  · rintro ⟨i, decoded, name⟩
    obtain ⟨r', hr', fits, rfl⟩ := decodeCommand_eq_ok.1 decoded
    have same : r' = r := mnemonic_injOn hr' hr ((mnemonicOf_command w r' hr').symm.trans name)
    exact same ▸ fits
  · intro fits
    exact ⟨r.command w, decodeCommand_eq_ok.2 ⟨r, hr, fits, rfl⟩, mnemonicOf_command w r hr⟩

/-- Settles O3: the rows of the statement are those of the table. -/
theorem commandRowsExact : Obligations.CommandRowsExact := by
  intro row hrow w
  obtain ⟨r, hr, rfl⟩ : ∃ r ∈ all, (r.mnemonic, r.bits, r.mask) = row := List.mem_map.1 hrow
  exact exists_decode_mnemonic_iff hr w

/-- Settles O4, word by word. -/
theorem specWordsDecode : Obligations.SpecWordsDecode := by
  unfold Obligations.SpecWordsDecode
  decide

/-- Settles O1: a command by its row and the place of each field, a code by itself, a transaction
symbol by symbol. -/
theorem decodeEncodeRoundTrip : Obligations.DecodeEncodeRoundTrip := by
  intro i wellFormed
  cases i with
  | pxw b a d =>
    exact decode_encode_of_row (r := pxw) (by simp [all]) rfl (Laws.EncodeLegal.pxw b a d rfl)
      (command_pxw b a d)
  | pxr b a =>
    exact decode_encode_of_row (r := pxr) (by simp [all]) rfl (Laws.EncodeLegal.pxr b a rfl)
      (command_pxr b a)
  | palreq id =>
    exact decode_encode_of_row (r := palreq) (by simp [all]) rfl (Laws.EncodeLegal.palreq id rfl)
      (command_palreq id)
  | gamma g =>
    exact decode_encode_of_row (r := gamma) (by simp [all]) rfl (Laws.EncodeLegal.gamma g rfl)
      (command_gamma g)
  | publish vt ov fb =>
    exact decode_encode_of_row (r := publish) (by simp [all]) rfl
      (Laws.EncodeLegal.publish vt ov fb rfl) (command_publish vt ov fb)
  | ovw os j row =>
    exact decode_encode_of_row (r := ovw) (by simp [all]) rfl (Laws.EncodeLegal.ovw os j row rfl)
      (command_ovw os j row)
  | ovn os n =>
    exact decode_encode_of_row (r := ovn) (by simp [all]) rfl (Laws.EncodeLegal.ovn os n rfl)
      (command_ovn os n)
  | wipew x raw =>
    exact decode_encode_of_row (r := wipew) (by simp [all]) rfl (Laws.EncodeLegal.wipew x raw rfl)
      (command_wipew x raw)
  | wipemin m =>
    exact decode_encode_of_row (r := wipemin) (by simp [all]) rfl (Laws.EncodeLegal.wipemin m rfl)
      (command_wipemin m)
  | rdstat | init | waitsync | applypal | rebuildov | advwipe | encode | park | run | release | pace
  | halt => rfl
  | txcmd bytes => exact decode_encode_txcmd (by simpa [Instr.wellFormed] using wellFormed)
  | txdata bytes => exact decode_encode_txdata (by simpa [Instr.wellFormed] using wellFormed)

end Sys2Proof
end

section
/-! PROOFS. The panel stream: whole transactions (30_encoding.md R103, 43_display_transport.md R181,
R182) and the levels of the lines (30_encoding.md R104, 43_display_transport.md R189). -/

namespace Sys2Proof.Machine

/-! ## Framing -/

/-- A reader that has completed its transaction reads what follows from outside. -/
theorem framedFrom_append {pos : FramePos} {events : List PanelEvent}
    (h : framedFrom pos events = true) (rest : List PanelEvent) :
    framedFrom pos (events ++ rest) = panelFramed rest := by
  fun_induction framedFrom pos events with
  | case1 => rfl
  | case2 _ ih | case3 _ _ _ ih | case5 _ _ ih => exact ih h
  | case4 dc dc' _ _ ih =>
    obtain ⟨level, closed⟩ := Bool.and_eq_true_iff.1 h
    rw [List.cons_append, framedFrom, level, Bool.true_and, ih closed]
  | case6 => cases h

theorem framedFrom_inside (dc : DataCmd) (bytes : List (BitVec 8)) :
    framedFrom (.inside dc) (bytes.map (PanelEvent.byte dc) ++ [.csDeassert]) = true := by
  induction bytes with
  | nil => rfl
  | cons b bs ih => simpa [framedFrom] using ih

theorem panelFramed_transactionEvents (dc : DataCmd) {bytes : List (BitVec 8)} (h : bytes ≠ []) :
    panelFramed (transactionEvents dc bytes) = true := by
  obtain ⟨b, bs, rfl⟩ := List.exists_cons_of_ne_nil h
  exact framedFrom_inside dc bs

theorem panelFramed_append {events rest : List PanelEvent} (h : panelFramed events = true)
    (hrest : panelFramed rest = true) : panelFramed (events ++ rest) = true :=
  (framedFrom_append h rest).trans hrest

/-! ## Every step keeps the stream framed -/

theorem Config.fieldLen_pos {c : Config} (h : c.valid = true) : 0 < c.fieldLen := by
  simp only [Config.valid, Bool.and_eq_true, decide_eq_true_eq, beq_iff_eq] at h
  obtain ⟨⟨⟨⟨⟨⟨⟨⟨⟨⟨⟨srcW, srcH⟩, ss⟩, wide⟩, high⟩, -⟩, -⟩, -⟩, -⟩, -⟩, -⟩, -⟩ := h
  have dispW : 0 < c.dispW := Nat.div_pos (Nat.le_of_dvd srcW (Nat.dvd_of_mod_eq_zero wide)) ss
  have dispH : 0 < c.dispH := Nat.div_pos (Nat.le_of_dvd srcH (Nat.dvd_of_mod_eq_zero high)) ss
  exact Nat.mul_pos dispW (Nat.div_pos (by omega) (by decide))

/-- The parameters are `c`, and the panel stream is a sequence of whole transactions. -/
structure PanelInv (c : Config) (s : State) : Prop where
  cfg : s.cfg = c
  framed : panelFramed s.panel = true

namespace PanelInv

variable {c : Config} {s t : State}

theorem congr (h : PanelInv c s) (hcfg : t.cfg = s.cfg := by simp)
    (hpanel : t.panel = s.panel := by simp) : PanelInv c t :=
  ⟨hcfg.trans h.cfg, hpanel ▸ h.framed⟩

theorem turnTaken (h : PanelInv c s) (taken : TurnTaken s t) : PanelInv c t := by
  rw [taken]
  exact h.congr

/-- TXCMD of no bytes emits nothing, TXCMD of bytes one transaction. -/
theorem txCmd (h : PanelInv c s) (bytes : List (BitVec 8)) : PanelInv c (s.txCmd bytes) where
  cfg := by simpa using h.cfg
  framed := by
    rw [State.txCmd_panel]
    refine panelFramed_append h.framed ?_
    split
    next => rfl
    next nonempty => exact panelFramed_transactionEvents .cmd (by simpa using nonempty)

theorem txData (h : PanelInv c s) {bytes : List (BitVec 8)} (nonempty : bytes ≠ []) :
    PanelInv c (s.txData bytes) where
  cfg := h.cfg
  framed := panelFramed_append h.framed (panelFramed_transactionEvents .data nonempty)

/-- No command reaches the panel. -/
theorem command (h : PanelInv c s) {i : Instr} (effect : CommandEffect s i t) : PanelInv c t := by
  cases effect <;> exact h.congr

/-- INIT, PARK and RUN are the micro-operations that reach the panel, each by whole transactions. -/
theorem micro (h : PanelInv c s) (valid : c.valid = true) (effect : MicroEffect s t) :
    PanelInv c t := by
  cases effect with
  | started => exact (h.txCmd s.cfg.initSeq).congr
  | parked => exact (h.txCmd s.cfg.parkSeq).congr
  | ran =>
    have bytes : s.fieldBytes ≠ [] := by
      rw [← List.length_pos_iff, State.length_fieldBytes, h.cfg]
      exact Config.fieldLen_pos valid
    exact ((h.txCmd (s.cfg.fieldSeq s.fi)).txData bytes).congr
  | ended start _ result | fatal start _ result =>
    rw [start.frame result]
    exact h.congr
  | _ => exact h.congr

/-- A transaction given as an operation has at least one byte, or it is not decoded. -/
theorem transaction (h : PanelInv c s) {symbols : List (BitVec 9)} {i : Instr}
    (decoded : decodeTransaction symbols = .ok i) (ht : exec i s = .next t) : PanelInv c t := by
  obtain ⟨nonempty, rfl | rfl⟩ := decodeTransaction_ok decoded <;> cases ht
  · exact h.txCmd _
  · exact h.txData (by simpa using nonempty)

theorem pulseReset (h : PanelInv c s) : PanelInv c s.pulseReset := ⟨h.cfg, rfl⟩

theorem step (h : PanelInv c s) (valid : c.valid = true) (hs : Machine.step s = .next t) :
    PanelInv c t := by
  have taken := turnTaken_takeTurn s
  rcases step_cases hs with ⟨-, i, decoded, ht⟩ | ⟨-, u, rfl, ⟨-, command | illegal | idle⟩ |
    ⟨-, i, decoded, ht⟩ | ⟨now, -, rfl⟩ | ⟨-, rfl⟩⟩
  · exact transaction (s := { s with transport := [] }) h.congr decoded ht
  · obtain ⟨w, v, i, hw, decoded, ht⟩ := command
    exact (h.turnTaken (taken.presentWord hw)).command (exec_commandEffect decoded ht)
  · obtain ⟨w, v, e, hw, -, rfl⟩ := illegal
    exact (h.turnTaken (taken.presentWord hw)).congr
  · exact h.turnTaken (taken.presentWord idle)
  · exact (h.turnTaken taken).micro valid (exec_microEffect decoded ht)
  · exact (h.turnTaken taken).congr
  · exact (h.turnTaken taken).pulseReset

end PanelInv

/-- Settles O58, by the cases of a step: whatever reaches the panel is whole transactions. -/
theorem stepKeepsPanelFramed : Obligations.StepKeepsPanelFramed := by
  intro s t valid framed h
  have kept := PanelInv.step ⟨rfl, framed⟩ valid h
  exact ⟨kept.framed, kept.cfg⟩

/-! ## The lines -/

theorem level_eq_decide (dc : DataCmd) : dc.level = decide (dc = .data) := by
  cases dc <;> rfl

/-- The eight pulses of a byte, written out from bit 7 to bit 0. -/
theorem serialForm_byte (dc : DataCmd) (b : BitVec 8) :
    serialForm (.byte dc b) =
      ([7, 6, 5, 4, 3, 2, 1, 0].flatMap fun k => clockPulse dc.level (b.getLsbD k))
        ++ [clockIdle false (some dc.level)] := rfl

/-- What a panel samples of a stream of events, the clock idle before it. -/
theorem risingEdges_flatMap_serialForm (events : List PanelEvent) :
    risingEdges false (events.flatMap serialForm) = events.flatMap eventSamples := by
  induction events with
  | nil => rfl
  | cons e es ih => simp only [List.flatMap_cons, risingEdges_serialForm, ih]

/-- The lines end with the clock idle, after any events. -/
theorem serialStream_ends_idle (s : State) :
    ∃ l, s.serialStream.getLast? = some l ∧ l.sck = false := by
  rcases List.eq_nil_or_concat s.panel with h | ⟨es, e, h⟩
  · exact ⟨_, by rw [State.serialStream, h]; rfl, rfl⟩
  · obtain ⟨xs, cs, dc, he⟩ := serialForm_ends_idle e
    refine ⟨clockIdle cs dc, ?_, rfl⟩
    have last : s.serialStream =
        (clockIdle true none :: (es.flatMap serialForm ++ xs)) ++ [clockIdle cs dc] := by
      simp [State.serialStream, h, he]
    rw [last, List.getLast?_concat]

theorem serialStream_clock_low {s : State} {l : LineLevels} (h : l ∈ s.serialStream)
    (hcs : l.cs = true) : l.sck = false := by
  rcases List.mem_cons.1 h with rfl | h
  · rfl
  · obtain ⟨e, -, hl⟩ := List.mem_flatMap.1 h
    exact serialForm_clock_low hl hcs

/-- Settles O47, from the serial form of each event. -/
theorem serialFormMsbFirst : Obligations.SerialFormMsbFirst := by
  refine ⟨fun dc b => ⟨rfl, rfl, ?_⟩, fun s => ⟨rfl, ?_, ?_, ?_⟩⟩
  · rw [serialForm_byte, level_eq_decide]
    rfl
  · obtain ⟨l, last, low⟩ := serialStream_ends_idle s
    rw [last, Option.map_some, low]
  · exact fun l => serialStream_clock_low
  · exact risingEdges_flatMap_serialForm s.panel

end Sys2Proof.Machine
end

section
/-! PROOFS. Which operation a step runs (20_memory.md R81, 45_producer_port.md R220), the refusal of
an illegal word (30_encoding.md R99, R100), and the fields of STATUS (R101). -/

namespace Sys2Proof.Machine

open BitVec (extractLsb'_append_eq_of_add_le extractLsb'_append_eq_of_le)

/-! ## The operation of a step -/

section
variable {s : State} {ts : List Turn} {w : BitVec 32} {i : Instr}

theorem presentWord_of_port (h : s.port = some w) : presentWord s = (some w, s) := by
  simp only [presentWord, h]

theorem presentWord_of_commands {ws : List (BitVec 32)} (hport : s.port = none)
    (h : s.commands = w :: ws) :
    presentWord s = (some w, { s with port := some w, commands := ws, response := none }) := by
  simp only [presentWord, hport, h]

/-- The producer's turn runs the command that the presented word is. -/
theorem step_producer {v : State} (ht : s.transport = []) (hturn : s.turns = .producer :: ts)
    (hw : presentWord { s with turns := ts } = (some w, v)) (hd : decode (.command w) = .ok i) :
    step s = exec i v := by
  simp only [step, fetch_of_turns ht hturn, fetchTurn, fetchCommand, hw, hd]

theorem step_producer_illegal {v : State} {e : DecodeError} (ht : s.transport = [])
    (hturn : s.turns = .producer :: ts) (hw : presentWord { s with turns := ts } = (some w, v))
    (hd : decode (.command w) = .error e) : step s = .next (v.refuse .cmd) := by
  simp only [step, fetch_of_turns ht hturn, fetchTurn, fetchCommand, hw, hd]

/-- The display sequencer's turn runs the micro-operation of `SEQ`. -/
theorem step_display (ht : s.transport = []) (hturn : s.turns = .display :: ts)
    (hd : decode (.micro s.seq) = .ok i) : step s = exec i { s with turns := ts } := by
  simp only [step, fetch_of_turns ht hturn, fetchTurn, fetchMicro, hd]

/-- A T-format operation comes before any turn. -/
theorem step_transaction (ht : s.transport ≠ []) (hd : decode (.transaction s.transport) = .ok i) :
    step s = exec i { s with transport := [] } := by
  simp [step, fetch, ht, fetchTransaction, hd]

end

/-- Settles O5: the word is presented, is no command, and is refused. -/
theorem illegalWordRefused : Obligations.IllegalWordRefused := by
  intro s ts w e ht hturn hport hd
  exact step_producer_illegal ht hturn (presentWord_of_port hport) hd

/-- Settles O6, agent by agent. -/
theorem stepRunsDecodedOperation : Obligations.StepRunsDecodedOperation := by
  intro s ts ws w i
  refine ⟨fun ht hturn hport hd => ?_, fun ht hturn hport hcommands hd => ?_, step_display,
    step_transaction⟩
  · exact step_producer ht hturn (presentWord_of_port hport) hd
  · exact step_producer ht hturn (presentWord_of_commands hport hcommands) hd

/-! ## The STATUS word -/

/-- Settles O17: each field of the concatenation in its place. -/
theorem rdstatReturnsStatus : Obligations.RdstatReturnsStatus := by
  intro s
  refine ⟨s.status, rfl, ?_⟩
  simp (disch := decide) [State.status, getLsbD_append_of_lt, getLsbD_append_of_le,
    extractLsb'_append_eq_of_add_le, extractLsb'_append_eq_of_le, -Nat.reduceAdd,
    -BitVec.getLsbD_eq_getElem]

end Sys2Proof.Machine
end

section
/-! PROOFS. The palette engine (40_palette_engine.md R125 to R139): the fade blend, the luminance
reduction, and APPLYPAL with nothing pending, with every patch valid, and up to an invalid patch. -/

namespace Sys2Proof.Machine

/-! ## The fade blend (R130) -/

/-- The arithmetic shift rounds toward minus infinity (00_scope.md R17). -/
theorem asr_eq_floor (x : Int) (n : Nat) : asr x n = ⌊(x : ℚ) / 2 ^ n⌋ := by
  have h := Rat.floor_intCast_div_natCast x (2 ^ n)
  push_cast at h
  exact h.symm

section
variable {c t mul : Int}

/-- A fade towards a larger tint never falls and never passes the tint. -/
theorem blend_between_of_le (h : c ≤ t) (h0 : 0 ≤ mul) (h1 : mul ≤ 65536) :
    c ≤ blend c t mul ∧ blend c t mul ≤ t := by
  have low : 0 ≤ (t - c) * mul := Int.mul_nonneg (by omega) h0
  have high : (t - c) * mul ≤ (t - c) * 65536 := Int.mul_le_mul_of_nonneg_left h1 (by omega)
  simp only [blend, asr]
  omega

/-- A fade towards a smaller tint never rises and never passes the tint. -/
theorem blend_between_of_ge (h : t ≤ c) (h0 : 0 ≤ mul) (h1 : mul ≤ 65536) :
    t ≤ blend c t mul ∧ blend c t mul ≤ c := by
  have low : 0 ≤ (c - t) * mul := Int.mul_nonneg (by omega) h0
  have high : (c - t) * mul ≤ (c - t) * 65536 := Int.mul_le_mul_of_nonneg_left h1 (by omega)
  have swap : (t - c) * mul = -((c - t) * mul) := by rw [← Int.neg_mul, Int.neg_sub]
  simp only [blend, asr, swap]
  omega

theorem blend_between (h0 : 0 ≤ mul) (h1 : mul ≤ 65536) :
    min c t ≤ blend c t mul ∧ blend c t mul ≤ max c t := by
  rcases Int.le_total c t with h | h
  · simpa [h] using blend_between_of_le h h0 h1
  · simpa [h] using blend_between_of_ge h h0 h1

theorem blend_nonneg (hc : 0 ≤ c) (ht : 0 ≤ t) (h0 : 0 ≤ mul) (h1 : mul ≤ 65536) :
    0 ≤ blend c t mul :=
  (le_min hc ht).trans (blend_between h0 h1).1

@[simp] theorem blend_zero : blend c t 0 = c := by simp [blend, asr]

@[simp] theorem blend_full : blend c t 65536 = t := by
  simp only [blend, asr]
  omega

end

/-- The product of the blend fits 26 bits with its sign. -/
theorem blend_product_range {c t mul : Nat} (hc : c ≤ 255) (ht : t ≤ 256) (hm : mul ≤ 65536) :
    -(2 ^ 25 : Int) ≤ ((t : Int) - c) * mul ∧ ((t : Int) - c) * mul < 2 ^ 25 := by
  have up : t * mul ≤ 256 * 65536 := Nat.mul_le_mul ht hm
  have down : c * mul ≤ 255 * 65536 := Nat.mul_le_mul hc hm
  rw [Int.sub_mul, ← Int.natCast_mul, ← Int.natCast_mul]
  omega

/-- Settles O32: the floor by `asr_eq_floor`, the ranges by `blend_product_range` and
`blend_between`. -/
theorem blendBetween : Obligations.BlendBetween := by
  refine ⟨fun c t mul hc ht hm => ?_, by decide, by decide⟩
  have ⟨productLow, productHigh⟩ := blend_product_range hc ht hm
  have ⟨low, high⟩ := blend_between (c := c) (t := t) (mul := mul) (by omega) (by omega)
  refine ⟨?_, productLow, productHigh, low, high, by omega, by omega, blend_zero, blend_full⟩
  simp only [blend, asr_eq_floor]
  norm_num

/-! ## The luminance reduction (R133) -/

/-- On components that are not negative the reduction is the shifted weighted sum, clamped, and the
store to eight bits loses nothing. -/
theorem toNat_luminance (c : Config) {r g b : Int} (hr : 0 ≤ r) (hg : 0 ≤ g) (hb : 0 ≤ b) :
    ((luminance c r g b).toNat : Int) =
      min 255 ((c.lumWr * r + c.lumWg * g + c.lumWb * b) / 2 ^ c.lumShift) := by
  have sum : 0 ≤ (c.lumWr * r + c.lumWg * g + c.lumWb * b) / 2 ^ c.lumShift := by positivity
  rw [luminance, BitVec.toNat_ofInt, asr]
  omega

theorem toNat_luminance_natCast (c : Config) (r g b : Nat) :
    (luminance c r g b).toNat =
      min 255 ((c.lumWr * r + c.lumWg * g + c.lumWb * b) / 2 ^ c.lumShift) := by
  zify
  exact toNat_luminance c (by omega) (by omega) (by omega)

theorem toNat_luminance_default {c : Config} (hr : c.lumWr = 5) (hg : c.lumWg = 3)
    (hb : c.lumWb = 3) (hs : c.lumShift = 3) (r g b : Nat) :
    (luminance c r g b).toNat = min 255 ((5 * r + 3 * g + 3 * b) / 8) := by
  rw [toNat_luminance_natCast, hr, hg, hb, hs]
  rfl

/-- The default weights sum to 11/8, so the sum passes 255 from grey 186 on. -/
theorem luminance_grey_clamps {c : Config} (hr : c.lumWr = 5) (hg : c.lumWg = 3)
    (hb : c.lumWb = 3) (hs : c.lumShift = 3) {v : Nat} (hv : 186 ≤ v) :
    luminance c v v v = 255#8 := by
  apply BitVec.eq_of_toNat_eq
  rw [toNat_luminance_default hr hg hb hs, BitVec.toNat_ofNat]
  omega

/-- Settles O33: the values are those of `toNat_luminance_default`. -/
theorem luminanceReduction : Obligations.LuminanceReduction := by
  refine ⟨toNat_luminance_natCast, fun c hr hg hb hs => ?_⟩
  have value := toNat_luminance_default hr hg hb hs
  refine ⟨BitVec.eq_of_toNat_eq (value 0 0 0), BitVec.eq_of_toNat_eq (value 255 255 255),
    BitVec.eq_of_toNat_eq (value 128 128 128), BitVec.eq_of_toNat_eq (value 255 0 0),
    BitVec.eq_of_toNat_eq (value 0 255 0), BitVec.eq_of_toNat_eq (value 0 0 255),
    BitVec.eq_of_toNat_eq (value 185 185 185), BitVec.eq_of_toNat_eq (value 186 186 186),
    fun v => luminance_grey_clamps hr hg hb hs, fun r g b hr' hg' hb' => ⟨?_, value r g b⟩⟩
  rw [hr, hg, hb]
  omega

/-! ## The new luminance table (R126 to R130) -/

theorem directMode_iff {c : Config} {id : BitVec 8} :
    directMode c id = true ↔ id = 0#8 ∨ c.lump.length ≠ 768 := by
  simp [directMode, Config.lumpLen, palLumpLen]

theorem paletteOffset_eq (c : Config) (id : BitVec 8) :
    paletteOffset c id =
      if id = 0#8 ∨ c.lump.length ≠ 768 then 768 * id.toNat else 0 := by
  simp only [paletteOffset, directMode_iff, palLumpLen]

theorem baseComponent_eq (c : Config) (level id : BitVec 8) (i k : Nat) :
    baseComponent c level id i k =
      ((if c.gammaEn then
          ((c.gammaTables.getD level.toNat []).getD
            (c.lump.getD (paletteOffset c id + 3 * i + k) 0#8).toNat 0#8).toNat
        else (c.lump.getD (paletteOffset c id + 3 * i + k) 0#8).toNat : Nat) : Int) := by
  simp only [baseComponent, gam, gammaEntry, readLump, lumpAddr]
  split <;> rfl

theorem fadedComponent_eq (c : Config) (id : BitVec 8) (base : Int) (tint : FadeRecord → Nat) :
    fadedComponent c id base tint =
      if id = 0#8 ∨ c.lump.length ≠ 768 then base
      else base + ((tint (fadeEntry c id.toNat) - base) * (fadeEntry c id.toNat).mul) / 65536 := by
  simp only [fadedComponent, directMode_iff, blend, asr]
  norm_num

/-- A valid fade table has no blend factor beyond the whole (30_encoding.md R109); an entry outside
the table reads as no blend. -/
theorem fadeEntry_mul_le {c : Config} (h : c.valid = true) (id : Nat) :
    (fadeEntry c id).mul ≤ 65536 := by
  simp only [Config.valid, Bool.and_eq_true, List.all_eq_true, FadeRecord.inRange,
    decide_eq_true_eq] at h
  obtain ⟨⟨⟨⟨⟨-, ⟨-, inRange⟩, -⟩, -⟩, -⟩, -⟩, -⟩ := h
  unfold fadeEntry
  rw [List.getD_eq_getElem?_getD]
  cases entry : c.fade[id - 1]? with
  | none => simp
  | some r =>
    obtain ⟨-, mulInRange⟩ := inRange r (List.mem_of_getElem? entry)
    exact mulInRange

theorem fadedComponent_nonneg {c : Config} (h : c.valid = true) (id : BitVec 8) {base : Int}
    (hbase : 0 ≤ base) (tint : FadeRecord → Nat) : 0 ≤ fadedComponent c id base tint := by
  have hmul := fadeEntry_mul_le h id.toNat
  unfold fadedComponent
  split
  · exact hbase
  · exact blend_nonneg hbase (by omega) (by omega) (by omega)

theorem toNat_newLum {c : Config} (h : c.valid = true) (level id : BitVec 8) (i : Nat) :
    ((newLum c level id i).toNat : Int) =
      min 255 ((c.lumWr * fadedComponent c id (baseComponent c level id i 0) FadeRecord.tintR
        + c.lumWg * fadedComponent c id (baseComponent c level id i 1) FadeRecord.tintG
        + c.lumWb * fadedComponent c id (baseComponent c level id i 2) FadeRecord.tintB)
        / 2 ^ c.lumShift) := by
  have component (k : Nat) (tint : FadeRecord → Nat) :
      0 ≤ fadedComponent c id (baseComponent c level id i k) tint :=
    fadedComponent_nonneg h id (Int.natCast_nonneg _) tint
  exact toNat_luminance c (component 0 _) (component 1 _) (component 2 _)

/-! ## The APPLYPAL step -/

theorem patchValid_iff {p : Patch} :
    patchValid p = true ↔ p.depth = 4#8 ∧ p.flat = true ∧ p.hasPal = true := by
  simp [patchValid, and_assoc]

theorem patchValid_of_forall {ps : List Patch}
    (h : ∀ p ∈ ps, p.depth = 4#8 ∧ p.flat = true ∧ p.hasPal = true) :
    ∀ p ∈ ps, patchValid p = true := fun p hp => patchValid_iff.2 (h p hp)

/-- The first part of APPLYPAL: the flag is clear and `LUM` is whole (R126). -/
def State.withNewLum (s : State) : State :=
  { s with
    palPending := false
    lum := (List.range 256).map (newLum s.cfg s.gammaLevel s.palReq) }

/-- With a request pending and the palette inside the lump, APPLYPAL renews `LUM`, then the
mini-palettes (R126, R128). -/
theorem applyPalette_of_pending {s : State} (hp : s.palPending = true)
    (hl : paletteOffset s.cfg s.palReq + 768 ≤ s.cfg.lump.length) :
    applyPalette s =
      .ok ({ s.withNewLum with mini := (miniLoop s.withNewLum s.cfg.patches s.mini).1 },
        (miniLoop s.withNewLum s.cfg.patches s.mini).2) := by
  have inside : ¬ s.cfg.lumpLen < paletteOffset s.cfg s.palReq + palLumpLen := Nat.not_lt.2 hl
  rw [applyPalette, if_pos hp, if_neg inside]
  rfl

theorem applyPalette_of_not_pending {s : State} (hp : s.palPending = false) :
    applyPalette s = .ok (s, none) := by simp [applyPalette, hp]

/-- The `S_PAL` step of a video type that is not saving ends as its operation does. -/
theorem exec_applypal_of_not_saving {s : State} (hvt : s.curVt ≠ vtSaving) :
    exec .applypal s = finishStep seqOvl (applyPalette s) := if_neg hvt

theorem exec_applypal_of_saving {s : State} (hvt : s.curVt = vtSaving) :
    exec .applypal s = .next (s.setSeq seqOvl) := if_pos hvt

/-- Settles O29: with a saving video type the operation is skipped, otherwise it finds no request. -/
theorem applypalIdle : Obligations.ApplypalIdle := by
  intro s hp
  by_cases hvt : s.curVt = vtSaving
  · exact exec_applypal_of_saving hvt
  · rw [exec_applypal_of_not_saving hvt, applyPalette_of_not_pending hp]
    rfl

/-- Settles O30: every mini-palette is renewed by `miniLoop_valid`, every luminance is that of
`toNat_newLum`. -/
theorem applypalRecomputes : Obligations.ApplypalRecomputes := by
  intro s hvalid hvt hp _ hmini hpatches c direct off base fade comp hlump
  have offset : paletteOffset c s.palReq = off := paletteOffset_eq c s.palReq
  have component (i k : Nat) (tint : FadeRecord → Nat) :
      fadedComponent s.cfg s.palReq (baseComponent s.cfg s.gammaLevel s.palReq i k) tint =
        comp i k (tint fade) := by
    rw [fadedComponent_eq, baseComponent_eq, offset]
    rfl
  have loop := miniLoop_valid s.withNewLum s.cfg.patches s.mini hmini
    (patchValid_of_forall hpatches)
  refine ⟨({ s.withNewLum with mini := s.cfg.patches.map (miniOf s.withNewLum) } : State).setSeq
    seqOvl, ?_, rfl, by simp [State.withNewLum], fun i hi => ?_, rfl⟩
  · rw [exec_applypal_of_not_saving hvt, applyPalette_of_pending hp (by rw [offset]; exact hlump),
      loop]
    rfl
  · have entry : s.withNewLum.lum.getD i 0#8 = newLum s.cfg s.gammaLevel s.palReq i := by
      simp [State.withNewLum, List.getD_eq_getElem?_getD, hi]
    change ((s.withNewLum.lum.getD i 0#8).toNat : Int) = _
    rw [entry, toNat_newLum hvalid, component, component, component]

/-- Settles O31: `miniLoop_invalid` stops at the patch, and the step ends in fatal entry. -/
theorem applypalPatchFatal : Obligations.ApplypalPatchFatal := by
  intro s k p hvt hp hmini hlump hk hinvalid hbefore
  have inside : paletteOffset s.cfg s.palReq + 768 ≤ s.cfg.lump.length := by
    rw [paletteOffset_eq]
    exact hlump
  have invalid : patchValid p = false := by
    rw [← Bool.not_eq_true, patchValid_iff]
    exact hinvalid
  have loop := miniLoop_invalid s.withNewLum s.cfg.patches s.mini hmini hk invalid
    (patchValid_of_forall hbefore)
  refine ⟨({ s.withNewLum with
    mini := (s.cfg.patches.take k).map (miniOf s.withNewLum) ++ s.mini.drop k } : State).fatal
      .patch, ?_, rfl, rfl, rfl⟩
  rw [exec_applypal_of_not_saving hvt, applyPalette_of_pending hp inside, loop]
  rfl

end Sys2Proof.Machine
end

section
/-! PROOFS. The overlay/wipe preprocessor: the overlay chains (41_overlay_wipe.md R145 to R148). -/

namespace Sys2Proof.Machine

/-! ## Chains (R147, 30_encoding.md R108) -/

/-- The records from a link on are those of the list, in its order, and `NIL` ends them. -/
def LinksTo (recs : List OvRecord) : BitVec 16 → List Nat → Prop
  | link, [] => link = ovNil
  | link, j :: js =>
    link ≠ ovNil ∧ link.toNat = j ∧ LinksTo recs (recs.getD j ⟨0#16, ovNil⟩).next js

/-- A chain is what following its links visits, given fuel for its records and its end. -/
theorem followChain_of_linksTo {recs : List OvRecord} {link : BitVec 16} {js : List Nat}
    (h : LinksTo recs link js) {fuel : Nat} (hfuel : js.length < fuel) :
    followChain recs fuel link = js := by
  induction js generalizing link fuel with
  | nil =>
    obtain ⟨fuel, rfl⟩ := Nat.exists_eq_succ_of_ne_zero (Nat.ne_zero_of_lt hfuel)
    exact if_pos h
  | cons j js ih =>
    obtain ⟨fuel, rfl⟩ := Nat.exists_eq_succ_of_ne_zero (Nat.ne_zero_of_lt hfuel)
    obtain ⟨notNil, rfl, rest⟩ := h
    rw [followChain, if_neg notNil, ih rest (by simpa using hfuel)]

/-- A chain stands while records outside it change. -/
theorem LinksTo.congr {recs recs' : List OvRecord} {link : BitVec 16} {js : List Nat}
    (h : LinksTo recs link js) (same : ∀ j ∈ js, recs'[j]? = recs[j]?) :
    LinksTo recs' link js := by
  induction js generalizing link with
  | nil => exact h
  | cons j js ih =>
    obtain ⟨notNil, index, rest⟩ := h
    refine ⟨notNil, index, ?_⟩
    rw [List.getD_eq_getElem?_getD, same j (by simp), ← List.getD_eq_getElem?_getD]
    exact ih rest fun k hk => same k (by simp [hk])

/-! ## The records of a row -/

/-- The records of row `r` from `lo` on and below `n`, in ascending order. -/
def rowChain (recs : List OvRecord) (lo n r : Nat) : List Nat :=
  (List.range' lo (n - lo)).filter fun j => rowOf recs j == r

section
variable {recs recs' : List OvRecord} {lo i j n r : Nat}

theorem mem_rowChain : j ∈ rowChain recs lo n r ↔ (lo ≤ j ∧ j < n) ∧ rowOf recs j = r := by
  simp only [rowChain, List.mem_filter, List.mem_range'_1, beq_iff_eq]
  omega

theorem length_rowChain_le : (rowChain recs lo n r).length ≤ n :=
  (List.length_filter_le _ _).trans (by simp)

theorem rowChain_self : rowChain recs n n r = [] := by simp [rowChain]

/-- Going down by one record puts it at the head of its own row's chain. -/
theorem rowChain_eq_cons (h : i < n) :
    rowChain recs i n r =
      if rowOf recs i = r then i :: rowChain recs (i + 1) n r else rowChain recs (i + 1) n r := by
  have count : n - i = (n - (i + 1)) + 1 := by omega
  simp only [rowChain, count, List.range'_succ, List.filter_cons, beq_iff_eq]

/-- The same list, picked from all records below `n`. -/
theorem rowChain_eq_filter (h : lo ≤ n) :
    rowChain recs lo n r =
      (List.range n).filter fun j => decide (lo ≤ j) && rowOf recs j == r := by
  have split : List.range n = List.range' 0 lo ++ List.range' lo (n - lo) := by
    have := List.range'_append_1 (s := 0) (m := lo) (n := n - lo)
    rw [Nat.zero_add, Nat.add_sub_cancel' h] at this
    rw [List.range_eq_range', this]
  have below : (List.range' 0 lo).filter (fun j => decide (lo ≤ j) && rowOf recs j == r) = [] := by
    simp only [List.filter_eq_nil_iff, List.mem_range'_1, Bool.and_eq_true, decide_eq_true_eq]
    omega
  rw [split, List.filter_append, below, List.nil_append]
  refine List.filter_congr fun j hj => ?_
  rw [decide_eq_true (List.mem_range'_1.1 hj).1, Bool.true_and]

/-- The row of a record depends on its row field alone. -/
theorem rowOf_eq (recs : List OvRecord) (j : Nat) :
    rowOf recs j = ((recs[j]?.map OvRecord.row).getD 0#16).toNat := by
  simp only [rowOf, List.getD_eq_getElem?_getD]
  cases recs[j]? <;> rfl

theorem rowOf_congr (h : recs'[j]?.map OvRecord.row = recs[j]?.map OvRecord.row) :
    rowOf recs' j = rowOf recs j := by rw [rowOf_eq, h, rowOf_eq]

end

/-! ## The scan (R146) -/

/-- The scan of the records `recs` of a set with `n` of them has come down to record `lo`: the chains
hold the records from `lo` on, and nothing but the links of these has changed. -/
structure ScannedTo (rows n : Nat) (recs : List OvRecord) (lo : Nat) (head : List (BitVec 16))
    (linked : List OvRecord) : Prop where
  size : head.length = rows
  row : ∀ j : Nat, linked[j]?.map OvRecord.row = recs[j]?.map OvRecord.row
  below : ∀ j < lo, linked[j]? = recs[j]?
  beyond : ∀ j : Nat, n ≤ j → linked[j]? = recs[j]?
  chain : ∀ r < rows, LinksTo linked (head.getD r ovNil) (rowChain recs lo n r)

section
variable {rows n lo i : Nat} {recs linked : List OvRecord} {head : List (BitVec 16)}

/-- Before the scan every chain is empty. -/
theorem ScannedTo.start (rows n : Nat) (recs : List OvRecord) :
    ScannedTo rows n recs n (List.replicate rows ovNil) recs where
  size := List.length_replicate
  row _ := rfl
  below _ _ := rfl
  beyond _ _ := rfl
  chain r hr := by
    rw [rowChain_self, List.getD_eq_getElem _ _ (by simpa using hr), List.getElem_replicate]
    rfl

theorem ScannedTo.rowOf_eq (h : ScannedTo rows n recs lo head linked) (j : Nat) :
    rowOf linked j = rowOf recs j := rowOf_congr (h.row j)

theorem ScannedTo.lt_length (h : ScannedTo rows n recs lo head linked) {j : Nat} (hj : j < lo)
    (hlen : j < recs.length) : j < linked.length :=
  (List.getElem?_eq_some_iff.1 ((h.below j hj).trans (List.getElem?_eq_getElem hlen))).1

/-! The index of a record fits a link and is not `NIL` (R11). -/

theorem toNat_ofNat_index (h : i < 1024) : (BitVec.ofNat 16 i).toNat = i := by
  rw [BitVec.toNat_ofNat]
  omega

theorem ofNat_ne_ovNil (h : i < 1024) : BitVec.ofNat 16 i ≠ ovNil := by
  intro isNil
  have : i = 65535 := (toNat_ofNat_index h).symm.trans (congrArg BitVec.toNat isNil)
  omega

theorem linkRecord_recs_of_ne {j r : Nat} (h : i ≠ j) :
    (linkRecord head recs i r).2[j]? = recs[j]? := by simp [linkRecord, h]

theorem linkRecord_recs_self {r : Nat} (h : i < recs.length) :
    ((linkRecord head recs i r).2.getD i ⟨0#16, ovNil⟩).next = head.getD r ovNil := by
  simp [linkRecord, h]

theorem linkRecord_head_getD {r r' : Nat} (h : r' < head.length) :
    (linkRecord head recs i r).1.getD r' ovNil =
      if r = r' then BitVec.ofNat 16 i else head.getD r' ovNil := by
  simp only [linkRecord, List.getD_eq_getElem _ _ h]
  rw [List.getD_eq_getElem _ _ (by simpa using h), List.getElem_set]

/-- The next record goes to the front of its row's chain, the other chains stand. -/
theorem ScannedTo.link (h : ScannedTo rows n recs (i + 1) head linked) (hi : i < n)
    (hn : n ≤ 1024) (hlen : n ≤ recs.length) :
    ScannedTo rows n recs i (linkRecord head linked i (rowOf recs i)).1
      (linkRecord head linked i (rowOf recs i)).2 where
  size := (linkRecord_head_length ..).trans h.size
  row j := (linkRecord_rows ..).trans (h.row j)
  below j hj := (linkRecord_recs_of_ne (by omega)).trans (h.below j (by omega))
  beyond j hj := (linkRecord_recs_of_ne (by omega)).trans (h.beyond j hj)
  chain r hr := by
    have tail : LinksTo (linkRecord head linked i (rowOf recs i)).2 (head.getD r ovNil)
        (rowChain recs (i + 1) n r) := by
      refine (h.chain r hr).congr fun j hj => linkRecord_recs_of_ne ?_
      have := (mem_rowChain.1 hj).1
      omega
    rw [linkRecord_head_getD (by rw [h.size]; exact hr), rowChain_eq_cons hi]
    split
    next same =>
      subst same
      refine ⟨ofNat_ne_ovNil (by omega), toNat_ofNat_index (by omega), ?_⟩
      rwa [linkRecord_recs_self (h.lt_length (Nat.lt_succ_self i) (by omega))]
    next => exact tail

/-- The scan comes down through records whose rows have heads. -/
theorem exists_linkDown_eq (hn : n ≤ 1024) (hlen : n ≤ recs.length) (hlo : lo ≤ n)
    (hrow : ∀ j < n, lo ≤ j → rowOf recs j < rows) :
    ∃ head linked, ScannedTo rows n recs lo head linked ∧
      linkDown rows n (List.replicate rows ovNil) recs = linkDown rows lo head linked := by
  induction hlo using Nat.decreasingInduction with
  | self => exact ⟨_, _, .start rows n recs, rfl⟩
  | of_succ i hi ih =>
    obtain ⟨head, linked, scanned, same⟩ := ih fun j hj hij => hrow j hj (by omega)
    have inside := hrow i hi (Nat.le_refl i)
    refine ⟨_, _, scanned.link hi hn hlen, same.trans ?_⟩
    rw [← scanned.rowOf_eq] at inside ⊢
    exact if_neg (Nat.not_le.2 inside)

/-- Following a row's links from its head visits the scanned records of the row. -/
theorem ScannedTo.followChain_eq (h : ScannedTo rows n recs lo head linked) (hlo : lo ≤ n) {r : Nat}
    (hr : r < rows) :
    followChain linked (n + 1) (head.getD r ovNil) =
      (List.range n).filter fun j => decide (lo ≤ j) && rowOf recs j == r := by
  rw [followChain_of_linksTo (h.chain r hr) (Nat.lt_succ_of_le length_rowChain_le),
    rowChain_eq_filter hlo]

end

/-! ## The REBUILDOV step -/

/-- `s` with the heads and the records of the current set that the scan leaves. -/
def State.withChains (s : State) (head : List (BitVec 16)) (recs : List OvRecord) : State :=
  { s with head := head, ovrec := s.ovrec.set s.curOv.toNat recs }

section
variable {s : State}

theorem ovSet_withChains (h : TableInv s) (head : List (BitVec 16)) (linked : List OvRecord) :
    (s.withChains head linked).ovSet s.curOv.toNat = linked := by
  have inside : s.curOv.toNat < s.ovrec.length := h.ovrec.1 ▸ h.curOv
  simp [State.ovSet, State.withChains, inside]

theorem ovrec_withChains_of_ne (head : List (BitVec 16)) (linked : List OvRecord) {o : Nat}
    (h : o ≠ s.curOv.toNat) :
    (s.withChains head linked).ovrec[o]? = s.ovrec[o]? :=
  List.getElem?_set_ne h.symm

/-- The `S_OVL` step of a video type that is not saving ends as its scan does. -/
theorem exec_rebuildov_of_linkDown {head : List (BitVec 16)} {linked : List OvRecord}
    {f : Option FatalCause} (hvt : s.curVt ≠ vtSaving)
    (h : linkDown s.cfg.ovRows (s.ovCountOf s.curOv.toNat) (List.replicate s.cfg.ovRows ovNil)
      (s.ovSet s.curOv.toNat) = ((head, linked), f)) :
    exec .rebuildov s = finishStep seqWipe (.ok (s.withChains head linked, f)) := by
  have scan : rebuildOverlays s = .ok (s.withChains head linked, f) := by
    simp only [rebuildOverlays, h, State.withChains]
  rw [← scan]
  exact if_neg hvt

/-- The scan of the current set down to `lo`, its result in terms of the whole set. -/
theorem exists_scan_of_tableInv (h : TableInv s) {lo : Nat}
    (hlo : lo ≤ s.ovCountOf s.curOv.toNat)
    (hrow : ∀ j < s.ovCountOf s.curOv.toNat, lo ≤ j →
      rowOf (s.ovSet s.curOv.toNat) j < s.cfg.ovRows) :
    ∃ head linked,
      ScannedTo s.cfg.ovRows (s.ovCountOf s.curOv.toNat) (s.ovSet s.curOv.toNat) lo head linked ∧
      linkDown s.cfg.ovRows (s.ovCountOf s.curOv.toNat) (List.replicate s.cfg.ovRows ovNil)
        (s.ovSet s.curOv.toNat) = linkDown s.cfg.ovRows lo head linked := by
  have count := ovCountOf_le h.countRange s.curOv.toNat
  exact exists_linkDown_eq (count.trans (Config.ovMax_le h.valid))
    (count.trans_eq (h.length_ovSet h.curOv).symm) hlo hrow

/-- Settles O34: the scan comes down to record 0, so each chain holds all records of its row. -/
theorem rebuildovLinksChains : Obligations.RebuildovLinksChains := by
  intro s h hvt set n hrow
  obtain ⟨head, linked, scanned, scan⟩ :=
    exists_scan_of_tableInv h (Nat.zero_le n) fun j hj _ => hrow j hj
  have current : ((s.withChains head linked).setSeq seqWipe).ovSet set = linked :=
    ovSet_withChains h head linked
  refine ⟨(s.withChains head linked).setSeq seqWipe, exec_rebuildov_of_linkDown hvt scan, rfl,
    fun r hr => ?_, scanned.size, fun i => ?_, fun i hi => ?_,
    fun o => ovrec_withChains_of_ne head linked⟩
  · rw [current]
    refine (scanned.followChain_eq (Nat.zero_le n) hr).trans (List.filter_congr fun j _ => ?_)
    rw [decide_eq_true (Nat.zero_le j), Bool.true_and]
  · rw [current]
    exact scanned.rowOf_eq i
  · rw [current]
    exact scanned.beyond i hi

/-- Settles O35: the scan comes down to the record above, and ends there in fatal entry. -/
theorem rebuildovRowFatal : Obligations.RebuildovRowFatal := by
  intro s i h hvt set n hi outside hrow
  obtain ⟨head, linked, scanned, scan⟩ := exists_scan_of_tableInv h (Nat.succ_le_of_lt hi) hrow
  have stop : linkDown s.cfg.ovRows (i + 1) head linked = ((head, linked), some .overlayRow) := by
    rw [← scanned.rowOf_eq] at outside
    exact if_pos outside
  have current : ((s.withChains head linked).fatal .overlayRow).ovSet set = linked :=
    ovSet_withChains h head linked
  refine ⟨(s.withChains head linked).fatal .overlayRow,
    exec_rebuildov_of_linkDown hvt (scan.trans stop), rfl, fun r hr => ?_, scanned.size,
    fun j hj => ?_, fun j hj => ?_, fun j => ?_, fun o => ovrec_withChains_of_ne head linked⟩
  · rw [current]
    exact scanned.followChain_eq (Nat.succ_le_of_lt hi) hr
  · rw [current]
    exact scanned.beyond j hj
  · rw [current]
    exact scanned.below j (Nat.lt_succ_of_le hj)
  · rw [current]
    exact scanned.rowOf_eq j

end

end Sys2Proof.Machine
end

section
/-! PROOFS. The overlay/wipe preprocessor: the wipe (41_overlay_wipe.md R150 to R153). -/

namespace Sys2Proof.Machine

/-! ## One column (R150, R151) -/

/-- The display offset that ADVWIPE gives a column of raw offset `r` (R150, R151). -/
def nextOffset (c : Config) (r : Int) : Int :=
  if r < 0 then 0 else min (c.wipeH : Int) (r + min (r + 1) c.wipeStepCap)

/-- The raw offset that ADVWIPE gives a column of raw offset `r`: before it appears a column waits,
and moves only in a sweep of parity 0 (R150). -/
def nextRaw (c : Config) (parity : Bool) (r : Int) : Int :=
  if r < 0 then (if parity then r else r + 1) else nextOffset c r

section Column

variable {c : Config} {r : Int} {raw : BitVec 16}

theorem nextOffset_of_neg (neg : r < 0) : nextOffset c r = 0 := if_pos neg

theorem nextOffset_of_nonneg (nonneg : 0 ≤ r) :
    nextOffset c r = min (c.wipeH : Int) (r + min (r + 1) c.wipeStepCap) :=
  if_neg (Int.not_lt.2 nonneg)

theorem nextOffset_nonneg (c : Config) (r : Int) : 0 ≤ nextOffset c r := by
  unfold nextOffset
  split <;> omega

theorem nextOffset_le (c : Config) (r : Int) : nextOffset c r ≤ c.wipeH := by
  unfold nextOffset
  split <;> omega

/-- A column never goes back. -/
theorem le_nextOffset (h : r ≤ c.wipeH) : max 0 r ≤ nextOffset c r := by
  unfold nextOffset
  split <;> omega

/-- What is displayed of the new raw offset is the new display offset: a column that reaches 0 from
below is displayed as 0 too. -/
theorem max_nextRaw (c : Config) (parity : Bool) (r : Int) :
    max 0 (nextRaw c parity r) = nextOffset c r := by
  have := nextOffset_nonneg c r
  unfold nextRaw
  split
  next neg =>
    rw [nextOffset_of_neg neg]
    split <;> omega
  next => omega

theorem advanceColumn_eq_nextOffset (parity : Bool) (nonneg : 0 ≤ raw.toInt) :
    advanceColumn c parity raw =
      (BitVec.ofInt 16 (nextOffset c raw.toInt), BitVec.ofInt 16 (nextOffset c raw.toInt)) := by
  have step : raw.toInt + (if (c.wipeH : Int) < raw.toInt + wipeStep c raw.toInt
      then c.wipeH - raw.toInt else wipeStep c raw.toInt) = nextOffset c raw.toInt := by
    rw [nextOffset_of_nonneg nonneg, wipeStep]
    split <;> omega
  rw [← step]
  exact if_neg (Int.not_lt.2 nonneg)

theorem toNat_advanceColumn_snd (hH : c.wipeH ≤ 32767) (parity : Bool) (raw : BitVec 16) :
    ((advanceColumn c parity raw).2.toNat : Int) = nextOffset c raw.toInt := by
  rcases Int.lt_or_le raw.toInt 0 with neg | nonneg
  · rw [advanceColumn_of_neg parity neg, nextOffset_of_neg neg]
    rfl
  · have := nextOffset_le c raw.toInt
    rw [advanceColumn_eq_nextOffset parity nonneg]
    exact toNat_ofInt_of_offset (nextOffset_nonneg c _) (by omega)

theorem toInt_advanceColumn_fst (hH : c.wipeH ≤ 32767) (parity : Bool) (raw : BitVec 16) :
    (advanceColumn c parity raw).1.toInt = nextRaw c parity raw.toInt := by
  rcases Int.lt_or_le raw.toInt 0 with neg | nonneg
  · have := BitVec.le_toInt raw
    rw [advanceColumn_of_neg parity neg, nextRaw, if_pos neg]
    exact toInt_ofInt_of_offset (by split <;> omega) (by split <;> omega)
  · have := nextOffset_nonneg c raw.toInt
    have := nextOffset_le c raw.toInt
    rw [advanceColumn_eq_nextOffset parity nonneg, nextRaw, if_neg (Int.not_lt.2 nonneg)]
    exact toInt_ofInt_of_offset (by omega) (by omega)

/-- What a raw offset shows: itself, or 0 where it is negative (R150). -/
def displayOffset (raw : BitVec 16) : BitVec 16 := if raw.toInt < 0 then 0#16 else raw

theorem toNat_displayOffset (raw : BitVec 16) :
    ((displayOffset raw).toNat : Int) = max 0 raw.toInt := by
  unfold displayOffset
  split
  next neg => simp [Int.le_of_lt neg]
  next nonneg =>
    have := BitVec.toInt_eq_toNat_cond raw
    split at this <;> omega

/-- A column is settled as soon as it is advanced. -/
theorem displayOffset_advanceColumn (hH : c.wipeH ≤ 32767) (parity : Bool) (raw : BitVec 16) :
    displayOffset (advanceColumn c parity raw).1 = (advanceColumn c parity raw).2 := by
  apply BitVec.eq_of_toNat_eq
  zify
  rw [toNat_displayOffset, toInt_advanceColumn_fst hH, toNat_advanceColumn_snd hH, max_nextRaw]

/-- A settled column's display offset never falls. -/
theorem displayOffset_le_advanceColumn (hH : c.wipeH ≤ 32767) (parity : Bool)
    (hraw : raw.toInt ≤ c.wipeH) :
    (displayOffset raw).toNat ≤ (advanceColumn c parity raw).2.toNat := by
  zify
  rw [toNat_displayOffset, toNat_advanceColumn_snd hH]
  exact le_nextOffset hraw

end Column

/-! ## All columns and their minimum -/

theorem getD_map_of_lt {α β : Type} {l : List α} {x : Nat} (hx : x < l.length) (f : α → β) (d : α)
    (e : β) : (l.map f).getD x e = f (l.getD x d) := by
  simp [hx]

theorem Config.wipeCols_pos {c : Config} (h : c.valid = true) : 0 < c.wipeCols := by
  simp only [Config.valid, Bool.and_eq_true, decide_eq_true_eq] at h
  omega

theorem toNat_ofNat_minOffset (offs : List (BitVec 16)) :
    (BitVec.ofNat 16 (minOffset offs)).toNat = minOffset offs := by
  have := (minOffset_le offs 0xFFFF).1
  rw [BitVec.toNat_ofNat]
  unfold minOffset
  omega

/-- The columns as ADVWIPE writes them, before the new minimum is compared (R150). -/
def State.withColumns (s : State) : State :=
  { s with
    wipeRaw := s.wipeRaw.map fun r => (advanceColumn s.cfg s.sweepParity r).1
    wipeOff := s.wipeRaw.map fun r => (advanceColumn s.cfg s.sweepParity r).2 }

/-- The least display offset after all columns are written (R150). -/
def State.newMin (s : State) : Nat := minOffset s.withColumns.wipeOff

/-- What ADVWIPE leaves where the minimum does not fall (R150). -/
def State.withWipe (s : State) : State :=
  { s.withColumns with wipeMin := BitVec.ofNat 16 s.newMin }

section
variable {s : State}

theorem toNat_withWipe_wipeMin (s : State) : s.withWipe.wipeMin.toNat = s.newMin :=
  toNat_ofNat_minOffset _

theorem wipeRaw_ne_nil (hc : s.cfg.valid = true) (cols : s.wipeRaw.length = s.cfg.wipeCols) :
    s.wipeRaw ≠ [] := by
  rw [← List.length_pos_iff, cols]
  exact Config.wipeCols_pos hc

theorem newMin_spec (h : s.wipeRaw ≠ []) :
    (∀ o ∈ s.withColumns.wipeOff, s.newMin ≤ o.toNat) ∧
      ∃ o ∈ s.withColumns.wipeOff, s.newMin = o.toNat :=
  minOffset_spec (by simpa [State.withColumns] using h)

theorem advanceWipe_of_finished (h : s.cfg.wipeT < s.wipeMin.toNat) :
    advanceWipe s = .ok (s, none) := if_pos h

theorem advanceWipe_of_falling (active : s.wipeMin.toNat ≤ s.cfg.wipeT)
    (h : s.newMin < s.wipeMin.toNat) : advanceWipe s = .ok (s.withColumns, some .wipeMin) := by
  simp only [State.newMin, State.withColumns] at h
  simp [advanceWipe, active, h, Function.comp_def, State.withColumns]

theorem advanceWipe_of_rising (active : s.wipeMin.toNat ≤ s.cfg.wipeT)
    (h : s.wipeMin.toNat ≤ s.newMin) : advanceWipe s = .ok (s.withWipe, none) := by
  have h' := Nat.not_lt.2 h
  simp only [State.newMin, State.withColumns] at h'
  simp [advanceWipe, active, h', Function.comp_def, State.withColumns, State.withWipe, State.newMin]

end

/-- The columns of the advanced wipe, one by one. -/
theorem withColumns_getD {s : State} (hH : s.cfg.wipeH ≤ 32767) {x : Nat}
    (hx : x < s.wipeRaw.length) :
    ((s.withColumns.wipeOff.getD x 0#16).toNat : Int) =
        nextOffset s.cfg (s.wipeRaw.getD x 0#16).toInt ∧
      (s.withColumns.wipeRaw.getD x 0#16).toInt =
        nextRaw s.cfg s.sweepParity (s.wipeRaw.getD x 0#16).toInt := by
  simp only [State.withColumns]
  rw [getD_map_of_lt hx _ 0#16, getD_map_of_lt hx _ 0#16]
  exact ⟨toNat_advanceColumn_snd hH _ _, toInt_advanceColumn_fst hH _ _⟩

/-- The new minimum is the least of the new offsets. -/
theorem newMin_eq_least {s : State} (hc : s.cfg.valid = true)
    (cols : s.wipeRaw.length = s.cfg.wipeCols) :
    (∀ x < s.cfg.wipeCols, (s.newMin : Int) ≤ nextOffset s.cfg (s.wipeRaw.getD x 0#16).toInt) ∧
      ∃ x < s.cfg.wipeCols, (s.newMin : Int) = nextOffset s.cfg (s.wipeRaw.getD x 0#16).toInt := by
  have hH := Config.wipeH_le hc
  have size : s.withColumns.wipeOff.length = s.wipeRaw.length := by simp [State.withColumns]
  obtain ⟨least, o, ho, attained⟩ := newMin_spec (wipeRaw_ne_nil hc cols)
  rw [← cols]
  refine ⟨fun x hx => ?_, ?_⟩
  · rw [← (withColumns_getD hH hx).1, Int.ofNat_le, List.getD_eq_getElem _ _ (size ▸ hx)]
    exact least _ (List.getElem_mem _)
  · obtain ⟨x, hx, rfl⟩ := List.getElem_of_mem ho
    refine ⟨x, size ▸ hx, ?_⟩
    rw [← (withColumns_getD hH (size ▸ hx)).1, List.getD_eq_getElem _ _ hx, attained]

/-! ## The ADVWIPE step -/

theorem exec_advwipe_of_saving {s : State} (hvt : s.curVt = vtSaving) :
    exec .advwipe s = .next (s.setSeq seqEncode) := if_pos hvt

/-- The `S_WIPE` step of a video type that is not saving ends as its operation does. -/
theorem exec_advwipe_of_not_saving {s : State} (hvt : s.curVt ≠ vtSaving) :
    exec .advwipe s = finishStep seqEncode (advanceWipe s) := if_neg hvt

theorem exec_advwipe_of_ok {s u : State} (hvt : s.curVt ≠ vtSaving)
    (h : advanceWipe s = .ok (u, none)) : exec .advwipe s = .next (u.setSeq seqEncode) := by
  rw [exec_advwipe_of_not_saving hvt, h]
  rfl

theorem exec_advwipe_of_fatal {s u : State} {f : FatalCause} (hvt : s.curVt ≠ vtSaving)
    (h : advanceWipe s = .ok (u, some f)) : exec .advwipe s = .next (u.fatal f) := by
  rw [exec_advwipe_of_not_saving hvt, h]
  rfl

/-- Settles O36: the new minimum is the least new offset, so it does not fall. -/
theorem advwipeAdvancesColumns : Obligations.AdvwipeAdvancesColumns := by
  intro s h hvt c r off
  have hH := Config.wipeH_le h.valid
  obtain ⟨least, x, hx, attained⟩ := newMin_eq_least h.valid h.wipeRaw
  refine ⟨fun finished => exec_advwipe_of_ok hvt (advanceWipe_of_finished finished),
    fun active rising => ?_⟩
  have minimum : s.wipeMin.toNat ≤ s.newMin := by
    rw [← Int.ofNat_le, attained]
    exact rising x hx
  refine ⟨s.withWipe.setSeq seqEncode,
    exec_advwipe_of_ok hvt (advanceWipe_of_rising active minimum), rfl, ?_, ?_, fun y hy => ?_,
    ?_, ?_⟩
  · simpa [State.withWipe, State.withColumns] using h.wipeRaw
  · simpa [State.withWipe, State.withColumns] using h.wipeRaw
  · exact withColumns_getD hH (by rwa [h.wipeRaw])
  · rw [State.setSeq_wipeMin, toNat_withWipe_wipeMin]
    exact least
  · rw [State.setSeq_wipeMin, toNat_withWipe_wipeMin]
    exact ⟨x, hx, attained⟩

/-- Settles O37: the least new offset is below `WIPE_MIN`, and fatal entry comes after the columns. -/
theorem advwipeMinFatal : Obligations.AdvwipeMinFatal := by
  intro s x h hvt c r off active hx below
  obtain ⟨least, -⟩ := newMin_eq_least h.valid h.wipeRaw
  have falling : s.newMin < s.wipeMin.toNat := Int.ofNat_lt.1 ((least x hx).trans_lt below)
  exact ⟨s.withColumns.fatal .wipeMin,
    exec_advwipe_of_fatal hvt (advanceWipe_of_falling active falling), rfl,
    fun y hy => withColumns_getD (Config.wipeH_le h.valid) (by rwa [h.wipeRaw])⟩

/-! ## A settled wipe (R153 (a)) -/

theorem WipeSettled.congr {s t : State} (h : WipeSettled s) (hcfg : t.cfg = s.cfg := by simp)
    (hraw : t.wipeRaw = s.wipeRaw := by simp) (hoff : t.wipeOff = s.wipeOff := by simp)
    (hmin : t.wipeMin = s.wipeMin := by simp) : WipeSettled t where
  valid := by rw [hcfg]; exact h.valid
  cols := by rw [hcfg, hraw]; exact h.cols
  rawRange := by rw [hcfg, hraw]; exact h.rawRange
  offs := by rw [hraw, hoff]; exact h.offs
  wipeMin := by rw [hmin, hoff]; exact h.wipeMin

theorem WipeSettled.wipeOff_eq {s : State} (h : WipeSettled s) :
    s.wipeOff = s.wipeRaw.map displayOffset := h.offs

/-- What ADVWIPE leaves where the minimum does not fall is settled. -/
theorem wipeSettled_withWipe {s : State} (hc : s.cfg.valid = true)
    (cols : s.wipeRaw.length = s.cfg.wipeCols) (range : ∀ r ∈ s.wipeRaw, r.toInt ≤ s.cfg.wipeH) :
    WipeSettled s.withWipe := by
  have hH := Config.wipeH_le hc
  obtain ⟨least, o, ho, attained⟩ := newMin_spec (wipeRaw_ne_nil hc cols)
  exact {
    valid := hc
    cols := by simpa [State.withWipe, State.withColumns] using cols
    rawRange := List.forall_mem_map.2 fun r hr => (advanceColumn_range hH _ (range r hr)).1
    offs := by
      change s.withColumns.wipeOff = s.withColumns.wipeRaw.map displayOffset
      simp [State.withColumns, displayOffset_advanceColumn hH]
    wipeMin := by
      rw [toNat_withWipe_wipeMin]
      exact ⟨least, o, ho, BitVec.eq_of_toNat_eq ((toNat_withWipe_wipeMin s).trans attained)⟩ }

/-- The wipe is settled in `t`, and since `s` neither the minimum nor a display offset has fallen and
no `F_WIPE_MIN` was raised. -/
structure WipeKept (s t : State) : Prop where
  settled : WipeSettled t
  minimum : s.wipeMin.toNat ≤ t.wipeMin.toNat
  offsets : ∀ x : Nat, (s.wipeOff.getD x 0#16).toNat ≤ (t.wipeOff.getD x 0#16).toNat
  log : t.debugLog ≠ s.debugLog ++ [3#3]

/-- An update that writes no wipe register, whether or not it raises another fatal. -/
theorem WipeSettled.kept {s t : State} (h : WipeSettled s) (hcfg : t.cfg = s.cfg := by simp)
    (hraw : t.wipeRaw = s.wipeRaw := by simp) (hoff : t.wipeOff = s.wipeOff := by simp)
    (hmin : t.wipeMin = s.wipeMin := by simp)
    (log : t.debugLog ≠ s.debugLog ++ [3#3] := by simp) : WipeKept s t where
  settled := h.congr hcfg hraw hoff hmin
  minimum := by rw [hmin]
  offsets := by simp [hoff]
  log := log

theorem WipeKept.setSeq {s t : State} (h : WipeKept s t) (c : BitVec 4) :
    WipeKept s (t.setSeq c) := { h with settled := h.settled.congr }

/-- From a settled wipe no new offset is below the old one. -/
theorem WipeSettled.offsets_le {s : State} (h : WipeSettled s) (x : Nat) :
    (s.wipeOff.getD x 0#16).toNat ≤ (s.withColumns.wipeOff.getD x 0#16).toNat := by
  rcases Nat.lt_or_ge x s.wipeRaw.length with hx | hx
  · rw [h.wipeOff_eq, State.withColumns, getD_map_of_lt hx _ 0#16, getD_map_of_lt hx _ 0#16]
    refine displayOffset_le_advanceColumn (Config.wipeH_le h.valid) _ (h.rawRange _ ?_)
    simp [hx]
  · simp [h.wipeOff_eq, hx]

/-- So no new offset is below the old minimum. -/
theorem WipeSettled.wipeMin_le_newMin {s : State} (h : WipeSettled s) :
    s.wipeMin.toNat ≤ s.newMin := by
  obtain ⟨-, x, hx, attained⟩ := newMin_eq_least h.valid h.cols
  have inside : x < s.wipeRaw.length := by rwa [h.cols]
  have column := (withColumns_getD (Config.wipeH_le h.valid) inside).1
  have old : s.wipeMin.toNat ≤ (s.wipeOff.getD x 0#16).toNat := by
    rw [List.getD_eq_getElem _ _ (by simpa [h.wipeOff_eq] using inside)]
    exact h.wipeMin.1 _ (List.getElem_mem _)
  have rises := h.offsets_le x
  omega

/-- ADVWIPE keeps a settled wipe and raises no fatal. -/
theorem WipeSettled.advanceWipe {s : State} (h : WipeSettled s) :
    ∃ u, advanceWipe s = .ok (u, none) ∧ WipeKept s u ∧ u.halt = s.halt := by
  rcases Nat.lt_or_ge s.cfg.wipeT s.wipeMin.toNat with finished | active
  · exact ⟨s, advanceWipe_of_finished finished, h.kept, rfl⟩
  · have kept : WipeKept s s.withWipe :=
      { settled := wipeSettled_withWipe h.valid h.cols h.rawRange
        minimum := by
          rw [toNat_withWipe_wipeMin]
          exact h.wipeMin_le_newMin
        offsets := h.offsets_le
        log := by simp [State.withWipe, State.withColumns] }
    exact ⟨s.withWipe, advanceWipe_of_rising active h.wipeMin_le_newMin, kept, rfl⟩

/-! ## Every step from a settled wipe -/

/-- REBUILDOV raises no fatal but `F_OVERLAY_ROW`. -/
theorem rebuildOverlays_fatal_ne {s u : State} {f : Option FatalCause}
    (h : rebuildOverlays s = .ok (u, f)) : f ≠ some .wipeMin := by
  simp only [rebuildOverlays, Except.ok.injEq, Prod.mk.injEq] at h
  obtain ⟨-, rfl⟩ := h
  obtain ⟨-, -, -, -, none | row⟩ := linkDown_frame s.cfg.ovRows (s.ovCountOf s.curOv.toNat)
    (List.replicate s.cfg.ovRows ovNil) (s.ovSet s.curOv.toNat)
  · simp [none]
  · simp [row]

/-- ADVWIPE keeps a settled wipe by its law, the other two sweep-start operations leave it alone; none
raises `F_WIPE_MIN`. -/
theorem WipeSettled.sweepStart {s u : State} (h : WipeSettled s) {op : State → MicroResult}
    {c succ : BitVec 4} {f : Option FatalCause} (start : SweepStart op c succ)
    (result : op s = .ok (u, f)) : WipeKept s u ∧ f ≠ some .wipeMin := by
  cases start with
  | palette =>
    rcases applyPalette_ok result with ⟨-, rfl, rfl⟩ | ⟨-, hu, -, -, hf⟩
    · exact ⟨h.kept, nofun⟩
    · rw [hu]
      exact ⟨h.kept, by rcases hf with rfl | rfl <;> nofun⟩
  | overlays =>
    refine ⟨?_, rebuildOverlays_fatal_ne result⟩
    rcases rebuildOverlays_ok result with hu | ⟨-, hu⟩ <;> rw [hu] <;> exact h.kept
  | wipe =>
    obtain ⟨v, advanced, kept, -⟩ := h.advanceWipe
    cases advanced.symm.trans result
    exact ⟨kept, nofun⟩

/-- Fatal entry for another cause logs another code. -/
theorem WipeKept.fatal {s u : State} (h : WipeKept s u) (sameLog : u.debugLog = s.debugLog)
    {f : FatalCause} (other : f ≠ .wipeMin) : WipeKept s (u.fatal f) where
  settled := h.settled.congr
  minimum := h.minimum
  offsets := h.offsets
  log := by
    cases f with
    | wipeMin => exact absurd rfl other
    | overlayRow | patch => simp [State.fatal, FatalCause.code, sameLog]

theorem WipeSettled.micro {s t : State} (h : WipeSettled s) (effect : MicroEffect s t) :
    WipeKept s t := by
  cases effect with
  | ended start _ result => exact (h.sweepStart start result).1.setSeq _
  | @fatal _ _ u _ start _ result =>
    obtain ⟨kept, other⟩ := h.sweepStart start result
    have sameLog : u.debugLog = s.debugLog := by rw [start.frame result]
    exact kept.fatal sameLog (mt (congrArg some) other)
  | _ => exact h.kept

/-- WIPEW and WIPEMIN are the only commands that write the wipe registers (45_producer_port.md R230,
R231). -/
theorem WipeSettled.command {s t : State} {i : Instr} (h : WipeSettled s)
    (effect : CommandEffect s i t) (notColumn : ∀ x raw, i ≠ .wipew x raw)
    (notMin : ∀ m, i ≠ .wipemin m) : WipeKept s t := by
  cases effect with
  | columnSet => exact absurd rfl (notColumn _ _)
  | wipeMinSet => exact absurd rfl (notMin _)
  | _ => exact h.kept

theorem TurnTaken.wipeSettled {s u : State} (taken : TurnTaken s u) (h : WipeSettled s) :
    WipeSettled u := by
  rw [taken]
  exact h.congr

theorem TurnTaken.wipeKept {s u t : State} (taken : TurnTaken s u) (h : WipeKept u t) :
    WipeKept s t := by
  rw [taken] at h
  exact { h with }

theorem comingOp_of_producer {s v : State} {w : BitVec 32} {i : Instr} (transport : s.transport = [])
    (turn : (takeTurn s).1 = .producer) (hw : presentWord (takeTurn s).2 = (some w, v))
    (decoded : decodeCommand w = .ok i) : comingOp s = some i := by
  simp [comingOp, fetch, transport, turn, fetchTurn, fetchCommand, hw, decode, decoded]

theorem WipeSettled.step {s t : State} (h : WipeSettled s) (hs : Machine.step s = .next t)
    (noReset : ¬resetComes s) (noWrite : ¬wipeWriteComes s) : WipeKept s t := by
  have taken := turnTaken_takeTurn s
  rcases step_cases hs with ⟨-, i, decoded, ht⟩ | ⟨transport, u, rfl,
    ⟨turn, command | illegal | idle⟩ | ⟨-, i, decoded, ht⟩ | ⟨now, -, rfl⟩ | ⟨turn, -⟩⟩
  · obtain ⟨-, rfl | rfl⟩ := decodeTransaction_ok decoded <;> cases ht <;> exact h.kept
  · obtain ⟨w, v, i, hw, decoded, ht⟩ := command
    have coming := comingOp_of_producer transport turn hw decoded
    have present := taken.presentWord hw
    refine present.wipeKept ((present.wipeSettled h).command (exec_commandEffect decoded ht) ?_ ?_)
    · rintro x raw rfl
      exact noWrite (.inl ⟨x, raw, coming⟩)
    · rintro m rfl
      exact noWrite (.inr ⟨m, coming⟩)
  · obtain ⟨w, v, e, hw, -, rfl⟩ := illegal
    have present := taken.presentWord hw
    exact present.wipeKept (present.wipeSettled h).kept
  · have present := taken.presentWord idle
    exact present.wipeKept (present.wipeSettled h).kept
  · exact taken.wipeKept ((taken.wipeSettled h).micro (exec_microEffect decoded ht))
  · exact taken.wipeKept (taken.wipeSettled h).kept
  · exact absurd ⟨transport, turn⟩ noReset

/-- An active ADVWIPE that goes on to `S_ENCODE` has settled the wipe. -/
theorem wipeSettled_of_exec_advwipe {s t : State} (h : TableInv s) (hvt : s.curVt ≠ vtSaving)
    (active : s.wipeMin.toNat ≤ s.cfg.wipeT) (ht : exec .advwipe s = .next t)
    (hseq : t.seq = seqEncode) : WipeSettled t := by
  rcases Nat.lt_or_ge s.newMin s.wipeMin.toNat with falling | rising
  · rw [exec_advwipe_of_fatal hvt (advanceWipe_of_falling active falling)] at ht
    cases ht
    exact absurd hseq (by simp [seqHalt, seqEncode])
  · rw [exec_advwipe_of_ok hvt (advanceWipe_of_rising active rising)] at ht
    cases ht
    exact (wipeSettled_withWipe h.valid h.wipeRaw h.rawRange).congr

/-- From a settled wipe the `S_WIPE` step goes on to `S_ENCODE`, with or without its operation. -/
theorem WipeSettled.exec_advwipe {s : State} (h : WipeSettled s) :
    ∃ u, exec .advwipe s = .next (u.setSeq seqEncode) ∧ WipeKept s u ∧ u.halt = s.halt := by
  by_cases hvt : s.curVt = vtSaving
  · exact ⟨s, exec_advwipe_of_saving hvt, h.kept, rfl⟩
  · obtain ⟨u, advanced, kept, halt⟩ := h.advanceWipe
    exact ⟨u, exec_advwipe_of_ok hvt advanced, kept, halt⟩

/-- Settles O38: ADVWIPE settles the wipe, advances a settled one without a fall, and no other agent
but WIPEW, WIPEMIN and reset writes the wipe registers. -/
theorem wipeMinNeverDecreases : Obligations.WipeMinNeverDecreases := by
  refine ⟨fun s t h => wipeSettled_of_exec_advwipe h, fun s t h hs noReset noWrite => ?_,
    fun s h => ?_⟩
  · have kept := h.step hs noReset noWrite
    exact ⟨kept.settled, kept.minimum, kept.offsets, kept.log⟩
  · obtain ⟨u, ht, kept, halt⟩ := h.exec_advwipe
    have advanced := kept.setSeq seqEncode
    exact ⟨_, ht, advanced.settled, rfl, halt, advanced.minimum⟩

end Sys2Proof.Machine
end

section
/-! PROOFS. The field/bitplane encoder (42_bitplane_encoder.md R161 to R171): the sample, the level bit
and the packing of ENCODE, and the field byte that holds a panel row and column. -/

namespace Sys2Proof.Machine

/-! ## One output pixel (R162 to R167) -/

/-- The block of an output pixel as the double sum of R163. -/
theorem State.sample_eq_sum (s : State) (x y : Nat) :
    s.sample x y =
      (∑ j ∈ Finset.range s.cfg.ss, ∑ i ∈ Finset.range s.cfg.ss,
        s.pixelLum (x * s.cfg.ss + i) (y * s.cfg.ss + j)) / (s.cfg.ss * s.cfg.ss) := rfl

theorem fieldBit_eq_testBit (lvl f : Nat) : fieldBit lvl f = lvl.testBit (2 - f) := by
  rw [fieldBit, Nat.testBit_eq_decide_div_mod_eq, Nat.shiftRight_eq_div_pow]
  rfl

/-! ## Packing (R168, R170) -/

/-- Bits put together one by one by OR: bit `i` is the one put in at `i`, or 0 if none was. -/
theorem getLsbD_foldl_or (b : Nat → Bool) {n i : Nat} (hn : n ≤ 8) :
    ((List.range n).foldl (fun acc j => acc ||| (if b j then 1#8 <<< j else 0#8)) 0#8).getLsbD i =
      (decide (i < n) && b i) := by
  induction n with
  | zero => simp
  | succ n ih =>
    have bit : (1#8 <<< n).getLsbD i = decide (n = i) := by
      rw [← BitVec.twoPow_eq, BitVec.getLsbD_twoPow, decide_eq_true (Nat.lt_of_succ_le hn),
        Bool.true_and]
    rw [List.range_succ, List.foldl_append, List.foldl_cons, List.foldl_nil, BitVec.getLsbD_or,
      ih (by omega), apply_ite (BitVec.getLsbD · i), bit]
    by_cases last : n = i
    · simp [last]
    · have earlier : i < n + 1 ↔ i < n := by omega
      simp [last, earlier]

/-- Bit `j` of a field byte is panel row `8 * page + j` of its column. -/
theorem State.getLsbD_bitplaneByte (s : State) (f k : Nat) {j : Nat} (hj : j < 8) :
    (s.bitplaneByte f k).getLsbD j =
      s.panelOn f (8 * (k / s.cfg.dispW) + j) (k % s.cfg.dispW) := by
  rw [State.bitplaneByte,
    getLsbD_foldl_or (fun j => s.panelOn f (8 * (k / s.cfg.dispW) + j) (k % s.cfg.dispW)) le_rfl]
  simp [hj]

section
variable {c : Config} {x : Nat} (p : Nat) (hx : x < c.dispW)
include hx

theorem fieldAddr_div_dispW : fieldAddr c p x / c.dispW = p / 8 := by
  rw [fieldAddr, Nat.mul_comm, Nat.mul_add_div (by omega), Nat.div_eq_of_lt hx, Nat.add_zero]

theorem fieldAddr_mod_dispW : fieldAddr c p x % c.dispW = x := by
  rw [fieldAddr, Nat.mul_add_mod_of_lt hx]

/-- The byte of a panel row of some page is inside the field buffer. -/
theorem fieldAddr_lt_fieldLen {p : Nat} (hp : p < 8 * c.pages) : fieldAddr c p x < c.fieldLen := by
  have page : p / 8 + 1 ≤ c.pages := by omega
  calc p / 8 * c.dispW + x < (p / 8 + 1) * c.dispW := by rw [Nat.add_one_mul]; omega
    _ ≤ c.pages * c.dispW := Nat.mul_le_mul_right _ page
    _ = c.fieldLen := Nat.mul_comm ..

end

/-- The bit of panel row `p`, column `x` in the byte R170 gives it. -/
theorem State.getLsbD_bitplaneByte_fieldAddr (s : State) (f p : Nat) {x : Nat}
    (hx : x < s.cfg.dispW) :
    (s.bitplaneByte f (fieldAddr s.cfg p x)).getLsbD (p % 8) = s.panelOn f p x := by
  rw [s.getLsbD_bitplaneByte f _ (Nat.mod_lt p (by decide)), fieldAddr_div_dispW p hx,
    fieldAddr_mod_dispW p hx, Nat.div_add_mod]

/-! ## The ENCODE step -/

theorem exec_encode {s : State} (hf : s.fi ≠ 3#2) :
    exec .encode s = .next ((s.writeField (s.bitplaneByte s.fi.toNat)).setSeq seqPark) := if_neg hf

/-- Settles O39: the whole field buffer is written (R171), its bit of row `p`, column `x` is
`State.panelOn` by `getLsbD_bitplaneByte_fieldAddr`, and that is bit `2 - f` of the level (R167). -/
theorem encodePixels : Obligations.EncodePixels := by
  intro s _ hf c w h sample level
  refine ⟨_, exec_encode hf, rfl, fun x hx p hp => ?_⟩
  have written : ((s.writeField (s.bitplaneByte s.fi.toNat)).setSeq seqPark).readField
      (fieldAddr s.cfg p x) = s.bitplaneByte s.fi.toNat (fieldAddr s.cfg p x) :=
    (s.readField_writeField _ _).trans (if_pos (fieldAddr_lt_fieldLen hx hp))
  have gathered := s.getLsbD_bitplaneByte_fieldAddr s.fi.toNat p hx
  rw [← written, State.panelOn, State.pixelOn, fieldBit_eq_testBit, State.sample_eq_sum] at gathered
  exact gathered

end Sys2Proof.Machine
end

section
/-! PROOFS. The display transport (43_display_transport.md R182 to R186): the two panel transactions as
what they append to `PANEL`, and the INIT, PARK and RUN steps that send them. -/

namespace Sys2Proof.Machine

/-! ## The two transactions (R182) -/

/-- A transaction reads as chip select asserted, its bytes, and chip select released. -/
theorem transactionEvents_eq_append (dc : DataCmd) (bytes : List (BitVec 8)) :
    transactionEvents dc bytes =
      [.csAssert] ++ bytes.map (PanelEvent.byte dc) ++ [.csDeassert] := rfl

/-- The whole state after TXCMD: for no byte it is the state before. -/
theorem State.txCmd_eq (s : State) (bytes : List (BitVec 8)) :
    s.txCmd bytes = { s with
      panel := s.panel ++ if bytes = [] then [] else transactionEvents .cmd bytes } := by
  cases bytes with
  | nil => simp [State.txCmd]
  | cons b bs => simp [State.txCmd, State.emit]

theorem State.txCmd_of_ne_nil (s : State) {bytes : List (BitVec 8)} (h : bytes ≠ []) :
    s.txCmd bytes = { s with panel := s.panel ++ transactionEvents .cmd bytes } := by
  rw [s.txCmd_eq, if_neg h]

/-- Settles O46: an empty TXCMD leaves the state, every other transaction is one frame. -/
theorem transactionOperations : Obligations.TransactionOperations := fun s _ =>
  ⟨rfl, fun nonempty => congrArg Host.Outcome.next (s.txCmd_of_ne_nil nonempty), fun _ => rfl⟩

/-! ## INIT (R183) -/

/-- A deadline that fits 64 bits is the sum of the words. -/
theorem addPeriod_of_lt {c : Config} {t : BitVec 64} (h : t.toNat + c.fieldPeriod < 2 ^ 64) :
    addPeriod c t = some (t + BitVec.ofNat 64 c.fieldPeriod) := by
  refine addPeriod_eq_some.2 ⟨h, ?_⟩
  rw [BitVec.ofNat_add, BitVec.ofNat_toNat, BitVec.setWidth_eq]

theorem exec_init_of_addPeriod {s : State} {d : BitVec 64} (h : addPeriod s.cfg s.now = some d) :
    exec .init s = .next (({ s.txCmd s.cfg.initSeq with deadline := d, fi := 0#2 } : State).setSeq
      seqWaitsync) := by
  change execInit s = _
  rw [execInit, h]

/-- Settles O25: the period fits, so INIT sets the deadline beside its one command transaction. -/
theorem initStep : Obligations.InitStep := by
  intro s fits
  rw [exec_init_of_addPeriod (addPeriod_of_lt fits), s.txCmd_eq]
  rfl

/-! ## PARK (R185) -/

theorem exec_park (s : State) :
    exec .park s = .next ((s.txCmd s.cfg.parkSeq).setSeq seqRun) := rfl

/-- Settles O41: PARK is one command transaction, the same for every `FI`. -/
theorem parkStep : Obligations.ParkStep := by
  refine ⟨rfl, fun s => ⟨?_, fun profile => ⟨_, exec_park s, ?_⟩⟩⟩
  · rw [exec_park, s.txCmd_eq]
    rfl
  · rw [profile]
    rfl

/-! ## RUN (R186) -/

theorem exec_run {s : State} (hf : s.fi ≠ 3#2) :
    exec .run s = .next (((s.txCmd (s.cfg.fieldSeq s.fi)).txData s.fieldBytes).setSeq
      (if s.fi = 2#2 then seqRelease else seqPace)) := if_neg hf

/-- The data transaction of the field buffer carries its bytes in ascending order. -/
theorem State.transactionEvents_fieldBytes (s : State) :
    transactionEvents .data s.fieldBytes =
      [.csAssert] ++ (List.range s.cfg.fieldLen).map (fun k => .byte .data (s.readField k))
        ++ [.csDeassert] := by
  rw [transactionEvents_eq_append, State.fieldBytes, List.map_map]
  rfl

/-- Settles O42: RUN is the field's command transaction, then the field buffer's data transaction. -/
theorem runStep : Obligations.RunStep := by
  intro s hf fieldSeq fieldLen
  rw [exec_run hf, s.txCmd_eq, State.txData, s.transactionEvents_fieldBytes]
  rfl

end Sys2Proof.Machine
end

section
/-! PROOFS. The synchronization/scheduler (44_scheduler.md R200 to R218): WAITSYNC, the sweep-start
steps of the saving type, RELEASE, PACE and HALT, the moves of the deadline, and the halted machine. -/

namespace Sys2Proof.Machine

/-! ## WAITSYNC (R202, R203) -/

theorem exec_waitsync_of_available {s : State} (h : s.sem = true) :
    exec .waitsync s = .next (({ s.acquireDisplay with
      curVt := s.nextVt, curFb := s.nextFb, curOv := s.nextOv } : State).setSeq seqPal) := if_pos h

theorem exec_waitsync_of_held {s : State} (h : s.sem = false) : exec .waitsync s = .next s :=
  if_neg (Bool.eq_false_iff.1 h)

/-- Settles O27: the semaphore alone decides. -/
theorem waitsyncStep : Obligations.WaitsyncStep := fun _ =>
  ⟨exec_waitsync_of_available, exec_waitsync_of_held⟩

/-! ## The sweep-start steps of the saving type (R204 to R206) -/

theorem exec_rebuildov_of_saving {s : State} (hvt : s.curVt = vtSaving) :
    exec .rebuildov s = .next (s.setSeq seqWipe) := if_pos hvt

/-- Settles O28: each of the three steps skips its operation. -/
theorem savingTypeSkipsSweepStart : Obligations.SavingTypeSkipsSweepStart := fun _ hvt =>
  ⟨exec_applypal_of_saving hvt, exec_rebuildov_of_saving hvt, exec_advwipe_of_saving hvt⟩

/-! ## RELEASE (R210) and HALT (R212) -/

theorem exec_release (s : State) :
    exec .release s = .next
      (({ s.releaseDisplay with sweepParity := !s.sweepParity } : State).setSeq seqPace) := rfl

/-- Settles O43: the arm of `exec` as it stands. -/
theorem releaseStep : Obligations.ReleaseStep := exec_release

theorem exec_halt (s : State) : exec .halt s = .next s := rfl

/-- Settles O45: HALT leaves the state as it is (log 11). -/
theorem haltStep : Obligations.HaltStep := exec_halt

/-! ## PACE (R211) -/

/-- The next field index, `FI` being no 3, without the remainder. -/
theorem nextField_eq : ∀ f : BitVec 2, f ≠ 3#2 → nextField f = if f = 2#2 then 0#2 else f + 1#2 := by
  decide

/-- The next field is field 0, that of the next sweep, exactly after field 2. -/
theorem nextField_eq_zero_iff : ∀ f : BitVec 2, f ≠ 3#2 → (nextField f = 0#2 ↔ f = 2#2) := by
  decide

theorem exec_pace_of_early {s : State} (early : s.now.toNat < s.deadline.toNat) :
    exec .pace s = .next s := if_pos early

theorem exec_pace_of_due {s : State} {d : BitVec 64} (due : s.deadline.toNat ≤ s.now.toNat)
    (field : s.fi ≠ 3#2) (period : addPeriod s.cfg s.deadline = some d) :
    exec .pace s = .next (({ s with deadline := d, fi := nextField s.fi } : State).setSeq
      (if nextField s.fi = 0#2 then seqWaitsync else seqEncode)) := by
  change execPace s = _
  rw [execPace, if_neg (Nat.not_lt.2 due), if_neg field, period]

/-- Settles O44: before the deadline PACE holds; from it on, the period fits and the deadline moves by
it, whatever `NOW` is. -/
theorem paceStep : Obligations.PaceStep := by
  refine fun s => ⟨exec_pace_of_early, fun due field fits => ?_⟩
  rw [exec_pace_of_due due field (addPeriod_of_lt fits),
    if_congr (nextField_eq_zero_iff s.fi field) rfl rfl, nextField_eq s.fi field]
  rfl

/-! ## What only the display sequencer writes (45_producer_port.md R233) -/

/-- The registers, the memory and the outputs below hold in `t` what they hold in `s`: none but the
display sequencer and the reset input writes them. -/
structure DisplayKept (s t : State) : Prop where
  deadline : t.deadline = s.deadline := by simp
  seq : t.seq = s.seq := by simp
  fi : t.fi = s.fi := by simp
  lum : t.lum = s.lum := by simp
  field : t.field = s.field := by simp
  halt : t.halt = s.halt := by simp
  fatalCode : t.fatalCode = s.fatalCode := by simp
  debugLog : t.debugLog = s.debugLog := by simp
  panel : t.panel = s.panel := by simp

section
variable {s t u : State}

theorem DisplayKept.trans (h : DisplayKept s u) (h' : DisplayKept u t) : DisplayKept s t where
  deadline := h'.deadline.trans h.deadline
  seq := h'.seq.trans h.seq
  fi := h'.fi.trans h.fi
  lum := h'.lum.trans h.lum
  field := h'.field.trans h.field
  halt := h'.halt.trans h.halt
  fatalCode := h'.fatalCode.trans h.fatalCode
  debugLog := h'.debugLog.trans h.debugLog
  panel := h'.panel.trans h.panel

theorem TurnTaken.displayKept (taken : TurnTaken s u) : DisplayKept s u := by
  rw [taken]
  exact {}

theorem CommandEffect.displayKept {i : Instr} (effect : CommandEffect s i t) : DisplayKept s t := by
  cases effect <;> exact {}

/-- A step of the agents is one of the display sequencer, or keeps what only that writes. -/
theorem step_displayKept (transport : s.transport = []) (h : step s = .next t) :
    resetComes s ∨ DisplayKept s t ∨ ∃ u, TurnTaken s u ∧ MicroEffect u t := by
  have taken := turnTaken_takeTurn s
  rcases step_cases h with ⟨waiting, -⟩ | ⟨-, u, rfl, ⟨-, command | illegal | idle⟩ |
    ⟨-, i, decoded, ht⟩ | ⟨now, -, rfl⟩ | ⟨turn, -⟩⟩
  · exact absurd transport waiting
  · obtain ⟨w, v, i, hw, decoded, ht⟩ := command
    have effect := exec_commandEffect decoded ht
    exact .inr (.inl ((taken.presentWord hw).displayKept.trans effect.displayKept))
  · obtain ⟨w, v, e, hw, -, rfl⟩ := illegal
    exact .inr (.inl ((taken.presentWord hw).displayKept.trans {}))
  · exact .inr (.inl (taken.presentWord idle).displayKept)
  · exact .inr (.inr ⟨_, taken, exec_microEffect decoded ht⟩)
  · exact .inr (.inl (taken.displayKept.trans {}))
  · exact .inl ⟨transport, turn⟩

/-! ## The deadline (R211, R218) -/

/-- PACE and INIT are the micro-operations that write the deadline: PACE moves it by one period from
where it stood, INIT sets it one period after `NOW`. -/
theorem MicroEffect.deadline_cases (effect : MicroEffect s t) :
    t.deadline = s.deadline ∨
    (s.seq = seqPace ∧ s.deadline.toNat ≤ s.now.toNat ∧
      t.deadline.toNat = s.deadline.toNat + s.cfg.fieldPeriod) ∨
    (s.seq = seqInit ∧ t.deadline.toNat = s.now.toNat + s.cfg.fieldPeriod) := by
  cases effect with
  | started code period => exact .inr (.inr ⟨code, addPeriod_toNat period⟩)
  | paced code due _ period => exact .inr (.inl ⟨code, due, addPeriod_toNat period⟩)
  | ended start _ result | fatal start _ result =>
    left
    rw [start.frame result]
    simp
  | _ => exact .inl (by simp)

/-- Settles O49: the other agents do not write the deadline, and taking a turn leaves what PACE and
INIT read. -/
theorem deadlinesDriftFree : Obligations.DeadlinesDriftFree := by
  intro s t transport h
  rcases step_displayKept transport h with reset | kept | ⟨u, taken, effect⟩
  · exact .inl reset
  · exact .inr (.inl kept.deadline)
  · rw [taken] at effect
    exact .inr effect.deadline_cases

/-! ## The halted machine (R212, 60_exceptions.md R252) -/

/-- In `S_HALT` the display sequencer has no effect. -/
theorem MicroEffect.eq_of_halt (effect : MicroEffect s t) (halted : s.seq = seqHalt) : t = s := by
  cases effect with
  | held => rfl
  | skipped start | ended start | fatal start => exact absurd halted start.moves.1
  | started code | acquired code | encoded code | parked code | ran code | released code
  | paced code => exact absurd (code.symm.trans halted) (by decide)

theorem CoreInv.seq_of_halt (h : CoreInv s) (halted : s.halt = true) : s.seq = seqHalt :=
  beq_iff_eq.1 (h.halt.symm.trans halted)

/-- The halted sequencer keeps the semaphore for ever. -/
theorem CoreInv.holds_of_halt (h : CoreInv s) (halted : s.halt = true) :
    s.sem = false ∧ s.dispHolds = true := by
  have holds : s.dispHolds = true := by
    rw [h.dispHolds, h.seq_of_halt halted]
    rfl
  exact ⟨by rw [h.sem, holds]; rfl, holds⟩

/-- Settles O50: a step of the halted display sequencer changes nothing and the other agents keep
what is the sequencer's; the semaphore stays taken by `CoreInv`, which the step keeps. -/
theorem haltIsForEver : Obligations.HaltIsForEver := by
  intro s t inv halted transport h
  have step_kept : resetComes s ∨ DisplayKept s t := by
    rcases step_displayKept transport h with reset | kept | ⟨u, taken, effect⟩
    · exact .inl reset
    · exact .inr kept
    · have kept := taken.displayKept
      obtain rfl := effect.eq_of_halt (kept.seq.trans (inv.seq_of_halt halted))
      exact .inr kept
  refine step_kept.imp_right fun kept => ?_
  have inv' : CoreInv t := stepKeepsCoreInv s t inv h
  have halted' : t.halt = true := kept.halt.trans halted
  obtain ⟨sem, holds⟩ := inv'.holds_of_halt halted'
  exact ⟨halted', inv'.seq_of_halt halted', sem, holds, kept.fatalCode, kept.debugLog, kept.panel,
    kept.fi, kept.lum, kept.field⟩

end

end Sys2Proof.Machine
end

section
/-! PROOFS. The producer port (45_producer_port.md R220 to R233): the checks of a command, the
commands that pass them, the three phases of PUBLISH, and what no command writes. -/

namespace Sys2Proof.Machine

/-! ## The checks of R221 -/

section
variable {c : Config} {s : State}

theorem pixelOutOfRange_iff {a : BitVec 19} :
    pixelOutOfRange c a = true ↔ c.srcW * c.srcH ≤ a.toNat := decide_eq_true_iff

theorem setOutOfRange_iff {os : BitVec 2} :
    setOutOfRange c os = true ↔ c.numOvSets ≤ os.toNat := decide_eq_true_iff

theorem recordOutOfRange_iff {i : BitVec 10} :
    recordOutOfRange c i = true ↔ c.ovMax ≤ i.toNat := decide_eq_true_iff

theorem countOutOfRange_iff {n : BitVec 11} :
    countOutOfRange c n = true ↔ c.ovMax < n.toNat := decide_eq_true_iff

theorem columnOutOfRange_iff {x : BitVec 12} :
    columnOutOfRange c x = true ↔ c.wipeCols ≤ x.toNat := decide_eq_true_iff

theorem rawOutOfRange_iff {raw : BitVec 16} :
    rawOutOfRange c raw = true ↔ (c.wipeH : Int) < raw.toInt := decide_eq_true_iff

theorem paletteOutOfRange_iff {id : BitVec 8} :
    paletteOutOfRange c id = true ↔ c.fade.length < id.toNat := decide_eq_true_iff

theorem gammaOutOfRange_iff {g : BitVec 8} :
    gammaOutOfRange c g = true ↔ c.gammaTables.length ≤ g.toNat := decide_eq_true_iff

theorem publishOutOfRange_iff {ov : BitVec 8} :
    publishOutOfRange c ov = true ↔ c.numOvSets ≤ ov.toNat := decide_eq_true_iff

theorem State.ownsFrame_iff {b : BitVec 1} :
    s.ownsFrame b = true ↔ s.dispHolds = true ∧ b = s.curFb := by
  rw [State.ownsFrame, Bool.and_eq_true, beq_iff_eq]

theorem State.ownsSet_iff {os : BitVec 2} :
    s.ownsSet os = true ↔ s.dispHolds = true ∧ os.toNat = s.curOv.toNat := by
  rw [State.ownsSet, Bool.and_eq_true, beq_iff_eq]

end

/-! ## Pixels (R222, R223) -/

/-- A write of a frame byte changes the two frame buffers at most. -/
theorem State.writeFrame_frame (s : State) (b : BitVec 1) (a : Nat) (d : BitVec 8) :
    s.writeFrame b a d =
      { s with fb0 := (s.writeFrame b a d).fb0, fb1 := (s.writeFrame b a d).fb1 } := by
  unfold State.writeFrame
  split <;> rfl

/-- A frame byte after a PXW has been answered. -/
theorem readFrame_writeFrame_respond (s : State) (b b' : BitVec 1) (a a' : Nat) (d : BitVec 8)
    (st : BitVec 2) (data : BitVec 32) :
    ((s.writeFrame b a d).respond st data).readFrame b' a' =
      if b' = b ∧ a' = a then d else s.readFrame b' a' :=
  (readFrame_congr b' a').trans (s.readFrame_writeFrame b b' a a' d)

section
variable {s : State} {b : BitVec 1} {a : BitVec 19}

theorem exec_pxw_of_passed (pixel : a.toNat < s.cfg.srcW * s.cfg.srcH)
    (notOwned : ¬(s.dispHolds = true ∧ b = s.curFb)) (d : BitVec 8) :
    exec (.pxw b a d) s = .next ((s.writeFrame b a.toNat d).respond 0#2 0#32) := by
  change execPxw b a d s = _
  rw [execPxw, if_neg (mt pixelOutOfRange_iff.1 pixel.not_ge),
    if_neg (mt State.ownsFrame_iff.1 notOwned)]

theorem exec_pxr_of_passed (pixel : a.toNat < s.cfg.srcW * s.cfg.srcH)
    (notOwned : ¬(s.dispHolds = true ∧ b = s.curFb)) :
    exec (.pxr b a) s = .next (s.respond 0#2 ((s.readFrame b a.toNat).setWidth 32)) := by
  change execPxr b a s = _
  rw [execPxr, if_neg (mt pixelOutOfRange_iff.1 pixel.not_ge),
    if_neg (mt State.ownsFrame_iff.1 notOwned)]

end

/-- Settles O8: the read after the write, at the address written and at every other. -/
theorem pxwWritesOnePixel : Obligations.PxwWritesOnePixel := by
  intro s b a d pixel notOwned
  refine ⟨_, exec_pxw_of_passed pixel notOwned d, ?_, fun b' a' other => ?_, ?_⟩
  · rw [readFrame_writeFrame_respond, if_pos ⟨rfl, rfl⟩]
  · rw [readFrame_writeFrame_respond, if_neg fun same => other (Prod.ext same.1 same.2)]
  · exact congrArg (State.respond · 0#2 0#32) (s.writeFrame_frame b a.toNat d)

/-- Settles O9: the byte is answered zero-extended. -/
theorem pxrReturnsPixel : Obligations.PxrReturnsPixel := fun _ _ _ pixel notOwned =>
  ⟨_, BitVec.toNat_setWidth_of_le (by decide), exec_pxr_of_passed pixel notOwned⟩

/-- Settles O10: a PXW leaves what the checks of the PXR read, and the read sees the write. -/
theorem pxrReadsBackPxw : Obligations.PxrReadsBackPxw := by
  intro s b b' a a' d pixel pixel' notOwned notOwned'
  refine ⟨_, _, _, exec_pxw_of_passed pixel notOwned d,
    exec_pxr_of_passed (by simpa using pixel') (by simpa using notOwned'), rfl, ?_⟩
  rw [BitVec.toNat_setWidth_of_le (by decide), readFrame_writeFrame_respond]
  simp only [BitVec.toNat_inj, apply_ite BitVec.toNat]

/-! ## The palette request and the gamma level (R224, R225) -/

/-- Settles O11: the id passes its check, and the rest is the arm of `exec`. -/
theorem palreqRecordsRequest : Obligations.PalreqRecordsRequest := fun _ _ known =>
  if_neg (mt paletteOutOfRange_iff.1 known.not_gt)

/-- Settles O12: the level passes its check, and the rest is the arm of `exec`. -/
theorem gammaSetsLevelOnly : Obligations.GammaSetsLevelOnly := fun _ _ known =>
  if_neg (mt gammaOutOfRange_iff.1 known.not_ge)

/-! ## One entry of a table -/

section
variable {α : Type}

theorem getElem?_set_eq_map (l : List α) (i j : Nat) (v : α) :
    (l.set i v)[j]? = l[j]?.map fun x => if j = i then v else x := by
  by_cases same : j = i
  · subst same
    simp [List.getElem?_set_self', Function.const_def]
  · simp [List.getElem?_set_ne (Ne.symm same), same]

theorem getElem?_modify_modify (tables : List (List α)) (f : α → α) (o i o' j : Nat) :
    (tables.modify o fun l => l.modify i f)[o']?.bind (·[j]?) =
      (tables[o']?.bind (·[j]?)).map fun x => if o' = o ∧ j = i then f x else x := by
  rw [List.getElem?_modify]
  by_cases table : o = o'
  · subst table
    cases tables[o]? with
    | none => rfl
    | some l => simp [List.getElem?_modify, eq_comm (a := i)]
  · simp [table, Ne.symm table]

end

/-! ## Overlay records and counts (R228, R229) -/

section
variable {s : State} {os : BitVec 2}

theorem exec_ovw_of_passed {i : BitVec 10} (set : os.toNat < s.cfg.numOvSets)
    (record : i.toNat < s.cfg.ovMax)
    (notOwned : ¬(s.dispHolds = true ∧ os.toNat = s.curOv.toNat)) (row : BitVec 16) :
    exec (.ovw os i row) s = .next (({ s with
      ovrec := s.ovrec.modify os.toNat fun recs =>
        recs.modify i.toNat fun r => { r with row := row } } : State).respond 0#2 0#32) := by
  change execOvw os i row s = _
  rw [execOvw, if_neg (mt setOutOfRange_iff.1 set.not_ge),
    if_neg (mt recordOutOfRange_iff.1 record.not_ge), if_neg (mt State.ownsSet_iff.1 notOwned)]

theorem exec_ovn_of_passed {n : BitVec 11} (set : os.toNat < s.cfg.numOvSets)
    (count : n.toNat ≤ s.cfg.ovMax)
    (notOwned : ¬(s.dispHolds = true ∧ os.toNat = s.curOv.toNat)) :
    exec (.ovn os n) s =
      .next (({ s with ovCount := s.ovCount.set os.toNat n } : State).respond 0#2 0#32) := by
  change execOvn os n s = _
  rw [execOvn, if_neg (mt setOutOfRange_iff.1 set.not_ge),
    if_neg (mt countOutOfRange_iff.1 count.not_gt), if_neg (mt State.ownsSet_iff.1 notOwned)]

end

/-- Settles O13: one record of one set is modified, in its row. -/
theorem ovwWritesRow : Obligations.OvwWritesRow := by
  intro s os i row set record notOwned
  exact ⟨_, exec_ovw_of_passed set record notOwned row, rfl, List.length_modify _ _ _,
    getElem?_modify_modify _ _ _ _⟩

/-- Settles O14: one entry of the table of counts is set. -/
theorem ovnSetsCount : Obligations.OvnSetsCount := fun _ _ _ set count notOwned =>
  ⟨_, exec_ovn_of_passed set count notOwned, rfl, fun _ => getElem?_set_eq_map _ _ _ _⟩

/-! ## The wipe registers (R230, R231) -/

theorem exec_wipew_of_passed {s : State} {x : BitVec 12} {raw : BitVec 16}
    (column : x.toNat < s.cfg.wipeCols) (offset : raw.toInt ≤ s.cfg.wipeH) :
    exec (.wipew x raw) s =
      .next (({ s with wipeRaw := s.wipeRaw.set x.toNat raw } : State).respond 0#2 0#32) := by
  change execWipew x raw s = _
  rw [execWipew, if_neg (mt columnOutOfRange_iff.1 column.not_ge),
    if_neg (mt rawOutOfRange_iff.1 offset.not_gt)]

/-- Settles O15: one entry of the table of raw offsets is set. -/
theorem wipewSetsRaw : Obligations.WipewSetsRaw := fun _ _ _ column offset =>
  ⟨_, exec_wipew_of_passed column offset, rfl, fun _ => getElem?_set_eq_map _ _ _ _⟩

/-- Settles O16: WIPEMIN has no check, so it is the arm of `exec` as it stands. -/
theorem wipeminSetsMinimum : Obligations.WipeminSetsMinimum := fun _ _ => rfl

/-! ## PUBLISH (R226, R227) -/

section
variable {s : State} {vt ov : BitVec 8} {fb : BitVec 1}

theorem exec_publish_of_refused (phase : s.pubPhase = .acquire)
    (range : s.cfg.numOvSets ≤ ov.toNat) :
    exec (.publish vt ov fb) s = .next (s.refuse .cmd) := by
  change execPublish vt ov fb s = _
  simp only [execPublish, phase, if_pos (publishOutOfRange_iff.2 range)]

theorem exec_publish_of_held (phase : s.pubPhase = .acquire) (range : ov.toNat < s.cfg.numOvSets)
    (held : s.sem = false) : exec (.publish vt ov fb) s = .next s := by
  change execPublish vt ov fb s = _
  simp only [execPublish, phase, if_neg (mt publishOutOfRange_iff.1 range.not_ge), held,
    Bool.false_eq_true, if_false]

theorem exec_publish_of_acquire (phase : s.pubPhase = .acquire)
    (range : ov.toNat < s.cfg.numOvSets) (available : s.sem = true) :
    exec (.publish vt ov fb) s = .next { s.acquireProducer with pubPhase := .write } := by
  change execPublish vt ov fb s = _
  simp only [execPublish, phase, if_neg (mt publishOutOfRange_iff.1 range.not_ge), available,
    if_true]

theorem exec_publish_of_write (phase : s.pubPhase = .write) :
    exec (.publish vt ov fb) s =
      .next { s with nextVt := vt, nextFb := fb, nextOv := ov, pubPhase := .release } := by
  change execPublish vt ov fb s = _
  simp only [execPublish, phase]

theorem exec_publish_of_release (phase : s.pubPhase = .release) :
    exec (.publish vt ov fb) s =
      .next (({ s.releaseProducer with pubPhase := .acquire } : State).respond 0#2 0#32) := by
  change execPublish vt ov fb s = _
  simp only [execPublish, phase]

end

/-- Settles O18, phase by phase. -/
theorem publishPhases : Obligations.PublishPhases := fun _ _ _ _ =>
  ⟨exec_publish_of_acquire, exec_publish_of_write, exec_publish_of_release⟩

/-- Settles O20: the range check comes before the semaphore. -/
theorem publishWaitsOrIsRefused : Obligations.PublishWaitsOrIsRefused := fun _ _ _ _ phase =>
  ⟨exec_publish_of_refused phase, exec_publish_of_held phase⟩

/-- The producer's turn, with a command already on the port, runs it. -/
theorem step_producer_of_port {ts : List Turn} {w : BitVec 32} {i : Instr} {s : State}
    (transport : s.transport = []) (turns : s.turns = .producer :: ts) (port : s.port = some w)
    (decoded : decode (.command w) = .ok i) : step s = exec i { s with turns := ts } :=
  step_producer transport turns (presentWord_of_port port) decoded

/-- Settles O19: the word stays on the port until the release answers it, so each of the three turns
runs the next phase of the same PUBLISH. -/
theorem publishThreeTurnsComplete : Obligations.PublishThreeTurnsComplete := by
  intro s ts w vt ov fb transport turns port decoded range phase available
  refine ⟨{ s with
      turns := .producer :: .producer :: ts, sem := false, prodHolds := true, pubPhase := .write },
    { s with
      turns := .producer :: ts, nextVt := vt, nextFb := fb, nextOv := ov, sem := false,
      prodHolds := true, pubPhase := .release }, ?acquire, ?write, rfl, rfl, ?release⟩
  case acquire =>
    exact (step_producer_of_port transport turns port decoded).trans
      (exec_publish_of_acquire phase range available)
  case write =>
    refine (step_producer_of_port ?_ rfl ?_ decoded).trans (exec_publish_of_write rfl)
    · exact transport
    · exact port
  case release =>
    refine (step_producer_of_port ?_ rfl ?_ decoded).trans (exec_publish_of_release rfl)
    · exact transport
    · exact port

/-! ## What no command writes (R233) -/

/-- Only a transaction of no byte is ill-formed. -/
theorem wellFormed_of_isCommandOp {i : Instr} (h : isCommandOp i = true) : i.wellFormed = true := by
  cases i with
  | txcmd | txdata => cases h
  | _ => rfl

/-- A producer command is decoded from its own word. -/
theorem exists_decodeCommand_of_isCommandOp {i : Instr} (h : isCommandOp i = true) :
    ∃ w, decodeCommand w = .ok i := by
  cases word : encode i with
  | command w =>
    have decoded := decodeEncodeRoundTrip i (wellFormed_of_isCommandOp h)
    rw [word] at decoded
    exact ⟨w, decoded⟩
  | micro c => simp [isCommandOp, word] at h
  | transaction symbols => simp [isCommandOp, word] at h

/-- What a sweep works with holds in `t` what it holds in `s`: the holder bit, the selection triple,
the parity, the tables that the sweep-start steps fill, the time and the parameters. -/
structure SweepKept (s t : State) : Prop where
  dispHolds : t.dispHolds = s.dispHolds := by simp
  curVt : t.curVt = s.curVt := by simp
  curFb : t.curFb = s.curFb := by simp
  curOv : t.curOv = s.curOv := by simp
  sweepParity : t.sweepParity = s.sweepParity := by simp
  mini : t.mini = s.mini := by simp
  head : t.head = s.head := by simp
  wipeOff : t.wipeOff = s.wipeOff := by simp
  now : t.now = s.now := by simp
  cfg : t.cfg = s.cfg := by simp

theorem State.ovSet_getD (s : State) (o j : Nat) (r : OvRecord) :
    (s.ovSet o).getD j r = (s.ovrec[o]?.bind (·[j]?)).getD r := by
  unfold State.ovSet
  rw [List.getD_eq_getElem?_getD, List.getD_eq_getElem?_getD]
  cases s.ovrec[o]? <;> rfl

section
variable {s t : State} {i : Instr}

theorem CommandEffect.sweepKept (effect : CommandEffect s i t) : SweepKept s t := by
  cases effect <;> exact {}

/-- No command changes a link: OVW, the only command that writes a record, writes its row. -/
theorem CommandEffect.link_eq (effect : CommandEffect s i t) (o j : Nat) :
    ((t.ovSet o).getD j ⟨0#16, ovNil⟩).next = ((s.ovSet o).getD j ⟨0#16, ovNil⟩).next := by
  rw [State.ovSet_getD, State.ovSet_getD]
  cases effect with
  | @rowWritten os k row =>
    rw [State.respond_ovrec, getElem?_modify_modify]
    cases s.ovrec[o]?.bind (·[j]?) with
    | none => rfl
    | some r =>
      simp only [Option.map_some, Option.getD_some]
      split <;> rfl
  | _ => simp

end

/-- Settles O53: each effect of a command, with the links of OVW apart. -/
theorem producerNeverWritesDisplayState : Obligations.ProducerNeverWritesDisplayState := by
  intro i s t command h
  obtain ⟨w, decoded⟩ := exists_decodeCommand_of_isCommandOp command
  have effect := exec_commandEffect decoded h
  have display := effect.displayKept
  have sweep := effect.sweepKept
  exact ⟨display.field, display.lum, sweep.mini, sweep.head, sweep.wipeOff, sweep.curVt,
    sweep.curFb, sweep.curOv, sweep.sweepParity, display.deadline, display.seq, display.fi,
    effect.link_eq, display.halt, display.fatalCode, display.debugLog, display.panel,
    sweep.dispHolds, sweep.now, sweep.cfg⟩

end Sys2Proof.Machine
end

section
/-! PROOFS. Exceptions (60_exceptions.md): which command raises which error flag (R255 to R258), fatal
entry (R246, R250), and what no display micro-operation writes (R261). -/

namespace Sys2Proof.Machine

/-! ## Fatal entry (R246, R250) -/

/-- Settles O48: the end of a step that raised a fatal, and the code of each cause. -/
theorem fatalEntry : Obligations.FatalEntry := fun _ f _ => ⟨rfl, by cases f <;> rfl⟩

/-! ## The three refusals (R255) -/

/-- The sticky flag of a refusal. -/
def State.flag (s : State) : ErrKind → Bool
  | .own => s.errOwn
  | .addr => s.errAddr
  | .cmd => s.errCmd

/-- The bit of `STATUS` that shows the flag (30_encoding.md R101). -/
def ErrKind.statusBit : ErrKind → Nat
  | .own => 4
  | .addr => 5
  | .cmd => 6

theorem ErrKind.status_ne_zero (e : ErrKind) : e.status ≠ 0#2 := by cases e <;> decide

theorem ErrKind.status_inj {e e' : ErrKind} : e.status = e'.status ↔ e = e' := by
  cases e <;> cases e' <;> decide

theorem State.flag_refuse (s : State) (e e' : ErrKind) :
    (s.refuse e').flag e = true ↔ s.flag e = true ∨ e' = e := by
  cases e <;> simp [State.flag]

/-- A refusal written out: the flag of its status, and the answer. -/
theorem State.refuse_eq (s : State) (e : ErrKind) :
    s.refuse e = { s with
      errOwn := s.errOwn || e.status == 1#2, errAddr := s.errAddr || e.status == 2#2,
      errCmd := s.errCmd || e.status == 3#2, response := some ⟨e.status, 0#32⟩, port := none } := by
  cases e <;> simp [State.refuse, State.setErr, State.respond, ErrKind.status]

/-- The flags are bits of the word that RDSTAT answers with. -/
theorem State.getLsbD_status (s : State) (e : ErrKind) :
    s.status.getLsbD e.statusBit = s.flag e := by
  obtain ⟨d, answered, -, -, own, addr, cmd, -⟩ := rdstatReturnsStatus s
  have word : s.status = d := by simpa [exec, execRdstat, State.respond] using answered
  subst word
  cases e
  · exact own
  · exact addr
  · exact cmd

/-! ## The checks of a command (45_producer_port.md R221) -/

/-- The refusal that command `i` calls for: that of the first of its checks that fails, in the order
of R221 and 60_exceptions.md R269, or none when all pass. A PUBLISH has its check in its first phase. -/
def State.refusal (s : State) : Instr → Option ErrKind
  | .pxw b a _ =>
    if pixelOutOfRange s.cfg a then some .addr else if s.ownsFrame b then some .own else none
  | .pxr b a =>
    if pixelOutOfRange s.cfg a then some .addr else if s.ownsFrame b then some .own else none
  | .palreq id => if paletteOutOfRange s.cfg id then some .cmd else none
  | .gamma g => if gammaOutOfRange s.cfg g then some .cmd else none
  | .publish _ ov _ =>
    if s.pubPhase = .acquire then if publishOutOfRange s.cfg ov then some .cmd else none else none
  | .ovw os j _ =>
    if setOutOfRange s.cfg os then some .addr
    else if recordOutOfRange s.cfg j then some .addr
    else if s.ownsSet os then some .own else none
  | .ovn os n =>
    if setOutOfRange s.cfg os then some .addr
    else if countOutOfRange s.cfg n then some .addr
    else if s.ownsSet os then some .own else none
  | .wipew x raw =>
    if columnOutOfRange s.cfg x then some .addr
    else if rawOutOfRange s.cfg raw then some .cmd else none
  | _ => none

/-- What a command leaves, given the refusal that it calls for: that refusal and no more, or the flags
as they stand and no response but one of status 0. -/
inductive Answer (s : State) : Option ErrKind → State → Prop where
  | refused (e : ErrKind) : Answer s (some e) (s.refuse e)
  | passed {t : State} (flag : ∀ e, t.flag e = s.flag e)
      (response : ∀ r, t.response = some r → r.status = 0#2) : Answer s none t

/-- The outcome `o` of a command is a next state, which answers the refusal `r`. -/
def Answers (s : State) (o : Host.Outcome State Fault Refusal) (r : Option ErrKind) : Prop :=
  ∃ t, o = .next t ∧ Answer s r t

section
variable {s : State}

/-- One check, then the rest of the command. -/
theorem Answers.check {failed : Prop} [Decidable failed] {e : ErrKind}
    {o : Host.Outcome State Fault Refusal} {r : Option ErrKind} (rest : Answers s o r) :
    Answers s (if failed then .next (s.refuse e) else o) (if failed then some e else r) := by
  split
  · exact ⟨_, rfl, .refused e⟩
  · exact rest

/-- A command that completes with status 0 and raises no flag. -/
theorem Answers.completed {t : State} {d : BitVec 32}
    (own : t.errOwn = s.errOwn := by simp) (addr : t.errAddr = s.errAddr := by simp)
    (cmd : t.errCmd = s.errCmd := by simp) : Answers s (.next (t.respond 0#2 d)) none := by
  refine ⟨_, rfl, .passed (fun e => ?_) (by simp)⟩
  cases e <;> simpa [State.flag]

/-- A phase of PUBLISH that does not complete it. -/
theorem Answers.pending {t : State} (idle : s.response = none)
    (own : t.errOwn = s.errOwn := by simp) (addr : t.errAddr = s.errAddr := by simp)
    (cmd : t.errCmd = s.errCmd := by simp) (response : t.response = s.response := by simp) :
    Answers s (.next t) none := by
  refine ⟨_, rfl, .passed (fun e => ?_) (by simp [response, idle])⟩
  cases e <;> simpa [State.flag]

theorem answers_publish {vt ov : BitVec 8} {fb : BitVec 1} (idle : s.response = none) :
    Answers s (execPublish vt ov fb s) (s.refusal (.publish vt ov fb)) := by
  unfold execPublish State.refusal
  cases phase : s.pubPhase with
  | acquire =>
    refine .check ?_
    split
    · exact .pending idle
    · exact .pending idle
  | write => exact .pending idle
  | release => exact .completed

/-- A command is answered as its checks call for. -/
theorem exec_answers {i : Instr} (command : isCommandOp i = true) (idle : s.response = none) :
    Answers s (exec i s) (s.refusal i) := by
  cases i with
  | pxw b a d => exact .check (.check .completed)
  | pxr b a => exact .check (.check .completed)
  | palreq id => exact .check .completed
  | gamma g => exact .check .completed
  | publish vt ov fb => exact answers_publish idle
  | ovw os j row => exact .check (.check (.check .completed))
  | ovn os n => exact .check (.check (.check .completed))
  | wipew x raw => exact .check (.check .completed)
  | wipemin m => exact .completed
  | rdstat => exact .completed
  | _ => cases command

variable {r : Option ErrKind} {t : State} {e : ErrKind}

theorem Answer.response_iff (h : Answer s r t) :
    t.response = some ⟨e.status, 0#32⟩ ↔ r = some e := by
  cases h with
  | refused e' => simp [ErrKind.status_inj]
  | passed _ response => simpa using fun h => e.status_ne_zero (response _ h)

theorem Answer.flag_iff (h : Answer s r t) : t.flag e = true ↔ s.flag e = true ∨ r = some e := by
  cases h with
  | refused e' => simp [State.flag_refuse]
  | passed flag _ => simp [flag]

/-- An answer of a status other than 0 is a refusal with that status. -/
theorem Answer.eq_refuse {st : BitVec 2} {d : BitVec 32} (h : Answer s r t)
    (answered : t.response = some ⟨st, d⟩) (refused : st ≠ 0#2) :
    d = 0#32 ∧ ∃ e : ErrKind, e.status = st ∧ t = s.refuse e := by
  cases h with
  | refused e =>
    rw [State.refuse_response] at answered
    cases answered
    exact ⟨rfl, e, rfl, rfl⟩
  | passed _ response => exact absurd (response _ answered) refused

/-- A refusal is answered, raises its flag and shows in `STATUS` exactly when the checks call for it. -/
theorem exists_exec_raised_iff {i : Instr} {raised : Prop} (command : isCommandOp i = true)
    (idle : s.response = none) (e : ErrKind) (h : s.refusal i = some e ↔ raised) :
    ∃ t, exec i s = .next t ∧ (t.response = some ⟨e.status, 0#32⟩ ↔ raised) ∧
      (t.flag e = true ↔ s.flag e = true ∨ raised) ∧ t.status.getLsbD e.statusBit = t.flag e := by
  obtain ⟨t, next, answer⟩ := exec_answers command idle
  exact ⟨t, next, answer.response_iff.trans h, answer.flag_iff.trans (or_congr_right h),
    t.getLsbD_status e⟩

end

/-! ## Which command calls for which refusal (R256 to R258) -/

/-- Settles O21: the ownership check of PXW, PXR, OVW and OVN is their last one. -/
theorem errOwnRaisedExactly : Obligations.ErrOwnRaisedExactly := by
  intro i s command idle
  refine exists_exec_raised_iff command idle .own ?_
  cases i with
  | pxw b a d =>
    simp [State.refusal, ite_eq_iff, pixelOutOfRange_iff, State.ownsFrame_iff, and_left_comm]
  | pxr b a =>
    simp [State.refusal, ite_eq_iff, pixelOutOfRange_iff, State.ownsFrame_iff, and_left_comm]
  | ovw os j row =>
    simp [State.refusal, ite_eq_iff, setOutOfRange_iff, recordOutOfRange_iff, State.ownsSet_iff,
      and_left_comm]
  | ovn os n =>
    simp [State.refusal, ite_eq_iff, setOutOfRange_iff, countOutOfRange_iff, State.ownsSet_iff,
      and_left_comm]
  | _ => simp [State.refusal, ite_eq_iff]

/-- Settles O22: the range checks of an address, an index or a count come before every other check. -/
theorem errAddrRaisedExactly : Obligations.ErrAddrRaisedExactly := by
  intro i s command idle
  refine exists_exec_raised_iff command idle .addr ?_
  cases i with
  | pxw b a d => simp [State.refusal, ite_eq_iff, pixelOutOfRange_iff]
  | pxr b a => simp [State.refusal, ite_eq_iff, pixelOutOfRange_iff]
  | ovw os j row =>
    simp [State.refusal, ite_eq_iff, setOutOfRange_iff, recordOutOfRange_iff, or_iff_not_imp_left]
  | ovn os n =>
    simp [State.refusal, ite_eq_iff, setOutOfRange_iff, countOutOfRange_iff, or_iff_not_imp_left]
  | wipew x raw => simp [State.refusal, ite_eq_iff, columnOutOfRange_iff]
  | _ => simp [State.refusal, ite_eq_iff]

/-- Settles O23: the operand checks of the commands, and the refusal of an illegal word. -/
theorem errCmdRaisedExactly : Obligations.ErrCmdRaisedExactly := by
  refine ⟨fun i s command idle phase => ?_, fun s ts w e transport turns port undecoded => ?_⟩
  · refine exists_exec_raised_iff command idle .cmd ?_
    cases i with
    | palreq id => simp [State.refusal, paletteOutOfRange_iff]
    | gamma g => simp [State.refusal, gammaOutOfRange_iff]
    | publish vt ov fb => simp [State.refusal, phase, publishOutOfRange_iff]
    | wipew x raw => simp [State.refusal, ite_eq_iff, columnOutOfRange_iff, rawOutOfRange_iff]
    | _ => simp [State.refusal, ite_eq_iff]
  · exact ⟨_, illegalWordRefused s ts w e transport turns port undecoded, rfl, rfl⟩

/-- Settles O24: an answer of a status other than 0 is a refusal, written out. -/
theorem refusalChangesNothingElse : Obligations.RefusalChangesNothingElse := by
  intro i s t st d command idle next answered refused
  obtain ⟨t', next', answer⟩ := exec_answers command idle
  obtain rfl : t = t' := Host.Outcome.next.inj (next.symm.trans next')
  obtain ⟨data, e, rfl, rfl⟩ := answer.eq_refuse answered refused
  exact ⟨data, s.refuse_eq e⟩

/-! ## What no display micro-operation writes (R261) -/

/-- What the producer alone writes holds in `t` what it holds in `s`: the frame buffers, the rows of
the overlay records, the registers of the commands, the error flags and the port; and so do the inputs
and the parameters. -/
structure ProducerKept (s t : State) : Prop where
  fb0 : t.fb0 = s.fb0 := by simp
  fb1 : t.fb1 = s.fb1 := by simp
  powerUp : t.powerUp = s.powerUp := by simp
  row : ∀ o j, rowOf (t.ovSet o) j = rowOf (s.ovSet o) j := by simp [State.ovSet]
  nextVt : t.nextVt = s.nextVt := by simp
  nextFb : t.nextFb = s.nextFb := by simp
  nextOv : t.nextOv = s.nextOv := by simp
  palReq : t.palReq = s.palReq := by simp
  gammaLevel : t.gammaLevel = s.gammaLevel := by simp
  ovCount : t.ovCount = s.ovCount := by simp
  prodHolds : t.prodHolds = s.prodHolds := by simp
  errOwn : t.errOwn = s.errOwn := by simp
  errAddr : t.errAddr = s.errAddr := by simp
  errCmd : t.errCmd = s.errCmd := by simp
  port : t.port = s.port := by simp
  pubPhase : t.pubPhase = s.pubPhase := by simp
  response : t.response = s.response := by simp
  now : t.now = s.now := by simp
  cfg : t.cfg = s.cfg := by simp

section
variable {s t u : State}

/-- Records that differ in their links alone have the same rows, in a set and beyond the sets. -/
theorem rowOf_ovSet_withChains (head : List (BitVec 16)) {linked : List OvRecord}
    (rows : ∀ j : Nat, linked[j]?.map OvRecord.row = (s.ovSet s.curOv.toNat)[j]?.map OvRecord.row)
    (o j : Nat) : rowOf ((s.withChains head linked).ovSet o) j = rowOf (s.ovSet o) j := by
  by_cases current : o = s.curOv.toNat
  · subst current
    by_cases inside : s.curOv.toNat < s.ovrec.length
    · have set : (s.withChains head linked).ovSet s.curOv.toNat = linked := by
        simp [State.ovSet, State.withChains, inside]
      rw [set, rowOf_congr (rows j)]
    · rw [State.ovSet, State.withChains, List.set_eq_of_length_le (Nat.not_lt.1 inside)]
      rfl
  · simp only [State.ovSet, List.getD_eq_getElem?_getD, ovrec_withChains_of_ne head linked current]

/-- The operation of a sweep-start step writes no row field: REBUILDOV only links records (R146). -/
theorem SweepStart.rowOf_eq {op : State → MicroResult} {c succ : BitVec 4}
    (start : SweepStart op c succ) {f : Option FatalCause} (h : op s = .ok (u, f)) (o j : Nat) :
    rowOf (u.ovSet o) j = rowOf (s.ovSet o) j := by
  cases start with
  | palette =>
    rcases applyPalette_ok h with ⟨-, rfl, -⟩ | ⟨-, hu, -⟩
    · rfl
    · rw [hu]
      rfl
  | overlays =>
    obtain ⟨rfl, -⟩ := Prod.mk.inj (Except.ok.inj h)
    obtain ⟨-, -, rows, -, -⟩ := linkDown_frame s.cfg.ovRows (s.ovCountOf s.curOv.toNat)
      (List.replicate s.cfg.ovRows ovNil) (s.ovSet s.curOv.toNat)
    exact rowOf_ovSet_withChains _ rows o j
  | wipe =>
    rcases advanceWipe_ok h with ⟨-, rfl, -⟩ | ⟨-, hu, -⟩
    · rfl
    · rw [hu]
      rfl

theorem SweepStart.producerKept {op : State → MicroResult} {c succ : BitVec 4}
    (start : SweepStart op c succ) {f : Option FatalCause} (h : op s = .ok (u, f)) :
    ProducerKept s u := by
  have row := start.rowOf_eq h
  rw [start.frame h] at row ⊢
  exact { row := row }

theorem ProducerKept.setSeq (h : ProducerKept s u) (c : BitVec 4) : ProducerKept s (u.setSeq c) :=
  { h with }

theorem ProducerKept.fatal (h : ProducerKept s u) (f : FatalCause) : ProducerKept s (u.fatal f) :=
  { h with }

theorem sweepStartStep_producerKept {op : State → MicroResult} {c succ : BitVec 4}
    (start : SweepStart op c succ) (h : sweepStartStep op succ s = .next t) : ProducerKept s t := by
  rcases sweepStartStep_next h with ⟨-, rfl⟩ | ⟨-, u, ⟨result, rfl⟩ | ⟨f, result, rfl⟩⟩
  · exact {}
  · exact (start.producerKept result).setSeq succ
  · exact (start.producerKept result).fatal f

theorem execInit_producerKept (h : execInit s = .next t) : ProducerKept s t := by
  unfold execInit at h
  split at h <;> cases h
  exact {}

theorem execWaitsync_producerKept (h : execWaitsync s = .next t) : ProducerKept s t := by
  unfold execWaitsync at h
  split at h <;> cases h
  · exact {}
  · exact {}

theorem execEncode_producerKept (h : execEncode s = .next t) : ProducerKept s t := by
  unfold execEncode at h
  split at h <;> cases h
  exact {}

theorem execRun_producerKept (h : execRun s = .next t) : ProducerKept s t := by
  unfold execRun at h
  split at h <;> cases h
  exact {}

theorem execPace_producerKept (h : execPace s = .next t) : ProducerKept s t := by
  unfold execPace at h
  split at h
  · cases h
    exact {}
  · split at h
    · cases h
    · split at h <;> cases h
      exact {}

/-- Every display micro-operation, whatever `SEQ` holds. -/
theorem exec_producerKept {i : Instr} (micro : isMicroOp i = true) (h : exec i s = .next t) :
    ProducerKept s t := by
  cases i with
  | init => exact execInit_producerKept h
  | waitsync => exact execWaitsync_producerKept h
  | applypal => exact sweepStartStep_producerKept .palette h
  | rebuildov => exact sweepStartStep_producerKept .overlays h
  | advwipe => exact sweepStartStep_producerKept .wipe h
  | encode => exact execEncode_producerKept h
  | park =>
    cases h
    exact {}
  | run => exact execRun_producerKept h
  | release =>
    cases h
    exact {}
  | pace => exact execPace_producerKept h
  | halt =>
    cases h
    exact {}
  | _ => cases micro

end

/-- Settles O52: the case of each micro-operation, with the links that REBUILDOV writes apart. -/
theorem displayNeverWritesProducerState : Obligations.DisplayNeverWritesProducerState := by
  intro i s t micro h
  have kept := exec_producerKept micro h
  exact ⟨kept.fb0, kept.fb1, kept.powerUp, kept.row, kept.nextVt, kept.nextFb, kept.nextOv,
    kept.palReq, kept.gammaLevel, kept.ovCount, kept.prodHolds, kept.errOwn, kept.errAddr,
    kept.errCmd, kept.port, kept.pubPhase, kept.response, kept.now, kept.cfg⟩

end Sys2Proof.Machine
end

section
/-! PROOFS. The first sweep after reset (70_reset_and_hazards.md R276): while `LUM` is all zero every
block of pixels averages to 0, whatever the frame buffers hold, and ENCODE reads nothing else of
them. -/

namespace Sys2Proof.Machine

/-! ## The sample of a black machine (R162, R163) -/

section
variable (s : State) (black : ∀ l ∈ s.lum, l = 0#8)
include black

theorem State.readLum_of_black (i : BitVec 8) : s.readLum i = 0#8 := by
  rw [State.readLum, List.getD_eq_getElem?_getD]
  cases entry : s.lum[i.toNat]? with
  | none => rfl
  | some l => exact black l (List.mem_of_getElem? entry)

theorem State.pixelLum_of_black (x y : Nat) : s.pixelLum x y = 0 :=
  congrArg BitVec.toNat (s.readLum_of_black black _)

/-- The average of a block of black pixels, whatever its size. -/
theorem State.sample_of_black (x y : Nat) : s.sample x y = 0 := by
  simp [s.sample_eq_sum, s.pixelLum_of_black black]

theorem State.sample_eq_of_black {t : State} (hlum : s.lum = t.lum) (x y : Nat) :
    s.sample x y = t.sample x y := by
  rw [s.sample_of_black black, t.sample_of_black (hlum ▸ black)]

end

/-! ## What ENCODE depends on (R161 to R171) -/

section
variable {s t : State} (hcfg : s.cfg = t.cfg) (hparity : s.sweepParity = t.sweepParity)
  (hsample : ∀ x y, s.sample x y = t.sample x y)
include hcfg hparity hsample

/-- Two states of one geometry and dither phase that agree on every sample light the same pixels. -/
theorem State.panelOn_congr (f p x : Nat) : s.panelOn f p x = t.panelOn f p x := by
  rw [State.panelOn, State.panelOn, State.pixelOn, State.pixelOn, hcfg, hparity, hsample]

theorem State.bitplaneByte_congr (f k : Nat) : s.bitplaneByte f k = t.bitplaneByte f k := by
  refine BitVec.eq_of_getLsbD_eq fun j hj => ?_
  rw [s.getLsbD_bitplaneByte f k hj, t.getLsbD_bitplaneByte f k hj, hcfg,
    State.panelOn_congr hcfg hparity hsample]

/-- ENCODE of one field reads the memories through the samples only, and writes `FIELD` whole. -/
theorem exec_encode_field_congr (hf : t.fi ≠ 3#2) (hfi : s.fi = t.fi) :
    ∃ u v, exec .encode s = .next u ∧ exec .encode t = .next v ∧ u.field = v.field := by
  refine ⟨_, _, exec_encode (hfi ▸ hf), exec_encode hf, ?_⟩
  rw [State.setSeq_field, State.setSeq_field, State.writeField_field, State.writeField_field, hcfg,
    hfi, funext (State.bitplaneByte_congr hcfg hparity hsample t.fi.toNat)]

end

/-- Settles O40: the two runs differ only in memories that ENCODE reads through the samples, and with
`LUM` all zero each run has the sample 0 everywhere. -/
theorem blackEncodeIgnoresFrame : Obligations.BlackEncodeIgnoresFrame := by
  intro s m0 m1 k hf black
  exact exec_encode_field_congr rfl rfl (s.sample_eq_of_black black rfl) hf rfl

end Sys2Proof.Machine
end

section
/-! PROOFS. The cases the spec leaves unmodelled (93_implementation_defined.md U3, U4, U16): each
stops with the refusal that names it (log 15). -/

namespace Sys2Proof.Machine

/-! ## A deadline past 64 bits (U4) -/

theorem addPeriod_eq_none {c : Config} {t : BitVec 64} :
    addPeriod c t = none ↔ 2 ^ 64 ≤ t.toNat + c.fieldPeriod := by
  rw [addPeriod, ite_eq_right_iff, ← Nat.not_lt]
  simp only [reduceCtorEq]

theorem exec_init_of_overflow {s : State} (overflow : 2 ^ 64 ≤ s.now.toNat + s.cfg.fieldPeriod) :
    exec .init s = .refused .timeOverflow := by
  change execInit s = _
  rw [execInit, addPeriod_eq_none.2 overflow]

theorem exec_pace_of_overflow {s : State} (due : s.deadline.toNat ≤ s.now.toNat)
    (field : s.fi ≠ 3#2) (overflow : 2 ^ 64 ≤ s.deadline.toNat + s.cfg.fieldPeriod) :
    exec .pace s = .refused .timeOverflow := by
  change execPace s = _
  rw [execPace, if_neg (Nat.not_lt.2 due), if_neg field, addPeriod_eq_none.2 overflow]

/-! ## A palette that does not lie inside the lump (U3) -/

theorem applyPalette_of_outside {s : State} (hp : s.palPending = true)
    (outside : s.cfg.lump.length < paletteOffset s.cfg s.palReq + 768) :
    applyPalette s = .error .lumpTooShort := by
  rw [applyPalette, if_pos hp]
  exact if_pos outside

theorem exec_applypal_of_outside {s : State} (hvt : s.curVt ≠ vtSaving) (hp : s.palPending = true)
    (outside : s.cfg.lump.length < paletteOffset s.cfg s.palReq + 768) :
    exec .applypal s = .refused .lumpTooShort := by
  rw [exec_applypal_of_not_saving hvt, applyPalette_of_outside hp outside]
  rfl

/-! ## The field index 3 (U16) -/

section
variable {s : State} (hf : s.fi = 3#2)
include hf

theorem exec_encode_of_field_three : exec .encode s = .refused .fieldIndexThree := if_pos hf

theorem exec_run_of_field_three : exec .run s = .refused .fieldIndexThree := if_pos hf

/-- Before the deadline PACE holds even here (`exec_pace_of_early`). -/
theorem exec_pace_of_field_three (due : s.deadline.toNat ≤ s.now.toNat) :
    exec .pace s = .refused .fieldIndexThree :=
  (if_neg (Nat.not_lt.2 due)).trans (if_pos hf)

end

/-! ## A reserved code in `SEQ` (U16) -/

/-- The codes 0xA to 0xE select no micro-operation (30_encoding.md R102). -/
theorem decode_micro_of_reserved : ∀ c : BitVec 4, 0xA ≤ c.toNat → c.toNat ≤ 0xE →
    decode (.micro c) = .error .reservedCode := by decide

/-- The display sequencer's turn has no step where `SEQ` selects no micro-operation. -/
theorem step_display_of_undecoded {s : State} {ts : List Turn} {e : DecodeError}
    (ht : s.transport = []) (hturn : s.turns = .display :: ts)
    (hd : decode (.micro s.seq) = .error e) : step s = .refused (.reservedCode s.seq) := by
  simp only [step, fetch_of_turns ht hturn, fetchTurn, fetchMicro, hd]

/-- Settles O26, stop by stop; the offset of the palette is that of `paletteOffset_eq`. -/
theorem unmodelledCasesStop : Obligations.UnmodelledCasesStop := by
  intro s
  refine ⟨exec_init_of_overflow, exec_pace_of_overflow, fun hvt hp outside => ?palette, fun hf =>
    ⟨exec_encode_of_field_three hf, exec_run_of_field_three hf, exec_pace_of_field_three hf⟩,
    fun ts ht hturn low high => ?reserved⟩
  case palette =>
    rw [← paletteOffset_eq] at outside
    exact exec_applypal_of_outside hvt hp outside
  case reserved =>
    exact step_display_of_undecoded ht hturn (decode_micro_of_reserved s.seq low high)

end Sys2Proof.Machine
end
